-- ==== Sys2Proof/Word.lean ====
section
/-! DEFINITION. The widths of the EBC, each standing once as a number (spec 00_scope R9, R10), and the value types, which
take their widths from those numbers (R11; log entry 27): every value is unsigned, none is signed. -/

namespace Sys2Proof

/-! ### Widths, in bits -/

/-- `ADDR_WIDTH` (R9): the width of a logical address. -/
def Config.addrWidth : Nat := 16
/-- `ADDR_BITS` (R9): the physically meaningful low address bits. -/
def Config.addrBits : Nat := 14
/-- `ADDR_LO_BITS` (R9): the width of the low address field. -/
def Config.addrLoBits : Nat := 8
/-- `ADDR_HI_SHIFT` (R9): the left shift of the high field on the high-address port. -/
def Config.addrHiShift : Nat := 2
/-- `ADDR_HI_PORT_BITS` (R10, decision D4): the width of the high-address port. -/
def Config.addrHiPortBits : Nat := 8
/-- `DATA_BITS` (R9): the width of the data bus. -/
def Config.dataBits : Nat := 8
/-- `LEN_WIDTH` (R9): the width of `transfer_length` and `progress`. -/
def Config.lenWidth : Nat := 16

/-! ### Value types -/

/-- `u8`: a link byte, a data-bus value, a checksum (R11). -/
abbrev Byte := BitVec (delta% Config.dataBits)

/-- `u16` as a logical address (R11). `+` on it is the spec's `+16`, the sum modulo 65536. -/
abbrev Word := BitVec (delta% Config.addrWidth)

/-- `u16` as a length or a byte count (R11, 10_state R21, R22). -/
abbrev Len := BitVec (delta% Config.lenWidth)

/-- `u14`: an address as the chip sees it (20_memory R61). -/
abbrev ChipAddr := BitVec (delta% Config.addrBits)

/-- Address bits 7 to 0, as the low-address port carries them (10_state R30). -/
abbrev LoField := BitVec (delta% Config.addrLoBits)

/-- `u6`: address bits 13 to 8, as the high-address port carries them in its bits 7 to 2 (10_state R31). -/
abbrev HiField := BitVec ((delta% Config.addrBits) - (delta% Config.addrLoBits))

/-- The high-address port with its two low bits (10_state R31, 30_encoding R100). -/
abbrev HiPort := BitVec (delta% Config.addrHiPortBits)

end Sys2Proof
end

