-- ==== Sys2Proof/Config.lean ====
section
/-! DEFINITION. The constants of the EBC (spec 00_scope R9, with the source's values), its decided parameters and its
OPEN parameters (R10), and the free values of the model. A free value or an open parameter is a constant with no body:
nothing can be proved of it, so a claim holds whatever it is. -/

namespace Sys2Proof

/-- The data-bus direction (10_state R33): `output` = the EBC drives the bus with `DOUT`; `input` = it may sample it. -/
inductive Dir where
  | input
  | output
deriving DecidableEq, Repr, Inhabited

/-- The eight bus and control fields (10_state R30 to R37). It stands here because two open parameters, the diagnostic
patterns, are values of it. -/
structure Bus where
  /-- `ADDR_LO` (R30): address bits 7 to 0. -/
  addrLo : LoField
  /-- `ADDR_HI6` (R31): address bits 13 to 8. -/
  addrHi6 : HiField
  /-- `DOUT` (R32): the output latch of the data bus. -/
  dout : Byte
  /-- `DIR` (R33). -/
  dir : Dir
  /-- `VPP_enabled` (R34): the programming voltage is on. -/
  vpp : Bool
  /-- `CE_enabled` (R35): the chip is selected. -/
  ce : Bool
  /-- `OE_enabled` (R36): the chip is told to drive the data bus. -/
  oe : Bool
  /-- `PGM_strobe` (R37): true means that the physical line is low. -/
  pgm : Bool
deriving DecidableEq, Repr, Inhabited

/-! ### Constants of R9 (the widths stand in Word) -/

/-- `BLOCK_MAX`: the capacity of the Transfer Block in bytes. -/
def Config.blockMax : Nat := 512
/-- `MAX_ATTEMPTS`: program attempts per byte. -/
def Config.maxAttempts : Nat := 20
/-- `T_ADDR_SETTLE`, microseconds: after the address is set in Write-one-byte. -/
def Config.tAddrSettle : Nat := 10
/-- `T_DATA_SETTLE`, microseconds: after data is driven, before the strobe. -/
def Config.tDataSettle : Nat := 10
/-- `T_PGM`, microseconds: how long the program strobe is low. -/
def Config.tPgm : Nat := 95
/-- `T_VERIFY`, microseconds: from OE to the sample in a verify. -/
def Config.tVerify : Nat := 1
/-- `T_READ_ACCESS`, microseconds: from OE to the sample in Read-one-byte (kept apart from `T_VERIFY`, R157). -/
def Config.tReadAccess : Nat := 2
/-- `T_READ_RECOVER`, microseconds: after OE is deasserted in Read-one-byte. -/
def Config.tReadRecover : Nat := 2
/-- `ACK`: the acknowledgment byte. -/
def Config.ack : Byte := 0x01
/-- `ABORT`: the continuation byte that aborts a Bulk Write. -/
def Config.abort : Byte := 0xFF

/-! ### Decided parameters of R10 -/

/-- `T_OP`, microseconds: the time of a micro-operation that is no delay (decision D2). -/
def Config.tOp : Nat := 0
/-- `CRC_PER_BLOCK` (decision D15): `crc_in` and `crc_out` start at 0 in every block. -/
def Config.crcPerBlock : Bool := true
/-- `CMD_*` (R92, R93, decision D3): the command bytes. -/
def Config.cmdSetAddr : Byte := 0x73
@[inherit_doc Config.cmdSetAddr] def Config.cmdSetLen : Byte := 0x6C
@[inherit_doc Config.cmdSetAddr] def Config.cmdWrite : Byte := 0x64
@[inherit_doc Config.cmdSetAddr] def Config.cmdRead : Byte := 0x72
@[inherit_doc Config.cmdSetAddr] def Config.cmdRead1 : Byte := 0x2B
@[inherit_doc Config.cmdSetAddr] def Config.cmdReinit : Byte := 0x30
@[inherit_doc Config.cmdSetAddr] def Config.cmdDiag1 : Byte := 0x31
@[inherit_doc Config.cmdSetAddr] def Config.cmdDiag2 : Byte := 0x32
@[inherit_doc Config.cmdSetAddr] def Config.cmdXnop : Byte := 0x78

/-! ### OPEN parameters of R10: no value -/

/-- `DATA_NEUTRAL` (decision D11, entry U6; log entry 5). -/
opaque Config.dataNeutral : Byte
/-- `REINIT_DRIVES_ADDRESS` (decision D17; log entry 7). -/
opaque Config.reinitDrivesAddress : Bool
/-- `DIAG1_PATTERN` (decision D18, entry U4; log entry 6). -/
opaque Config.diag1Pattern : Bus
/-- `DIAG2_PATTERN` (decision D18, entry U4; log entry 6). -/
opaque Config.diag2Pattern : Bus
/-- `POL_CE` (decision D7; log entry 25): the physical level of an enabled chip-enable line. -/
opaque Config.polCe : Bool
/-- `POL_OE` (decision D7; log entry 25). -/
opaque Config.polOe : Bool
/-- `POL_VPP` (decision D7; log entry 25). -/
opaque Config.polVpp : Bool

/-! ### Free values -/

/-- The n-th free byte a run draws: the answer of a chip with no model named, a floating bus, a cell under an
interrupted pulse (R63, R66; entries U5, U7, U10, U13; log entry 8). -/
opaque Config.freeByte : Nat → Byte
/-- What an IdealChip's cell holds before a rule of the spec gives it a value (R65 "any initial cells"; log entry 10). -/
opaque Config.blankCell : Nat → Byte

/-! ### The model's own constant -/

/-- How many events and control moves one `step` may run before it ends between two of them (log entry 2): more than the
longest command takes. It bounds the step, not the machine: the next step goes on from there. -/
def Config.stepBudget : Nat := 33554432

end Sys2Proof
end

