-- ==== Sys2Proof/Syntax.lean ====
section
/-! DEFINITION. The ten command classes of the EBC (spec 30_encoding R92; spec/opcode_table.json). A command byte has no
fields (42_session_commands R171): operand and data bytes are taken from the link by the command's own rule. -/

namespace Sys2Proof

/-- One constructor per row of the opcode table. -/
inductive Instr where
  /-- `s`: set `base_address`, clear `progress` (R172). -/
  | setAddr
  /-- `l`: set `transfer_length` (R173). -/
  | setLen
  /-- `d`: Bulk Write Transfer (R208). -/
  | write
  /-- `r`: Bulk Read Transfer (R212). -/
  | read
  /-- `+`: read one byte (R174). -/
  | read1
  /-- `0`: reinitialise (R176). -/
  | reinit
  /-- `1`: diagnostic pattern 1 (R177). -/
  | diag1
  /-- `2`: diagnostic pattern 2 (R178). -/
  | diag2
  /-- `x`: placeholder (R179). -/
  | xnop
  /-- Any other byte, ignored silently (R180). -/
  | ignored (op : Byte)
deriving DecidableEq, Repr

end Sys2Proof
end

