-- ==== Sys2Proof/WellFormed.lean ====
section
/-! DEFINITION. Which commands are well formed: an ignored byte is none of the nine named ones (spec 42_session_commands R180). -/

namespace Sys2Proof

/-- The nine named command bytes (30_encoding R92). -/
def namedBytes : List Byte :=
  [Config.cmdSetAddr, Config.cmdSetLen, Config.cmdWrite, Config.cmdRead, Config.cmdRead1, Config.cmdReinit,
    Config.cmdDiag1, Config.cmdDiag2, Config.cmdXnop]

/-- `IGNORED` is any byte value other than the nine named ones (R180); every other command is well formed as it stands. -/
def Instr.wf : Instr → Bool
  | .setAddr => true
  | .setLen => true
  | .write => true
  | .read => true
  | .read1 => true
  | .reinit => true
  | .diag1 => true
  | .diag2 => true
  | .xnop => true
  | .ignored op => !namedBytes.contains op

end Sys2Proof
end

