-- ==== Sys2Proof/Decode.lean ====
section
/-! DEFINITION. Encodings of the EBC (spec 30_encoding): the command byte, the whole command as the host sends it, and the
address ports. Decoding reads the command byte alone (42_session_commands R171); no byte is illegal (30_encoding R99), so
the only thing it rejects, by name, is an empty stream. -/

namespace Sys2Proof

/-! ### The command byte (R92, R93, R170, R171) -/

/-- The `case op of` of the dispatcher (R170): the whole byte is compared; the fallback comes last (R180). -/
def decodeByte (op : Byte) : Instr :=
  if op = Config.cmdSetAddr then .setAddr
  else if op = Config.cmdSetLen then .setLen
  else if op = Config.cmdWrite then .write
  else if op = Config.cmdRead then .read
  else if op = Config.cmdRead1 then .read1
  else if op = Config.cmdReinit then .reinit
  else if op = Config.cmdDiag1 then .diag1
  else if op = Config.cmdDiag2 then .diag2
  else if op = Config.cmdXnop then .xnop
  else .ignored op

/-- What the decoder reads from the bytes the host has sent. -/
inductive Decoded where
  /-- A command, its command byte, and the bytes after that byte. -/
  | command (i : Instr) (op : Byte) (rest : List Byte)
  /-- Rejected: no command byte has arrived yet (the dispatcher blocks, R71). -/
  | noCommandByte
deriving DecidableEq, Repr

/-- Takes the oldest byte of the stream as a command byte (R90). -/
def decode : List Byte → Decoded
  | [] => .noCommandByte
  | op :: rest => .command (decodeByte op) op rest

/-- The command byte of a command (R92). -/
def Instr.opByte : Instr → Byte
  | .setAddr => Config.cmdSetAddr
  | .setLen => Config.cmdSetLen
  | .write => Config.cmdWrite
  | .read => Config.cmdRead
  | .read1 => Config.cmdRead1
  | .reinit => Config.cmdReinit
  | .diag1 => Config.cmdDiag1
  | .diag2 => Config.cmdDiag2
  | .xnop => Config.cmdXnop
  | .ignored op => op

/-- The words of a command that are fixed by the command alone: its one command byte. What the host sends after it is in `Frame`. -/
def encode (i : Instr) : List Byte := [i.opByte]

/-- A number of `nbits` bits as link bytes, the first byte the least significant, filled up with zero bytes to the three
bytes of the longest command of fixed length (`C16`, R91). -/
def tableBytes (nbits w : Nat) : List Byte :=
  (List.range (max 3 ((nbits + 7) / 8))).map fun k => BitVec.ofNat 8 (w % 2 ^ nbits / 2 ^ (8 * k))

/-- The command the decoder reads from an opcode-table row's bits. -/
def decodeTableWord (nbits w : Nat) : Option Instr :=
  match decode (tableBytes nbits w) with
  | .command i _ _ => some i
  | .noCommandByte => none

/-! ### 16-bit operands (R67, R95) -/

/-- `{hi, lo}` (R95): `zext_16(lo) + 256 * zext_16(hi)`. -/
def assembleWord (lo hi : Byte) : Word := hi ++ lo

/-- The low and the high link byte of a 16-bit integer, in the order they are sent: low byte first (R67). -/
def wordBytes (w : Word) : List Byte := 
  [w.extractLsb' 0 (delta% Config.dataBits), w.extractLsb' (delta% Config.dataBits) (delta% Config.dataBits)]

/-! ### Whole commands (R90, R91, R94, R102) -/

/-- What the host sends for one block of a Bulk Write: the data bytes, the first continuation byte, and the second one
unless the first aborted (R91 format `CW`). -/
structure WriteBlock where
  data : List Byte
  cont1 : Byte
  cont2 : Option Byte
deriving DecidableEq, Repr

/-- A command with all the bytes the host sends for it (R91, R102). -/
inductive Frame where
  | setAddr (imm : Word)
  | setLen (imm : Len)
  | write (blocks : List WriteBlock)
  | read
  | read1
  | reinit
  | diag1
  | diag2
  | xnop
  | ignored (op : Byte)
deriving DecidableEq, Repr

/-- The command class of a frame. -/
def Frame.instr : Frame → Instr
  | .setAddr _ => .setAddr
  | .setLen _ => .setLen
  | .write _ => .write
  | .read => .read
  | .read1 => .read1
  | .reinit => .reinit
  | .diag1 => .diag1
  | .diag2 => .diag2
  | .xnop => .xnop
  | .ignored op => .ignored op

/-- The host bytes of one block (R91). -/
def WriteBlock.bytes (b : WriteBlock) : List Byte := b.data ++ b.cont1 :: b.cont2.toList

/-- The host bytes after the command byte (R91, R94). -/
def Frame.operandBytes : Frame → List Byte
  | .setAddr imm => wordBytes imm
  | .setLen imm => wordBytes imm
  | .write blocks => blocks.flatMap WriteBlock.bytes
  | .read => []
  | .read1 => []
  | .reinit => []
  | .diag1 => []
  | .diag2 => []
  | .xnop => []
  | .ignored _ => []

/-- All the host bytes of a command (R90, R102). -/
def Frame.encode (f : Frame) : List Byte := f.instr.opByte :: f.operandBytes

/-- The blocks fit a transfer with `n` bytes still to go (R91, R94, R201): each holds `min(512, n)` data bytes; a second
continuation byte is there exactly when the first is not the abort byte; an abort ends the command; otherwise the
blocks go on until no byte is left. -/
def blocksFit : Nat → List WriteBlock → Bool
  | n, [] => n == 0
  | n, b :: bs =>
    n != 0 && b.data.length == min Config.blockMax n &&
      match b.cont2 with
      | none => b.cont1 == Config.abort && bs.isEmpty
      | some c => b.cont1 != Config.abort &&
          (if c = Config.abort then bs.isEmpty else blocksFit (n - min Config.blockMax n) bs)

/-- A frame that the host may send when `transfer_length` is `len`. -/
def Frame.fits (len : Len) : Frame → Bool
  | .setAddr _ => true
  | .setLen _ => true
  | .write blocks => blocksFit len.toNat blocks
  | .read => true
  | .read1 => true
  | .reinit => true
  | .diag1 => true
  | .diag2 => true
  | .xnop => true
  | .ignored op => (Instr.ignored op).wf

/-- Splits the blocks of a Bulk Write with `n` bytes to go off the stream (R94); `none` while bytes are missing. The first
argument bounds the number of blocks. -/
def takeBlocks : Nat → Nat → List Byte → Option (List WriteBlock × List Byte)
  | _, 0, bs => some ([], bs)
  | 0, _ + 1, _ => none
  | fuel + 1, n + 1, bs =>
    let k := min Config.blockMax (n + 1)
    if bs.length < k then none
    else
      match bs.drop k with
      | [] => none
      | c1 :: rest =>
        if c1 = Config.abort then some ([⟨bs.take k, c1, none⟩], rest)
        else
          match rest with
          | [] => none
          | c2 :: rest' =>
            if c2 = Config.abort then some ([⟨bs.take k, c1, some c2⟩], rest')
            else
              match takeBlocks fuel (n + 1 - k) rest' with
              | none => none
              | some (more, left) => some (⟨bs.take k, c1, some c2⟩ :: more, left)

/-- Splits one whole command off the front of a host stream, given the `transfer_length` in force (R94); `none` while the
command is not complete. -/
def takeFrame (len : Len) : List Byte → Option (Frame × List Byte)
  | [] => none
  | op :: rest =>
    match decodeByte op with
    | .setAddr =>
      match rest with
      | lo :: hi :: left => some (.setAddr (assembleWord lo hi), left)
      | _ => none
    | .setLen =>
      match rest with
      | lo :: hi :: left => some (.setLen (assembleWord lo hi), left)
      | _ => none
    | .write =>
      match takeBlocks len.toNat len.toNat rest with
      | some (blocks, left) => some (.write blocks, left)
      | none => none
    | .read => some (.read, rest)
    | .read1 => some (.read1, rest)
    | .reinit => some (.reinit, rest)
    | .diag1 => some (.diag1, rest)
    | .diag2 => some (.diag2, rest)
    | .xnop => some (.xnop, rest)
    | .ignored b => some (.ignored b, rest)

/-! ### The address ports (R100, R101) -/

/-- `ADDR_LO = addr[7:0]` (R100). -/
def addrLoField (addr : Word) : LoField := addr.extractLsb' 0 (delta% Config.addrLoBits)

/-- `ADDR_HI6 = addr[13:8]` (R100); bits 15 and 14 are dropped. -/
def addrHiField (addr : Word) : HiField :=
  addr.extractLsb' (delta% Config.addrLoBits) ((delta% Config.addrBits) - (delta% Config.addrLoBits))

/-- `hi_port[7:0] = (hi_field << 2)[7:0]` with `hi_field = addr[15:8]` (R100). Bits 1 and 0 of the port are not the
address's (entry U3): they show as 0 in this value and belong to no state of the model. -/
def hiPort (addr : Word) : HiPort :=
  addr.extractLsb' (delta% Config.addrLoBits) (delta% Config.addrHiPortBits) <<< Config.addrHiShift

/-- The address read back from the two ports (R101): `((hi_port >> 2) << 8) + lo`. -/
def portsAddress (lo : LoField) (hi : HiPort) : Word :=
  (((hi >>> Config.addrHiShift).setWidth (delta% Config.addrWidth)) <<< Config.addrLoBits) +
    lo.setWidth (delta% Config.addrWidth)

/-- The chip address of a logical address: `a[13:0]` (R61). -/
def chipAddrOf (addr : Word) : ChipAddr := addr.extractLsb' 0 (delta% Config.addrBits)

end Sys2Proof
end

