-- ==== Sys2Proof/Machine/State.lean ====
section
/-! DEFINITION. The state of the EBC and of what its behaviour depends on outside it (spec 10_state R20 to R44), as plain
data, and the state after reset (70_reset_and_hazards R261). -/

namespace Sys2Proof.Machine

/-- An event of the trace (00_scope R13). `pattern` is the model's own (log entry 13): a diagnostic command puts a fixed
pattern on all eight fields at once, for which R13 has no event. -/
inductive Event where
  | addr (lo : LoField) (hi6 : HiField)
  | vpp (on : Bool)
  | dir (d : Dir)
  | dout (b : Byte)
  | ce (on : Bool)
  | oe (on : Bool)
  | pgm (on : Bool)
  | sample (b : Byte)
  | wait (us : Nat)
  | rx (b : Byte)
  | tx (b : Byte)
  | pattern (p : Bus)
deriving DecidableEq, Repr

/-- The positions of R40 inside a command at which the EBC awaits a link byte. -/
inductive RecvPos where
  | sLo
  | sHi
  | lLo
  | lHi
  | wData
  | wCont1
  | wCont2
deriving DecidableEq, Repr

/-- What a `LinkSend` of the rules sends (30_encoding R98). -/
inductive SendVal where
  | ack
  | crcIn
  | crcOut
  | value
  | crc
deriving DecidableEq, Repr

/-- The register a `sample_data()` is assigned to (41_byte_ops R152, R155). -/
inductive SampleReg where
  | verified
  | value
deriving DecidableEq, Repr

/-- One line of the rules' pseudocode. The sequencer position `SEQ` (10_state R40) is held as the list of lines still to
run (log entry 1); a call or a loop line is replaced by the lines it stands for when it is reached. -/
inductive Act where
  /-- `set_address(a)` (40_bus_driver R121). -/
  | setAddress (a : Word)
  /-- `enter_write_mode()` (R122). -/
  | enterWriteMode
  /-- `enter_read_mode()` (R123). -/
  | enterReadMode
  /-- `drive_data(b)` (R124). -/
  | driveData (b : Byte)
  /-- `reg <- sample_data()` (R125). -/
  | sampleData (r : SampleReg)
  /-- `bus_to_input()` (R126). -/
  | busToInput
  /-- `bus_to_output()` (R127). -/
  | busToOutput
  /-- `chip_enable()` (R128). -/
  | chipEnable
  /-- `chip_disable()` (R129). -/
  | chipDisable
  /-- `oe_assert()` (R130). -/
  | oeAssert
  /-- `oe_deassert()` (R131). -/
  | oeDeassert
  /-- `pgm_assert()` (R132). -/
  | pgmAssert
  /-- `pgm_deassert()` (R133). -/
  | pgmDeassert
  /-- `Wait(n)` (R134). -/
  | wait (us : Nat)
  /-- `SEQ <- p`, `LinkRecv()` and what the rule does with the byte (20_memory R71). -/
  | recv (p : RecvPos)
  /-- `LinkSend(v)` (20_memory R72). -/
  | send (v : SendVal)
  /-- `base_address <- 0` (R176). -/
  | clearBase
  /-- `progress <- 0` (R176, R200, R211). -/
  | clearProgress
  /-- `progress <- progress +16 1` (R174, R212). -/
  | bumpProgress
  /-- `crc <- 0` (R211). -/
  | clearCrc
  /-- `crc <- crc ^ value` (R212). -/
  | foldCrc
  /-- `if REINIT_DRIVES_ADDRESS then set_address(0)` (R176). -/
  | reinitAddress
  /-- All eight bus and control fields take the pattern (R177, R178). -/
  | applyPattern (p : Bus)
  /-- `attempt <- 0` (R151). -/
  | clearAttempt
  /-- One attempt of Write-one-byte (R152). -/
  | attempt (data : Byte)
  /-- `attempt <- attempt + 1`, then `until verified_value = data or attempt = MAX_ATTEMPTS` (R152, R153). -/
  | untilVerified (data : Byte)
  /-- The call `ReadOneByte()` (R155). -/
  | callReadOneByte
  /-- The call `WriteOneByte(base_address +16 progress +16 i, block[i])` (R204). -/
  | callWriteOneByte
  /-- `while progress < transfer_length` of Bulk Write with step 1 (R201, R208). -/
  | whileWrite
  /-- `crc_in <- 0` and the start of `for i` (R202). -/
  | beginReceive
  /-- The test of `for i <- 0 to block_size - 1` of the receive phase (R202). -/
  | forReceive
  /-- `crc_out <- 0` and the start of `for i` (R204). -/
  | beginWrite
  /-- The test of `for i <- 0 to block_size - 1` of the write phase (R204). -/
  | forWrite
  /-- `crc_out <- crc_out ^ v` and the next `i` (R204). -/
  | foldVerified
  /-- Step 8, `progress <- progress + block_size` (R206). -/
  | advanceBlock
  /-- `while progress < transfer_length` of Bulk Read (R212). -/
  | whileRead
deriving DecidableEq, Repr

/-- Memory as (address, byte) pairs in one canonical form: addresses strictly rising; an address that is not listed has
no value (log entry 10). -/
abbrev Memory := List Host.Cell

/-- Which chip model answers (20_memory R65). -/
inductive ChipModel where
  /-- No chip model is named: every answer is any byte (entries U7, U10). -/
  | unnamed
  /-- `IdealChip`. -/
  | ideal
  /-- `NeverVerifyChip`. -/
  | neverVerify
  /-- `FixedReadChip(seq)`. -/
  | fixedRead (seq : List Byte)
deriving DecidableEq, Repr

/-- The target chip, an agent outside the EBC (20_memory R62 to R66). -/
structure Chip where
  model : ChipModel
  /-- The cells of an `IdealChip` that a program pulse (or the environment) has given a value. -/
  cells : Memory
  /-- The cells of an `IdealChip` left open by a reset in the middle of a Write-one-byte, without repeats: every sample of
  one is any byte until a pulse settles it (entry U13; log entry 16). -/
  unsettled : List Nat
  /-- The data of the last program pulse. -/
  lastPulse : Option Byte
  /-- Samples answered since the chip was last selected. -/
  answered : Nat
deriving DecidableEq, Repr

/-- The machine. -/
structure State where
  /-- R20. -/
  baseAddress : Word
  /-- R21. -/
  transferLength : Len
  /-- R22. -/
  progress : Len
  /-- R24. -/
  blockSize : Len
  /-- R25. -/
  crcIn : Byte
  /-- R25. -/
  crcOut : Byte
  /-- R25. -/
  crc : Byte
  /-- R26. -/
  i : Len
  /-- R26. -/
  attempt : Nat
  /-- R27. -/
  verifiedValue : Byte
  /-- R27. -/
  value : Byte
  /-- R27. -/
  cont : Byte
  /-- R27. -/
  opLo : Byte
  /-- The Transfer Block (R28). -/
  block : Vector Byte Config.blockMax
  /-- The bus and control fields (R30 to R37). -/
  bus : Bus
  /-- The sequencer position (R40; log entry 1): the lines of the current command still to run; `IDLE` is the empty list. -/
  todo : List Act
  /-- Bytes sent by the host and not yet taken, the oldest first (R42, R74). -/
  rx : List Byte
  /-- Bytes given to the link, the oldest first (R42, R72). -/
  tx : List Byte
  /-- How many more bytes the link will take before it is not transmit-ready; `none`: it stays ready (R72; log entry 17). -/
  txRoom : Option Nat
  /-- The target chip (R43). -/
  chip : Chip
  /-- The event trace, the oldest event first (00_scope R13). -/
  trace : List Event
  /-- The reset input (70_reset_and_hazards R260; log entry 16). -/
  resetIn : Bool
  /-- The model's own (log entry 8): open answers that the environment has already chosen, the next one first. -/
  answers : List Byte
  /-- The model's own (log entry 8): how many free bytes have been drawn. -/
  draws : Nat
deriving DecidableEq, Repr

/-- Why the machine stops. Both reasons are contract violations that no rule of the spec makes (40_bus_driver R120); a
claim in Safety says that no reachable state stops. -/
inductive Fault where
  /-- Raised by `drive_data` while `DIR = input` (R124, entry U1). Safe: the model stops where the source checks nothing. -/
  | driveWhileInput
  /-- Raised by `sample_data` while `DIR = output` (R125, entry U2). Safe: the model stops where the source checks nothing. -/
  | sampleWhileOutput
deriving DecidableEq, Repr

/-- Why a command has no meaning. No command of the EBC is refused. -/
inductive Refusal where
  /-- Raised by an arm of `exec` whose command is not modelled. Safe: nothing can be proved of that command. -/
  | notModelled (mnemonic : String)
deriving DecidableEq, Repr

/-- The three outcomes, for this machine. -/
abbrev Result := Host.Outcome State Fault Refusal

/-- The chip at reset: no chip model is named and no cell is known (log entry 9). -/
def Chip.initial : Chip := { model := .unnamed, cells := [], unsettled := [], lastPulse := none, answered := 0 }

/-- The bus and control lines at reset (R261): read mode, chip deselected, every line idle, address 0. -/
def busAtReset : Bus :=
  { addrLo := 0, addrHi6 := 0, dout := Config.dataNeutral, dir := .input, vpp := false, ce := false, oe := false,
    pgm := false }

/-- The machine right after reset (70_reset_and_hazards R261, R262). The working registers and the Transfer Block are
unspecified there: zero is the model's choice (log entry 3). -/
def State.reset : State :=
  { baseAddress := 0, transferLength := 0, progress := 0, blockSize := 0, crcIn := 0, crcOut := 0, crc := 0, i := 0,
    attempt := 0, verifiedValue := 0, value := 0, cont := 0, opLo := 0, block := Vector.replicate Config.blockMax 0,
    bus := busAtReset, todo := [], rx := [], tx := [], txRoom := none, chip := .initial, trace := [], resetIn := false,
    answers := [], draws := 0 }

end Sys2Proof.Machine
end

