-- ==== Sys2Proof/Machine/Memory.lean ====
section
/-! DEFINITION. Memory as a sorted list of cells: the one read, the one write, and the canonical form (the chip space of
spec 20_memory R60, R61: byte cells at 14-bit addresses). -/

namespace Sys2Proof.Machine

/-- The value of the cell at `a`; an unlisted address has none (log entry 10). -/
def Memory.read (m : Memory) (a : Nat) : Option Byte :=
  match m with
  | [] => none
  | (k, v) :: rest => if k = a then some v else Memory.read rest a

/-- Gives the cell at `a` the value `v`, keeping the addresses rising. -/
def Memory.write (m : Memory) (a : Nat) (v : Byte) : Memory :=
  match m with
  | [] => [(a, v)]
  | (k, w) :: rest =>
    if a < k then (a, v) :: (k, w) :: rest
    else if a = k then (a, v) :: rest
    else (k, w) :: Memory.write rest a v

/-- The number of bytes of the chip space (R60). -/
def chipSpace : Nat := 2 ^ Config.addrBits

/-- The canonical form: addresses strictly rising, and every address in the chip space. -/
abbrev Memory.wf (m : Memory) : Prop := m.Pairwise (fun x y => x.1 < y.1) ∧ ∀ x ∈ m, x.1 < chipSpace

end Sys2Proof.Machine
end

