-- ==== Sys2Proof/Machine/Chip.lean ====
section
/-! DEFINITION. The target chip as an environment agent (spec 20_memory R62 to R66): what it answers to a sample, what a
program pulse does to it. The EBC depends on it only through sampled bytes. -/

namespace Sys2Proof.Machine

/-- The chip address on the lines: `{ADDR_HI6, ADDR_LO}` (R62). -/
def Bus.chipAddr (b : Bus) : ChipAddr := b.addrHi6 ++ b.addrLo

/-- An answer the rules leave open: the next one the environment has chosen, else a fresh free byte (log entry 8). -/
def State.draw (s : State) : Byte × State :=
  match s.answers with
  | b :: rest => (b, { s with answers := rest })
  | [] => (Config.freeByte s.draws, { s with draws := s.draws + 1 })

/-- A byte that differs from `d`, whatever `b` is; every such byte comes from some `b` (log entry 15). -/
def differFrom (d b : Byte) : Byte := if b = d then b + 1 else b

/-- The cell of an `IdealChip` at chip address `a`; before anything is known of it, a free value of that address (R65;
log entry 10). -/
def Chip.cell (c : Chip) (a : Nat) : Byte := (c.cells.read a).getD (Config.blankCell a)

/-- `MemRead(A, 1)`: the answer of the selected chip with its outputs on (R63, R65). An `IdealChip` answers the cell, or any
byte where a reset has left the cell open (70_reset_and_hazards R260, entry U13). A chip sees a verify as a sample with
VPP on; the k-th sample of a read burst counts from the chip's selection (log entries 14, 15). -/
def State.chipAnswer (s : State) : Byte × State :=
  let s' := { s with chip := { s.chip with answered := s.chip.answered + 1 } }
  match s.chip.model with
  | .unnamed => s'.draw
  | .ideal =>
    if s.chip.unsettled.contains (Bus.chipAddr s.bus).toNat then s'.draw
    else (s.chip.cell (Bus.chipAddr s.bus).toNat, s')
  | .neverVerify =>
    match s.bus.vpp, s.chip.lastPulse with
    | true, some d => (differFrom d s'.draw.1, s'.draw.2)
    | _, _ => s'.draw
  | .fixedRead seq =>
    match s.bus.vpp, seq[s.chip.answered]? with
    | false, some b => (b, s')
    | _, _ => s'.draw

/-- The byte on the data bus at a sample: the chip's answer while it drives the bus, else a floating bus, which is any
byte, a fresh draw each time (R63, R66). -/
def State.busValue (s : State) : Byte × State :=
  if s.bus.ce && s.bus.oe then s.chipAnswer else s.draw

/-- The conditions that hold throughout a program pulse (R64). -/
def Bus.pulseArmed (b : Bus) : Bool := b.ce && b.vpp && b.dir == .output && !b.oe

/-- One program pulse at chip address `a` with data `v` (R64, R65): an `IdealChip`'s cell takes the data and is
settled; what another chip's cell holds is open (entry U7). -/
def Chip.pulse (c : Chip) (a : Nat) (v : Byte) : Chip :=
  match c.model with
  | .ideal => { c with cells := c.cells.write a v, unsettled := c.unsettled.filter (· != a), lastPulse := some v }
  | .unnamed => { c with lastPulse := some v }
  | .neverVerify => { c with lastPulse := some v }
  | .fixedRead _ => { c with lastPulse := some v }

/-- The chip is selected: a new burst of samples begins (log entry 14). -/
def Chip.select (c : Chip) : Chip := { c with answered := 0 }

/-- What the chip is taken to be after a diagnostic pattern: with the program strobe asserted outside a program pulse no
chip model of R65 says what it does, so none is named any more (log entry 12). -/
def Chip.afterPattern (c : Chip) (p : Bus) : Chip :=
  { c with model := if p.pgm then .unnamed else c.model }

/-- The cell of an `IdealChip` at chip address `a` is left open: every later sample of it is any byte, until a pulse gives
it a value (entry U13; log entry 16). What another chip answers is open, or not a cell's. -/
def Chip.spoil (c : Chip) (a : Nat) : Chip :=
  match c.model with
  | .ideal => { c with unsettled := if c.unsettled.contains a then c.unsettled else a :: c.unsettled }
  | .unnamed => c
  | .neverVerify => c
  | .fixedRead _ => c

end Sys2Proof.Machine
end

