-- ==== Sys2Proof/Machine/Flags.lean ====
section
/-! DEFINITION. The EBC has no flag (spec 42_session_commands R183): this file holds the tests its rules branch on, and
the exclusive-or checksums, which record the outcome of a transfer instead. -/

namespace Sys2Proof.Machine

/-- The loop condition `progress < transfer_length`, unsigned (R183 (f)). -/
def bytesRemain (s : State) : Bool := decide (s.progress.toNat < s.transferLength.toNat)

/-- The loop condition of `for i <- 0 to block_size - 1` (43_transfer_engine R202, R204). -/
def blockRemains (s : State) : Bool := decide (s.i.toNat < s.blockSize.toNat)

/-- `cont = 0xFF`, all eight bits (30_encoding R96). -/
def abortRequested (cont : Byte) : Bool := cont == Config.abort

/-- `verified_value = data or attempt = MAX_ATTEMPTS` (41_byte_ops R153). -/
def attemptsOver (data : Byte) (s : State) : Bool :=
  s.verifiedValue == data || s.attempt == Config.maxAttempts

/-- What a block's checksum starts from: 0 with `CRC_PER_BLOCK` (decision D15), else what the last block left, the first
block of a transfer starting at 0. -/
def crcSeed (old : Byte) (s : State) : Byte :=
  if Config.crcPerBlock || s.progress == 0 then 0 else old

/-- The exclusive-or of a list of bytes, from 0 (R183 (h)). -/
def xorAll (bs : List Byte) : Byte := bs.foldl (· ^^^ ·) 0

end Sys2Proof.Machine
end

