-- ==== Sys2Proof/Machine/Operands.lean ====
section
/-! DEFINITION. The operands of the rules: effective addresses, the block size, the cells of the Transfer Block
(spec 42_session_commands R183; the 16-bit operand of `s` and `l` is `assembleWord` of Decode). -/

namespace Sys2Proof.Machine

/-- The address of a Read-one-byte: `base_address +16 progress` (10_state R41, 41_byte_ops R155). -/
def readAddress (s : State) : Word := s.baseAddress + s.progress

/-- The address of byte `i` of a block: `base_address +16 progress +16 i` (10_state R41, 43_transfer_engine R204). -/
def writeAddress (s : State) : Word := s.baseAddress + s.progress + s.i

/-- `min(BLOCK_MAX, transfer_length - progress)` (43_transfer_engine R201). -/
def nextBlockSize (s : State) : Len :=
  BitVec.ofNat (delta% Config.lenWidth) (min Config.blockMax (s.transferLength - s.progress).toNat)

/-- The cell of the Transfer Block that `i` selects: its low nine bits (log entry 20; `i` is 0 to 511 when live, R26). -/
def blockCell (i : Len) : Fin Config.blockMax := ⟨i.toNat % Config.blockMax, Nat.mod_lt _ (by decide)⟩

/-- `block[i]` (R28). -/
def stagedByte (s : State) : Byte := s.block.get (blockCell s.i)

/-- `block[i] <- b` (R202). -/
def stageByte (b : Byte) (s : State) : State :=
  { s with block := s.block.set (blockCell s.i).val b (blockCell s.i).isLt }

end Sys2Proof.Machine
end

