-- ==== Sys2Proof/Machine/Ops.lean ====
section
/-! DEFINITION. The named operations: the trace, the link (spec 20_memory R70 to R74), the Bus Driver micro-operations
(40_bus_driver R121 to R134, the only writers of the bus fields beside the diagnostic patterns and reset), reset
(70_reset_and_hazards R260) and the break out of a Bulk Write (60_exceptions R235, the nearest thing to a trap). -/

namespace Sys2Proof.Machine

/-! ### The link -/

/-- `LinkRecv()` (R71): takes the oldest byte of `rx`; `none`: blocked, no byte is there. -/
def linkRecv (s : State) : Option (Byte × State) :=
  match s.rx with
  | [] => none
  | b :: rest => some (b, { s with rx := rest, trace := s.trace ++ [.rx b] })

/-- `LinkSend(b)` (R72): appends `b` to `tx`; `none`: blocked, the link is not transmit-ready. -/
def linkSend (b : Byte) (s : State) : Option State :=
  match s.txRoom with
  | some 0 => none
  | some (n + 1) => some { s with tx := s.tx ++ [b], txRoom := some n, trace := s.trace ++ [.tx b] }
  | none => some { s with tx := s.tx ++ [b], trace := s.trace ++ [.tx b] }

/-- `LinkAvail()` (R73): `rx` is not empty; no rule uses it. -/
def linkAvail (s : State) : Bool := !s.rx.isEmpty

/-! ### The Bus Driver -/

/-- `set_address(addr)` (R121, 30_encoding R100). -/
def setAddress (a : Word) (s : State) : State :=
  { s with
    bus := { s.bus with addrLo := addrLoField a, addrHi6 := addrHiField a }
    trace := s.trace ++ [.addr (addrLoField a) (addrHiField a)] }

/-- `enter_write_mode()` (R122). -/
def enterWriteMode (s : State) : State :=
  { s with bus := { s.bus with vpp := true, dir := .output }, trace := s.trace ++ [.vpp true, .dir .output] }

/-- `enter_read_mode()` (R123). -/
def enterReadMode (s : State) : State :=
  { s with
    bus := { s.bus with vpp := false, dout := Config.dataNeutral, dir := .input }
    trace := s.trace ++ [.vpp false, .dout Config.dataNeutral, .dir .input] }

/-- `drive_data(b)` (R124), once the direction has been found to be `output`. -/
def driveData (b : Byte) (s : State) : State :=
  { s with bus := { s.bus with dout := b }, trace := s.trace ++ [.dout b] }

/-- `bus_to_input()` (R126). -/
def busToInput (s : State) : State :=
  { s with bus := { s.bus with dir := .input }, trace := s.trace ++ [.dir .input] }

/-- `bus_to_output()` (R127). -/
def busToOutput (s : State) : State :=
  { s with bus := { s.bus with dir := .output }, trace := s.trace ++ [.dir .output] }

/-- `chip_enable()` (R128). -/
def chipEnable (s : State) : State :=
  { s with bus := { s.bus with ce := true }, chip := s.chip.select, trace := s.trace ++ [.ce true] }

/-- `chip_disable()` (R129). -/
def chipDisable (s : State) : State :=
  { s with bus := { s.bus with ce := false }, trace := s.trace ++ [.ce false] }

/-- `oe_assert()` (R130). -/
def oeAssert (s : State) : State :=
  { s with bus := { s.bus with oe := true }, trace := s.trace ++ [.oe true] }

/-- `oe_deassert()` (R131). -/
def oeDeassert (s : State) : State :=
  { s with bus := { s.bus with oe := false }, trace := s.trace ++ [.oe false] }

/-- `pgm_assert()` (R132). -/
def pgmAssert (s : State) : State :=
  { s with bus := { s.bus with pgm := true }, trace := s.trace ++ [.pgm true] }

/-- `pgm_deassert()` (R133). The strobe's end completes the program pulse the chip sees (20_memory R64; log entry 11).
DESIGN CHOICE (log entry 29): the pulse is that of the chip in the socket now, also if it was put there after `pgm_assert`. -/
def pgmDeassert (s : State) : State :=
  { s with
    bus := { s.bus with pgm := false }
    chip := if s.bus.pgm && Bus.pulseArmed s.bus then s.chip.pulse (Bus.chipAddr s.bus).toNat s.bus.dout else s.chip
    trace := s.trace ++ [.pgm false] }

/-- `Wait(n)` (R134): only an event. -/
def wait (us : Nat) (s : State) : State := { s with trace := s.trace ++ [.wait us] }

/-- `reg <- sample_data()` (R125), once the direction has been found to be `input`. -/
def sampleInto (r : SampleReg) (s : State) : State :=
  let b := s.busValue.1
  let s' := s.busValue.2
  match r with
  | .verified => { s' with verifiedValue := b, trace := s'.trace ++ [.sample b] }
  | .value => { s' with value := b, trace := s'.trace ++ [.sample b] }

/-- A diagnostic pattern on all eight bus and control fields (42_session_commands R177, R178). -/
def applyPattern (p : Bus) (s : State) : State :=
  { s with bus := p, chip := s.chip.afterPattern p, trace := s.trace ++ [.pattern p] }

/-- `if REINIT_DRIVES_ADDRESS then set_address(0)` (42_session_commands R176): only the bus and the trace depend on the open
parameter. -/
def reinitAddress (s : State) : State :=
  { s with
    bus := if Config.reinitDrivesAddress then (setAddress 0 s).bus else s.bus
    trace := if Config.reinitDrivesAddress then (setAddress 0 s).trace else s.trace }

/-! ### Time -/

/-- The time an event takes: a `Wait` its argument, anything else `T_OP` (R120, R134; decision D2). -/
def Event.duration : Event → Nat
  | .wait us => us
  | .addr _ _ => Config.tOp
  | .vpp _ => Config.tOp
  | .dir _ => Config.tOp
  | .dout _ => Config.tOp
  | .ce _ => Config.tOp
  | .oe _ => Config.tOp
  | .pgm _ => Config.tOp
  | .sample _ => Config.tOp
  | .rx _ => 0
  | .tx _ => 0
  | .pattern _ => Config.tOp

/-- The delay sum of a stretch of trace, in microseconds, a lower bound on real time (70_reset_and_hazards R280). -/
def delaySum (es : List Event) : Nat := (es.map Event.duration).sum

/-- The microseconds of delay a run has spent so far. -/
def State.elapsed (s : State) : Nat := delaySum s.trace

/-! ### Break and reset -/

/-- The common exit of Bulk Write (43_transfer_engine R207). -/
def writeExit : List Act := [.chipDisable, .enterReadMode]

/-- The `break` of a Bulk Write on a continuation byte 0xFF (R203, R205; 60_exceptions R235): it saves nothing and writes no
register; control goes to the common exit. -/
def breakWrite (s : State) : State := { s with todo := writeExit }

/-- A Write-one-byte has set its address and has not returned (41_byte_ops R151 to R153). -/
def byteWriteUnderWay (todo : List Act) : Bool :=
  todo.any (fun | .attempt _ => true | .untilVerified _ => true | _ => false) &&
    !todo.any (fun | .setAddress _ => true | _ => false)

/-- Reset is asserted (R260, R261): every field of the EBC takes its reset value at once, wherever the sequencer stands. A
cell that a Write-one-byte was programming is left open; `rx`, `tx`, the link, the chip and the trace so far are
outside the EBC and stay (decision D31; log entry 16). -/
def State.assertReset (s : State) : State :=
  { State.reset with
    rx := s.rx, tx := s.tx, txRoom := s.txRoom, trace := s.trace, resetIn := s.resetIn, answers := s.answers
    draws := s.draws
    chip := if byteWriteUnderWay s.todo then s.chip.spoil (Bus.chipAddr s.bus).toNat else s.chip }

end Sys2Proof.Machine
end

