-- ==== Sys2Proof/Machine/Sequencer.lean ====
section
/-! DEFINITION. The sequencer (spec 10_state R40): the pseudocode of the byte operations (41_byte_ops) and of the loop
bodies (43_transfer_engine) as lists of lines, what one line does, and running lines until the EBC blocks or is back in
`IDLE`. -/

namespace Sys2Proof.Machine

/-! ### Pseudocode that a line stands for -/

/-- One attempt (R152): steps 3a, 3b, 3c, then the count and the test of R153. -/
def attemptCode (data : Byte) : List Act :=
  [.driveData data, .wait Config.tDataSettle,
   .pgmAssert, .wait Config.tPgm, .pgmDeassert,
   .busToInput, .oeAssert, .wait Config.tVerify, .sampleData .verified, .oeDeassert, .busToOutput,
   .untilVerified data]

/-- `WriteOneByte(address, data)` (R150 to R153). -/
def writeOneByteCode (address : Word) (data : Byte) : List Act :=
  [.setAddress address, .wait Config.tAddrSettle, .clearAttempt, .attempt data]

/-- `ReadOneByte()` with its address worked out (R155). -/
def readOneByteCode (address : Word) : List Act :=
  [.setAddress address, .oeAssert, .wait Config.tReadAccess, .sampleData .value, .oeDeassert, .wait Config.tReadRecover]

/-- The body of Bulk Write's `while` after step 1, and the test again (R202 to R206). -/
def writeBody : List Act :=
  [.beginReceive, .forReceive,
   .send .ack, .send .crcIn, .recv .wCont1,
   .beginWrite, .forWrite,
   .send .ack, .send .crcOut, .recv .wCont2,
   .advanceBlock, .whileWrite]

/-- The body of Bulk Read's `while`, and the test again (R212). -/
def readBody : List Act := [.callReadOneByte, .foldCrc, .send .value, .bumpProgress, .whileRead]

/-! ### One line -/

/-- What became of a line. -/
inductive Advance where
  /-- It ran. -/
  | moved (s : State)
  /-- The EBC is blocked in it, its state unchanged (20_memory R71, R72). -/
  | blocked
  /-- A contract violation. -/
  | fault (f : Fault)
deriving Repr

/-- What a rule does with the byte received at a position (R172, R173, R202, R203, R205). -/
def receive (p : RecvPos) (b : Byte) (s : State) : State :=
  match p with
  | .sLo => { s with opLo := b }
  | .sHi => { s with baseAddress := assembleWord s.opLo b, progress := 0 }
  | .lLo => { s with opLo := b }
  | .lHi => { s with transferLength := assembleWord s.opLo b }
  | .wData => { stageByte b s with crcIn := s.crcIn ^^^ b, i := s.i + 1 }
  | .wCont1 => if abortRequested b then breakWrite { s with cont := b } else { s with cont := b }
  | .wCont2 => if abortRequested b then breakWrite { s with cont := b } else { s with cont := b }

/-- The byte a `LinkSend` of the rules sends. -/
def sendByte (v : SendVal) (s : State) : Byte :=
  match v with
  | .ack => Config.ack
  | .crcIn => s.crcIn
  | .crcOut => s.crcOut
  | .value => s.value
  | .crc => s.crc

/-- Puts lines before those still to run. -/
def expand (code : List Act) (s : State) : State := { s with todo := code ++ s.todo }

/-- Runs one line; it has been taken off `todo` already. -/
def perform (a : Act) (s : State) : Advance :=
  match a with
  | .setAddress addr => .moved (setAddress addr s)
  | .enterWriteMode => .moved (enterWriteMode s)
  | .enterReadMode => .moved (enterReadMode s)
  | .driveData b =>
    match s.bus.dir with
    | .output => .moved (driveData b s)
    | .input => .fault .driveWhileInput
  | .sampleData r =>
    match s.bus.dir with
    | .input => .moved (sampleInto r s)
    | .output => .fault .sampleWhileOutput
  | .busToInput => .moved (busToInput s)
  | .busToOutput => .moved (busToOutput s)
  | .chipEnable => .moved (chipEnable s)
  | .chipDisable => .moved (chipDisable s)
  | .oeAssert => .moved (oeAssert s)
  | .oeDeassert => .moved (oeDeassert s)
  | .pgmAssert => .moved (pgmAssert s)
  | .pgmDeassert => .moved (pgmDeassert s)
  | .wait us => .moved (wait us s)
  | .recv p =>
    match linkRecv s with
    | some (b, s') => .moved (receive p b s')
    | none => .blocked
  | .send v =>
    match linkSend (sendByte v s) s with
    | some s' => .moved s'
    | none => .blocked
  | .clearBase => .moved { s with baseAddress := 0 }
  | .clearProgress => .moved { s with progress := 0 }
  | .bumpProgress => .moved { s with progress := s.progress + 1 }
  | .clearCrc => .moved { s with crc := 0 }
  | .foldCrc => .moved { s with crc := s.crc ^^^ s.value }
  | .reinitAddress => .moved (reinitAddress s)
  | .applyPattern p => .moved (applyPattern p s)
  | .clearAttempt => .moved { s with attempt := 0 }
  | .attempt data => .moved (expand (attemptCode data) s)
  | .untilVerified data =>
    let s' := { s with attempt := s.attempt + 1 }
    .moved (if attemptsOver data s' then s' else expand [.attempt data] s')
  | .callReadOneByte => .moved (expand (readOneByteCode (readAddress s)) s)
  | .callWriteOneByte => .moved (expand (writeOneByteCode (writeAddress s) (stagedByte s)) s)
  | .whileWrite =>
    .moved (if bytesRemain s then expand writeBody { s with blockSize := nextBlockSize s } else s)
  | .beginReceive => .moved { s with crcIn := crcSeed s.crcIn s, i := 0 }
  | .forReceive => .moved (if blockRemains s then expand [.recv .wData, .forReceive] s else s)
  | .beginWrite => .moved { s with crcOut := crcSeed s.crcOut s, i := 0 }
  | .forWrite => .moved (if blockRemains s then expand [.callWriteOneByte, .foldVerified, .forWrite] s else s)
  | .foldVerified => .moved { s with crcOut := s.crcOut ^^^ s.verifiedValue, i := s.i + 1 }
  | .advanceBlock => .moved { s with progress := s.progress + s.blockSize }
  | .whileRead => .moved (if bytesRemain s then expand readBody s else s)

/-! ### Running -/

/-- Runs the first line still to run: one event of the trace, or one move of control between two events. With no line
left the EBC is in `IDLE`, and nothing happens here. -/
def advance (s : State) : Advance :=
  match s.todo with
  | [] => .blocked
  | a :: rest => perform a { s with todo := rest }

/-- Runs lines until the command is over (`IDLE`), the EBC is blocked in the link, or `n` lines have run. -/
def run : Nat → State → Result
  | 0, s => .next s
  | n + 1, s =>
    match advance s with
    | .moved s' => run n s'
    | .blocked => .next s
    | .fault f => .fault f

/-- Runs a command's rule from its first line. -/
def runCommand (code : List Act) (s : State) : Result := run Config.stepBudget { s with todo := code }

/-! ### The sequencer position as R40 names it -/

/-- The values of `SEQ` (R40). -/
inductive SeqPos where
  | idle
  | sLo
  | sHi
  | lLo
  | lHi
  | wData
  | wCont1
  | wCont2
  | txWait
  | delay
  | run
deriving DecidableEq, Repr

/-- The position that awaits a byte at a `LinkRecv`. -/
def RecvPos.seq : RecvPos → SeqPos
  | .sLo => .sLo
  | .sHi => .sHi
  | .lLo => .lLo
  | .lHi => .lHi
  | .wData => .wData
  | .wCont1 => .wCont1
  | .wCont2 => .wCont2

/-- `SEQ` (R40), read off the lines still to run. -/
def State.seq (s : State) : SeqPos :=
  match s.todo with
  | [] => .idle
  | .recv p :: _ => p.seq
  | .send _ :: _ => .txWait
  | .wait _ :: _ => .delay
  | _ :: _ => .run

/-! ### The dispatcher's fetch -/

/-- `op <- LinkRecv()` in `IDLE` and the decode of it (42_session_commands R170, R171); `none`: blocked. -/
def fetch (s : State) : Option (Instr × State) :=
  match linkRecv s with
  | some (op, s') => some (decodeByte op, s')
  | none => none

/-- The reset input is looked at before anything else (70_reset_and_hazards R260). -/
def resetAsserted (s : State) : Bool := s.resetIn

end Sys2Proof.Machine
end

