-- ==== Sys2Proof/Machine/Diagnostic.lean ====
section
/-! DEFINITION. The diagnostic commands (spec 42_session_commands R177, R178): each sets all eight bus and control fields
to its own fixed pattern, an open parameter. -/

namespace Sys2Proof.Machine

/-- `DIAG1` (R177). -/
def diag1Code : List Act := [.applyPattern Config.diag1Pattern]

/-- `DIAG2` (R178). -/
def diag2Code : List Act := [.applyPattern Config.diag2Pattern]

/-- The meaning of `1`. -/
def execDiag1 (s : State) : Result := runCommand diag1Code s

/-- The meaning of `2`. -/
def execDiag2 (s : State) : Result := runCommand diag2Code s

end Sys2Proof.Machine
end

