-- ==== Sys2Proof/Machine/Session.lean ====
section
/-! DEFINITION. The session commands (spec 42_session_commands R172 to R174, R176, R179, R180): each rule's pseudocode, and
the meaning that runs it. -/

namespace Sys2Proof.Machine

/-- `SETADDR` (R172): both operand bytes, then the register, `progress`, and the acknowledgment. The line that takes the
high byte writes `base_address` and clears `progress` (decision D33). -/
def setAddrCode : List Act := [.recv .sLo, .recv .sHi, .send .ack]

/-- `SETLEN` (R173). -/
def setLenCode : List Act := [.recv .lLo, .recv .lHi, .send .ack]

/-- `READ1` (R174): the chip is deselected only after the byte has been sent. -/
def read1Code : List Act :=
  [.enterReadMode, .chipEnable, .callReadOneByte, .send .value, .bumpProgress, .chipDisable]

/-- `REINIT` (R176). -/
def reinitCode : List Act := [.chipDisable, .clearBase, .clearProgress, .reinitAddress]

/-- `XNOP` (R179): no effect. -/
def xnopCode : List Act := []

/-- `IGNORED` (R180): no effect, whatever the byte. -/
def ignoredCode (_op : Byte) : List Act := []

/-- The meaning of `s`. -/
def execSetAddr (s : State) : Result := runCommand setAddrCode s

/-- The meaning of `l`. -/
def execSetLen (s : State) : Result := runCommand setLenCode s

/-- The meaning of `+`. -/
def execRead1 (s : State) : Result := runCommand read1Code s

/-- The meaning of `0`. -/
def execReinit (s : State) : Result := runCommand reinitCode s

/-- The meaning of `x`. -/
def execXnop (s : State) : Result := runCommand xnopCode s

/-- The meaning of an unnamed byte. -/
def execIgnored (op : Byte) (s : State) : Result := runCommand (ignoredCode op) s

end Sys2Proof.Machine
end

