-- ==== Sys2Proof/Machine/Transfer.lean ====
section
/-! DEFINITION. The Streaming Transfer Engine (spec 43_transfer_engine): Bulk Write and Bulk Read. -/

namespace Sys2Proof.Machine

/-- `WRITE` (R208): the entry of R200, the loop, the exit of R207. "assert output-enable (idle level)" is `oe_deassert()`
(90_conflicts C1). -/
def writeCode : List Act :=
  [.send .ack, .enterWriteMode, .chipEnable, .oeDeassert, .clearProgress, .whileWrite] ++ writeExit

/-- `READ` (R211, R212): no acknowledgment; the chip is deselected before the checksum is sent. -/
def readCode : List Act :=
  [.enterReadMode, .chipEnable, .clearProgress, .clearCrc, .whileRead, .chipDisable, .send .crc]

/-- The meaning of `d`. -/
def execWrite (s : State) : Result := runCommand writeCode s

/-- The meaning of `r`. -/
def execRead (s : State) : Result := runCommand readCode s

end Sys2Proof.Machine
end

