-- ==== Sys2Proof/Machine/Dispatch.lean ====
section
/-! DEFINITION. The dispatcher's case (spec 42_session_commands R170): one arm per command class. -/

namespace Sys2Proof.Machine

def exec (i : Instr) (s : State) : Host.Outcome State Fault Refusal :=
  match i with
  | .setAddr => Sys2Proof.Machine.execSetAddr s
  | .setLen => Sys2Proof.Machine.execSetLen s
  | .write => Sys2Proof.Machine.execWrite s
  | .read => Sys2Proof.Machine.execRead s
  | .read1 => Sys2Proof.Machine.execRead1 s
  | .reinit => Sys2Proof.Machine.execReinit s
  | .diag1 => Sys2Proof.Machine.execDiag1 s
  | .diag2 => Sys2Proof.Machine.execDiag2 s
  | .xnop => Sys2Proof.Machine.execXnop s
  | .ignored op => Sys2Proof.Machine.execIgnored op s

end Sys2Proof.Machine
end

