-- ==== Sys2Proof/Machine/Step.lean ====
section
/-! DEFINITION. One step of the machine (log entries 1, 2, 18): with reset asserted, the reset state; in `IDLE`, the next
command byte and its command; inside a command that was blocked, the command goes on. -/

namespace Sys2Proof.Machine

/-- One step. A blocked EBC stays as it is (20_memory R71, R72). -/
def step (s : State) : Host.Outcome State Fault Refusal :=
  if resetAsserted s then .next s.assertReset
  else
    match s.todo with
    | [] =>
      match fetch s with
      | some (i, s') => exec i s'
      | none => .next s
    | _ :: _ => run Config.stepBudget s

/-- `s` with one instruction of the opcode table as the bytes the host has sent, the sequencer in `IDLE` and reset not
asserted, so that the next `step` takes and runs it (log entry 21). -/
def State.withFetchWord (s : State) (nbits w : Nat) : State :=
  { s with rx := tableBytes nbits w, todo := [], resetIn := false }

end Sys2Proof.Machine
end

