-- ==== Sys2Proof/Machine/Environment.lean ====
section
/-! DEFINITION. What the outside world can do to the machine between two ticks (spec 20_memory R70 to R75, R62 to R65;
70_reset_and_hazards R260): the host and its link, the reset input, the chip socket. -/

namespace Sys2Proof.Machine

/-- An event outside the EBC. -/
inductive EnvEvent where
  /-- The host sends bytes; a byte sent early waits in `rx` (R74). -/
  | hostSends (bytes : List Byte)
  /-- The host takes the `n` oldest bytes of the device-to-host stream (R72). -/
  | hostTakes (n : Nat)
  /-- The link's transmit-ready condition changes (R72). -/
  | linkRoom (room : Option Nat)
  /-- The reset input changes; asserting it resets the EBC at once (R260, decision D31). -/
  | resetInput (on : Bool)
  /-- A chip is put in the socket, its model named and some of its cells known (R65). DESIGN CHOICE (log entry 29): the spec
  speaks of no change of chip; it may fall between any two ticks, a pulse included. -/
  | insertChip (model : ChipModel) (contents : List (ChipAddr × Byte))
  /-- The environment settles the next answers that the rules leave open (R63). -/
  | chooseAnswers (bytes : List Byte)
deriving DecidableEq, Repr

/-- The state after an event outside the EBC. Only the reset input changes a field of the EBC: the state is that of R261 from
the moment the input is asserted, without a step of the EBC in between, up to the first instant after it is released (R260;
log entry 16). -/
def State.environment (e : EnvEvent) (s : State) : State :=
  match e with
  | .hostSends bytes => { s with rx := s.rx ++ bytes }
  | .hostTakes n => { s with tx := s.tx.drop n }
  | .linkRoom room => { s with txRoom := room }
  | .resetInput on => { (if on || s.resetIn then s.assertReset else s) with resetIn := on }
  | .insertChip model contents =>
    { s with
      chip := { model := model, cells := contents.foldl (fun m c => m.write c.1.toNat c.2) [], unsettled := [],
                lastPulse := none, answered := 0 } }
  | .chooseAnswers bytes => { s with answers := bytes }

end Sys2Proof.Machine
end

