-- ==== Sys2Proof/Machine/Ports.lean ====
section
/-! DEFINITION. The ports of the EBC as a hardware block (spec 10_state R45, decision D1), each a view of a state field, and
the wire levels that the open polarities and the clock period decide (decisions D2, D7). No rule of the machine reads them. -/

namespace Sys2Proof.Machine

/-- The output ports of R45. -/
structure Ports where
  rxReady : Bool
  txValid : Bool
  txData : Option Byte
  addrLo : LoField
  addrHi : HiField
  dataOut : Byte
  dataOe : Bool
  vppEn : Bool
  ceEn : Bool
  oeEn : Bool
  pgmN : Bool
deriving DecidableEq, Repr

/-- The EBC is in a `LinkRecv`: in `IDLE` or at a position that awaits a byte (R40). -/
def State.inLinkRecv (s : State) : Bool :=
  match s.todo with
  | [] => true
  | .recv _ :: _ => true
  | _ :: _ => false

/-- The byte of the `LinkSend` the EBC is in, if it is in one. -/
def State.sending (s : State) : Option Byte :=
  match s.todo with
  | .send v :: _ => some (sendByte v s)
  | _ => none

/-- The levels of the output ports (R45): `rx_ready` is high exactly in `LinkRecv`, `tx_valid` exactly in `LinkSend`,
`data_oe` when `DIR = output`, `pgm_n` low when `PGM_strobe` is true. -/
def State.ports (s : State) : Ports :=
  { rxReady := s.inLinkRecv, txValid := s.sending.isSome, txData := s.sending,
    addrLo := s.bus.addrLo, addrHi := s.bus.addrHi6, dataOut := s.bus.dout, dataOe := s.bus.dir == .output,
    vppEn := s.bus.vpp, ceEn := s.bus.ce, oeEn := s.bus.oe, pgmN := !s.bus.pgm }

/-- The physical level of a line whose enabled level is `pol` (D7). -/
def wireLevel (pol enabled : Bool) : Bool := enabled == pol

/-- The physical chip-enable, output-enable and programming-voltage levels (D7; log entry 25). -/
def State.controlWires (s : State) : Bool × Bool × Bool :=
  (wireLevel Config.polCe s.bus.ce, wireLevel Config.polOe s.bus.oe, wireLevel Config.polVpp s.bus.vpp)

/-- The clock cycles a delay counter counts for `Wait(us)` with the clock period `tClk`: `ceil(n µs / T_CLK)`, so that a
delay is never shortened (40_bus_driver R134, 70_reset_and_hazards R272). `T_CLK` is OPEN (00_scope R10, decision D2), with no
unit and no type given. DESIGN CHOICE (log entry 22): it is an argument, counted in microseconds, and a number of any ordered
field, so that a period of 1/16 microsecond, or one that is no fraction, is one too. -/
def waitCycles {K : Type} [Field K] [LinearOrder K] [FloorSemiring K] (us : Nat) (tClk : K) : Nat := ⌈(us : K) / tClk⌉₊

end Sys2Proof.Machine
end

