-- ==== Sys2Proof/Machine/Tick.lean ====
section
/-! DEFINITION. The machine at the grain of its event trace (spec 00_scope R13, decision D22): one tick is one line of the
pseudocode. A `step` is a number of ticks; between two ticks reset may be asserted and the host may act, also in the
middle of a command, a delay or a program pulse (70_reset_and_hazards R260). -/

namespace Sys2Proof.Machine

/-- The lines of a command's rule (42_session_commands R170). -/
def commandCode : Instr → List Act
  | .setAddr => setAddrCode
  | .setLen => setLenCode
  | .write => writeCode
  | .read => readCode
  | .read1 => read1Code
  | .reinit => reinitCode
  | .diag1 => diag1Code
  | .diag2 => diag2Code
  | .xnop => xnopCode
  | .ignored op => ignoredCode op

/-- One tick: the reset state while reset is asserted; in `IDLE`, taking and decoding a command byte; else one line. A
blocked EBC stays as it is. -/
def tick (s : State) : Result :=
  if resetAsserted s then .next s.assertReset
  else
    match s.todo with
    | [] =>
      match fetch s with
      | some (i, s') => .next { s' with todo := commandCode i }
      | none => .next s
    | _ :: _ =>
      match advance s with
      | .moved s' => .next s'
      | .blocked => .next s
      | .fault f => .fault f

/-- `n` ticks, stopping at a fault. -/
def ticks : Nat → State → Result
  | 0, s => .next s
  | n + 1, s =>
    match tick s with
    | .next s' => ticks n s'
    | .fault f => .fault f
    | .refused r => .refused r

end Sys2Proof.Machine
end

