-- ==== Sys2Proof/Safety.lean ====
section
/-! DEFINITION. What counts as a safe state: no contract violation ahead, the bus discipline of spec 10_state R38, R39 and
70_reset_and_hazards R270, R274, the bounds of a transfer (43_transfer_engine R215; 10_state R24 to R28), and the
canonical form of memory. Each is a check of the lines still to run against the present state. -/

namespace Sys2Proof.Machine

/-! ### No contract violation (entries U1, U2) -/

/-- The data-bus direction after a line, if the line is allowed at this direction. -/
def dirAfter (a : Act) (d : Dir) : Option Dir :=
  match a with
  | .enterWriteMode => some .output
  | .busToOutput => some .output
  | .enterReadMode => some .input
  | .busToInput => some .input
  | .applyPattern p => some p.dir
  | .sampleData _ => if d = .input then some d else none
  | .callReadOneByte => if d = .input then some d else none
  | .whileRead => if d = .input then some d else none
  | .driveData _ => if d = .output then some d else none
  | .attempt _ => if d = .output then some d else none
  | .untilVerified _ => if d = .output then some d else none
  | .callWriteOneByte => if d = .output then some d else none
  | .forWrite => if d = .output then some d else none
  | .whileWrite => if d = .output then some d else none
  | .setAddress _ => some d
  | .chipEnable => some d
  | .chipDisable => some d
  | .oeAssert => some d
  | .oeDeassert => some d
  | .pgmAssert => some d
  | .pgmDeassert => some d
  | .wait _ => some d
  | .recv _ => some d
  | .send _ => some d
  | .clearBase => some d
  | .clearProgress => some d
  | .bumpProgress => some d
  | .clearCrc => some d
  | .foldCrc => some d
  | .reinitAddress => some d
  | .clearAttempt => some d
  | .beginReceive => some d
  | .forReceive => some d
  | .beginWrite => some d
  | .foldVerified => some d
  | .advanceBlock => some d

/-- The direction after all the lines, if each is allowed where it stands. -/
def dirAfterAll : List Act → Dir → Option Dir
  | [], d => some d
  | a :: rest, d => (dirAfter a d).bind (dirAfterAll rest)

/-- No line still to run drives or samples the bus in the wrong direction. -/
def State.directionSafe (s : State) : Bool := (dirAfterAll s.todo s.bus.dir).isSome

/-! ### The bus discipline -/

/-- The direction and the control lines, without address and data. -/
structure Lines where
  dir : Dir
  vpp : Bool
  ce : Bool
  oe : Bool
  pgm : Bool
deriving DecidableEq, Repr

/-- The lines of a bus state. -/
def Bus.lines (b : Bus) : Lines := ⟨b.dir, b.vpp, b.ce, b.oe, b.pgm⟩

/-- Read mode, chip deselected, every line idle: the lines in `IDLE` (42_session_commands R182). -/
def idleLines : Lines := ⟨.input, false, false, false, false⟩

/-- The lines that Read-one-byte needs on entry (41_byte_ops R155). -/
def readLines : Lines := ⟨.input, false, true, false, false⟩

/-- The lines that Write-one-byte needs on entry (41_byte_ops R150). -/
def writeLines : Lines := ⟨.output, true, true, false, false⟩

/-- The invariants of R38 and R39 as a fact of one instant: with the bus driven, OE is off; with the strobe asserted, VPP
and CE are on, the bus is driven and OE is off. -/
def Lines.ok (l : Lines) : Bool :=
  (!(l.dir == .output) || !l.oe) && (!l.pgm || (l.vpp && l.ce && l.dir == .output && !l.oe))

/-- A line that is allowed only while OE and the strobe are off (R270 (b)). -/
def whenQuiet (l l' : Lines) : Option Lines := if l.oe || l.pgm then none else some l'

/-- A line that is allowed only while the strobe is off (R272: no line but a wait stands inside a pulse). -/
def whenNoPulse (l l' : Lines) : Option Lines := if l.pgm then none else some l'

/-- A line that is allowed only at the given lines, and leaves them so. -/
def onlyAt (want l : Lines) : Option Lines := if l = want then some l else none

/-- The lines after a line of pseudocode, if R38, R39, R270 (b), (c) and R274 allow it where it stands, and no line but waits
stands inside a pulse. That the address comes first (R270 (a)) and how long the waits are (R272, R273) is not checked here:
the traces of the byte operations say it. The diagnostic patterns are outside the discipline (R271). -/
def linesAfter (a : Act) (l : Lines) : Option Lines :=
  match a with
  | .setAddress _ => whenQuiet l l
  | .reinitAddress => whenQuiet l l
  | .enterWriteMode => whenQuiet l { l with vpp := true, dir := .output }
  | .enterReadMode => whenQuiet l { l with vpp := false, dir := .input }
  | .busToInput => whenQuiet l { l with dir := .input }
  | .busToOutput => whenQuiet l { l with dir := .output }
  | .driveData _ => if l.dir = .output then whenQuiet l l else none
  | .sampleData _ => if l.dir = .input ∧ l.ce = true ∧ l.oe = true then whenNoPulse l l else none
  | .chipEnable => whenQuiet l { l with ce := true }
  | .chipDisable => whenQuiet l { l with ce := false }
  | .oeAssert => if l.dir = .input ∧ l.ce = true then whenQuiet l { l with oe := true } else none
  | .oeDeassert => whenNoPulse l { l with oe := false }
  | .pgmAssert => if l = writeLines then some { l with pgm := true } else none
  | .pgmDeassert => if l.pgm then some { l with pgm := false } else none
  | .wait _ => some l
  | .recv .wData => onlyAt writeLines l
  | .recv .wCont1 => onlyAt writeLines l
  | .recv .wCont2 => onlyAt writeLines l
  | .recv .sLo => whenNoPulse l l
  | .recv .sHi => whenNoPulse l l
  | .recv .lLo => whenNoPulse l l
  | .recv .lHi => whenNoPulse l l
  | .send _ => whenNoPulse l l
  | .clearBase => whenNoPulse l l
  | .clearProgress => whenNoPulse l l
  | .bumpProgress => whenNoPulse l l
  | .clearCrc => whenNoPulse l l
  | .foldCrc => whenNoPulse l l
  | .clearAttempt => whenNoPulse l l
  | .beginReceive => whenNoPulse l l
  | .forReceive => onlyAt writeLines l
  | .beginWrite => whenNoPulse l l
  | .foldVerified => whenNoPulse l l
  | .advanceBlock => whenNoPulse l l
  | .attempt _ => onlyAt writeLines l
  | .untilVerified _ => onlyAt writeLines l
  | .callWriteOneByte => onlyAt writeLines l
  | .forWrite => onlyAt writeLines l
  | .whileWrite => onlyAt writeLines l
  | .callReadOneByte => onlyAt readLines l
  | .whileRead => onlyAt readLines l
  | .applyPattern _ => none

/-- The lines after all the lines of pseudocode, if each is allowed where it stands. -/
def linesAfterAll : List Act → Lines → Option Lines
  | [], l => some l
  | a :: rest, l => (linesAfter a l).bind (linesAfterAll rest)

/-- The present lines keep R38 and R39, and the rest of the command keeps them with the rules of `linesAfter` and ends
with the lines idle. -/
def State.busDisciplined (s : State) : Bool :=
  (Bus.lines s.bus).ok && linesAfterAll s.todo (Bus.lines s.bus) == some idleLines

/-- The command byte that `IDLE` is about to take, if any, is not one of the two diagnostic commands. -/
def State.noDiagnosticNext (s : State) : Bool :=
  match s.todo, s.rx with
  | [], op :: _ => op != Config.cmdDiag1 && op != Config.cmdDiag2
  | _, _ => true

/-! ### The bounds of a transfer -/

/-- What is known of `progress`, `block_size` and `i` at a place in a command. -/
inductive Phase where
  /-- Nothing. -/
  | outside
  /-- Inside `d` or `r`, at the loop test or after it: `progress ≤ transfer_length` (R215). -/
  | transfer
  /-- Inside the body of Bulk Read's loop: a byte is still to come (R212). -/
  | readByte
  /-- Inside a block of Bulk Write: it fits into what is left (R201). -/
  | block
  /-- Inside a `for i` loop of a block: `i` selects a cell of the block (R28). -/
  | cell
deriving DecidableEq, Repr

/-- The fact of a phase. -/
def Phase.holds (p : Phase) (s : State) : Bool :=
  match p with
  | .outside => true
  | .transfer => decide (s.progress.toNat ≤ s.transferLength.toNat)
  | .readByte => decide (s.progress.toNat < s.transferLength.toNat)
  | .block =>
    decide (1 ≤ s.blockSize.toNat ∧ s.blockSize.toNat ≤ Config.blockMax ∧
      s.progress.toNat + s.blockSize.toNat ≤ s.transferLength.toNat)
  | .cell =>
    decide (s.i.toNat < s.blockSize.toNat ∧ s.blockSize.toNat ≤ Config.blockMax ∧
      s.progress.toNat + s.blockSize.toNat ≤ s.transferLength.toNat)

/-- The phase after a line, if the line may stand in this phase. -/
def phaseAfter (a : Act) (p : Phase) : Option Phase :=
  match a with
  | .clearProgress => some .transfer
  | .whileWrite => if p = .transfer then some .transfer else none
  | .whileRead => if p = .transfer then some .transfer else none
  | .bumpProgress =>
    match p with
    | .outside => some .outside
    | .readByte => some .transfer
    | .transfer => none
    | .block => none
    | .cell => none
  | .beginReceive => if p = .block then some .block else none
  | .forReceive => if p = .block then some .block else none
  | .beginWrite => if p = .block then some .block else none
  | .forWrite => if p = .block then some .block else none
  | .recv .wData => if p = .cell then some .block else none
  | .callWriteOneByte => if p = .cell then some .cell else none
  | .foldVerified => if p = .cell then some .block else none
  | .recv .wCont1 => if p = .block then some .block else none
  | .recv .wCont2 => if p = .block then some .block else none
  | .advanceBlock => if p = .block then some .transfer else none
  | .recv .sHi => if p = .outside then some .outside else none
  | .recv .lHi => if p = .outside then some .outside else none
  | .recv .sLo => some p
  | .recv .lLo => some p
  | .setAddress _ => some p
  | .enterWriteMode => some p
  | .enterReadMode => some p
  | .driveData _ => some p
  | .sampleData _ => some p
  | .busToInput => some p
  | .busToOutput => some p
  | .chipEnable => some p
  | .chipDisable => some p
  | .oeAssert => some p
  | .oeDeassert => some p
  | .pgmAssert => some p
  | .pgmDeassert => some p
  | .wait _ => some p
  | .send _ => some p
  | .clearBase => some p
  | .clearCrc => some p
  | .foldCrc => some p
  | .reinitAddress => some p
  | .applyPattern _ => some p
  | .clearAttempt => some p
  | .attempt _ => some p
  | .untilVerified _ => some p
  | .callReadOneByte => some p

/-- The phase after all the lines, if each may stand where it does. -/
def phaseAfterAll : List Act → Phase → Option Phase
  | [], p => some p
  | a :: rest, p => (phaseAfter a p).bind (phaseAfterAll rest)

/-- Some phase whose fact holds now allows all the lines still to run. -/
def State.transferBounded (s : State) : Bool :=
  [Phase.outside, .transfer, .readByte, .block, .cell].any fun p => p.holds s && (phaseAfterAll s.todo p).isSome

/-- The loop of a transfer is still to be left, and its `progress` has been cleared (R215). -/
def State.inTransferLoop (s : State) : Bool :=
  (s.todo.contains .whileWrite || s.todo.contains .whileRead) && !s.todo.contains .clearProgress

/-! ### The end of a run (70_reset_and_hazards R283) -/

/-- The EBC is blocked in a `LinkRecv` with no byte there (R71). -/
def State.starved (s : State) : Bool := s.inLinkRecv && s.rx.isEmpty

/-- Blocked in `IDLE` with `rx` empty: with the host finished, the run is over (R283). -/
def State.runOver (s : State) : Bool := s.todo.isEmpty && s.rx.isEmpty

/-- The EBC is blocked in a `LinkSend`: the link is not transmit-ready (R72). -/
def State.txBlocked (s : State) : Bool := s.sending.isSome && s.txRoom == some 0

/-- Blocked in any other position, one that awaits a byte or `TX_WAIT`, with `rx` empty: with the host finished, the run is
stuck (R283, decision D26). -/
def State.runStuck (s : State) : Bool := (s.starved || s.txBlocked) && s.rx.isEmpty && !s.todo.isEmpty

end Sys2Proof.Machine
end

