-- ==== Sys2Proof/Certificates/Slice0/Obligations.lean ====
section
/-! DEFINITION. The statements about the machine, each with the rule of the spec it formalises, and the words they are
stated in: the traces of the byte operations and of the transfers, and the reading of a trace. -/

namespace Sys2Proof.Claims

open Sys2Proof Sys2Proof.Machine

/-! ### The words of the statements -/

/-- The event of `set_address(a)` (40_bus_driver R121). -/
def addrEvent (a : Word) : Event := .addr (addrLoField a) (addrHiField a)

/-- The trace of one attempt that drives `d` and samples `v` (41_byte_ops R154). -/
def attemptTrace (d v : Byte) : List Event :=
  [.dout d, .wait 10, .pgm true, .wait 95, .pgm false, .dir .input, .oe true, .wait 1, .sample v, .oe false, .dir .output]

/-- The trace of a Write-one-byte whose verifies sampled `vs` (41_byte_ops R154). -/
def writeByteTrace (a : Word) (d : Byte) (vs : List Byte) : List Event :=
  [addrEvent a, .wait 10] ++ vs.flatMap (attemptTrace d)

/-- The trace of a Read-one-byte that sampled `v` (41_byte_ops R156). -/
def readByteTrace (a : Word) (v : Byte) : List Event :=
  [addrEvent a, .oe true, .wait 2, .sample v, .oe false, .wait 2]

/-- The samples `vs` of a Write-one-byte of `d`: at least one and at most 20, none before the last equal to `d`, and the
last equal to `d` unless there are 20 (41_byte_ops R153). -/
def attemptsFit (d : Byte) (vs : List Byte) : Prop :=
  vs ≠ [] ∧ vs.length ≤ 20 ∧ (∀ v ∈ vs.dropLast, v ≠ d) ∧ (vs.getLast? = some d ∨ vs.length = 20)

/-- What a Write-one-byte with the samples `vs` returns: the last of them (41_byte_ops R153). -/
def returned (vs : List Byte) : Byte := vs.getLast?.getD 0

/-- The events of the loop of a Bulk Read from address `a` on, for the bytes sampled (43_transfer_engine R212). -/
def readLoopTrace : Word → List Byte → List Event
  | _, [] => []
  | a, v :: vs => readByteTrace a v ++ .tx v :: readLoopTrace (a + 1) vs

/-- The events of a whole Bulk Read after its command byte (43_transfer_engine R212). -/
def bulkReadTrace (a : Word) (vs : List Byte) : List Event :=
  [.vpp false, .dout Config.dataNeutral, .dir .input, .ce true] ++ readLoopTrace a vs ++ [.ce false, .tx (xorAll vs)]

/-- The events of the write phase of a block from address `a` on: each byte with its samples (43_transfer_engine R204). -/
def writePhaseTrace : Word → List Byte → List (List Byte) → List Event
  | a, d :: ds, vs :: vss => writeByteTrace a d vs ++ writePhaseTrace (a + 1) ds vss
  | _, _, _ => []

/-- Every byte of a block has samples that fit it. -/
def phaseFits : List Byte → List (List Byte) → Prop
  | [], [] => True
  | d :: ds, vs :: vss => attemptsFit d vs ∧ phaseFits ds vss
  | _, _ => False

/-- The events of a block from address `a` on, with the samples of its write phase (43_transfer_engine R202 to R205). -/
def blockTrace (a : Word) (b : WriteBlock) (vss : List (List Byte)) : List Event :=
  b.data.map .rx ++ [.tx 0x01, .tx (xorAll b.data), .rx b.cont1] ++
    match b.cont2 with
    | none => []
    | some c => writePhaseTrace a b.data vss ++ [.tx 0x01, .tx (xorAll (vss.map returned)), .rx c]

/-- The events of the blocks of a Bulk Write from address `a` on. -/
def blocksTrace : Word → List WriteBlock → List (List (List Byte)) → List Event
  | a, b :: bs, o :: os => blockTrace a b o ++ blocksTrace (a + BitVec.ofNat 16 b.data.length) bs os
  | _, _, _ => []

/-- The samples `os` fit the blocks: a block aborted at the first point has none (43_transfer_engine R203). -/
def blocksSampled : List WriteBlock → List (List (List Byte)) → Prop
  | [], [] => True
  | b :: bs, o :: os => (match b.cont2 with | none => o = [] | some _ => phaseFits b.data o) ∧ blocksSampled bs os
  | _, _ => False

/-- The events of a whole Bulk Write after its command byte (43_transfer_engine R208). -/
def bulkWriteTrace (a : Word) (bs : List WriteBlock) (os : List (List (List Byte))) : List Event :=
  [.tx 0x01, .vpp true, .dir .output, .ce true, .oe false] ++ blocksTrace a bs os ++
    [.ce false, .vpp false, .dout Config.dataNeutral, .dir .input]

/-- The bytes of the blocks that were completed: those whose two continuation bytes both said to go on (43_transfer_engine
R206). -/
def completedBytes : List WriteBlock → Nat
  | [] => 0
  | b :: bs =>
    (match b.cont2 with | none => 0 | some c => if c = 0xFF then 0 else b.data.length) + completedBytes bs

/-- The data that were written to the chip: those of the blocks not aborted at the first point (43_transfer_engine R203,
R205). -/
def storedData : List WriteBlock → List Byte
  | [] => []
  | b :: bs => (match b.cont2 with | none => [] | some _ => b.data) ++ storedData bs

/-- No continuation byte aborts. -/
def noAbort (bs : List WriteBlock) : Prop := ∀ b ∈ bs, b.cont1 ≠ 0xFF ∧ ∃ c, b.cont2 = some c ∧ c ≠ 0xFF

/-- An `IdealChip`'s cells after the bytes are stored at logical addresses from `a` on, in that order (20_memory R65). -/
def storeBytes : Memory → Word → List Byte → Memory
  | m, _, [] => m
  | m, a, d :: ds => storeBytes (m.write (chipAddrOf a).toNat d) (a + 1) ds

/-- The samples of blocks whose every byte verified at once. -/
def firstTimeSamples : List WriteBlock → List (List (List Byte))
  | [] => []
  | b :: bs => (match b.cont2 with | none => [] | some _ => b.data.map fun d => [d]) :: firstTimeSamples bs

/-- The bytes an `IdealChip` answers at logical addresses from `a` on (20_memory R65). -/
def idealBytes (c : Chip) : Word → Nat → List Byte
  | _, 0 => []
  | a, n + 1 => c.cell (chipAddrOf a).toNat :: idealBytes c (a + 1) n

/-- The cells that an `IdealChip` holds and those a reset has left open are the same in both (20_memory R65,
70_reset_and_hazards R260). -/
def sameCells (c c' : Chip) : Prop :=
  ∀ a : Nat, c'.cells.read a = c.cells.read a ∧ (a ∈ c'.unsettled ↔ a ∈ c.unsettled)

/-- What the chip is taken to be after a diagnostic pattern (log entry 12): unnamed if the pattern asserts the strobe, else
as it was. -/
def chipAfterPattern (p : Bus) (c c' : Chip) : Prop :=
  (p.pgm = true → c'.model = .unnamed) ∧ (p.pgm = false → c'.model = c.model) ∧ c' = { c with model := c'.model }

/-- The link takes at least `k` more bytes (20_memory R72). -/
def roomFor (s : State) (k : Nat) : Prop := ∀ r, s.txRoom = some r → k ≤ r

/-- The bytes sent in a stretch of trace. -/
def sentBytes (es : List Event) : List Byte :=
  es.filterMap fun | .tx b => some b | _ => none

/-- The bytes taken in a stretch of trace. -/
def takenBytes (es : List Event) : List Byte :=
  es.filterMap fun | .rx b => some b | _ => none

/-- The bus after one event. -/
def busAfter (b : Bus) : Event → Bus
  | .addr lo hi => { b with addrLo := lo, addrHi6 := hi }
  | .vpp on => { b with vpp := on }
  | .dir d => { b with dir := d }
  | .dout v => { b with dout := v }
  | .ce on => { b with ce := on }
  | .oe on => { b with oe := on }
  | .pgm on => { b with pgm := on }
  | .pattern p => p
  | .sample _ => b
  | .wait _ => b
  | .rx _ => b
  | .tx _ => b

/-- `t` comes after `s`, and the events between them account for the link and for the bus. -/
def Accounted (s t : State) : Prop :=
  ∃ es, t.trace = s.trace ++ es ∧ t.tx = s.tx ++ sentBytes es ∧ s.rx = takenBytes es ++ t.rx ∧
    t.bus = es.foldl busAfter s.bus

/-- The Bus Driver micro-operations other than `Wait` (40_bus_driver R121 to R133), with the one that `0` may issue and the
diagnostic patterns. -/
def isBusLine : Act → Bool
  | .setAddress _ => true
  | .enterWriteMode => true
  | .enterReadMode => true
  | .driveData _ => true
  | .sampleData _ => true
  | .busToInput => true
  | .busToOutput => true
  | .chipEnable => true
  | .chipDisable => true
  | .oeAssert => true
  | .oeDeassert => true
  | .pgmAssert => true
  | .pgmDeassert => true
  | .reinitAddress => true
  | .applyPattern _ => true
  | _ => false

/-- The three session registers are the same. -/
def sameSession (s t : State) : Prop :=
  t.baseAddress = s.baseAddress ∧ t.transferLength = s.transferLength ∧ t.progress = s.progress

/-- The registers of a Bulk Write are the same. -/
def sameBlockRegisters (s t : State) : Prop :=
  t.blockSize = s.blockSize ∧ t.crcIn = s.crcIn ∧ t.crcOut = s.crcOut ∧ t.i = s.i ∧ t.attempt = s.attempt ∧
    t.verifiedValue = s.verifiedValue ∧ t.cont = s.cont ∧ t.block = s.block

/-- What the environment owns is the same: the chip, the open answers, the reset input. -/
def sameEnvironment (s t : State) : Prop :=
  t.chip = s.chip ∧ t.answers = s.answers ∧ t.draws = s.draws ∧ t.resetIn = s.resetIn

/-- `t` has the values of 70_reset_and_hazards R261 and what reset leaves of `s`: the link and the trace. -/
def resetFrom (s t : State) : Prop :=
  t.baseAddress = 0 ∧ t.transferLength = 0 ∧ t.progress = 0 ∧ t.bus = State.reset.bus ∧ t.seq = .idle ∧
    t.rx = s.rx ∧ t.tx = s.tx ∧ t.txRoom = s.txRoom ∧ t.trace = s.trace

/-- Two states that differ at most in the chip and in the open answers. -/
def sameButChip (s s' : State) : Prop :=
  s' = { s with chip := s'.chip, answers := s'.answers, draws := s'.draws }

/-- The invariants that hold whatever commands are given. -/
def soundState (s : State) : Prop :=
  s.directionSafe = true ∧ s.transferBounded = true ∧ Memory.wf s.chip.cells

end Sys2Proof.Claims

open Sys2Proof Sys2Proof.Machine Sys2Proof.Claims

/-! ### Encodings -/

/-- 30_encoding R92, R93: the nine command bytes written out bit by bit, and a few of the other 247, decode to their
commands. Sanity. The byte values are the spec's decision D3. -/
def Obligations.CommandBytesDecode : Prop :=
  decodeByte 0b01110011#8 = .setAddr ∧ decodeByte 0b01101100#8 = .setLen ∧ decodeByte 0b01100100#8 = .write ∧
  decodeByte 0b01110010#8 = .read ∧ decodeByte 0b00101011#8 = .read1 ∧ decodeByte 0b00110000#8 = .reinit ∧
  decodeByte 0b00110001#8 = .diag1 ∧ decodeByte 0b00110010#8 = .diag2 ∧ decodeByte 0b01111000#8 = .xnop ∧
  decodeByte 0b01010011#8 = .ignored 0x53 ∧ decodeByte 0b00000000#8 = .ignored 0x00 ∧
  decodeByte 0b11111111#8 = .ignored 0xFF

/-- 30_encoding R90, R92: decoding the command byte of a well-formed command gives the command back and leaves the rest of
the stream. -/
def Obligations.DecodeOfEncode : Prop :=
  ∀ (i : Instr) (rest : List Byte), i.wf = true → decode (encode i ++ rest) = .command i i.opByte rest

/-- 42_session_commands R171, 30_encoding R99: decoding compares the whole byte: every byte is some well-formed command's,
and of that one only; the decode has no side effect other than consuming the byte. -/
def Obligations.EveryByteIsACommand : Prop :=
  ∀ op : Byte,
    ((decodeByte op).wf = true ∧ (decodeByte op).opByte = op ∧
      ∀ i : Instr, i.wf = true → i.opByte = op → i = decodeByte op) ∧
    ∀ (s : State) (rest : List Byte), s.resetIn = false → s.todo = [] → s.rx = op :: rest →
      tick s = .next { s with rx := rest, todo := commandCode (decodeByte op), trace := s.trace ++ [.rx op] }

/-- 30_encoding R91, R94, R95: a whole command with its operands, data and continuation bytes, encoded as the host
sends it, is split off the stream as the same command, whatever follows. It rests on the command bytes of decision D3
and on the length rule that R94 derives. -/
def Obligations.FrameDecodeOfEncode : Prop :=
  ∀ (len : Word) (f : Frame) (rest : List Byte), f.fits len = true → takeFrame len (f.encode ++ rest) = some (f, rest)

/-- 30_encoding R94: without an abort the host sends `n + 2 * ceil(n / 512)` bytes after `d`, in `ceil(n / 512)`
blocks. R94 marks the number as derived. -/
def Obligations.WriteFrameLength : Prop :=
  ∀ (n : Nat) (bs : List WriteBlock), blocksFit n bs = true → noAbort bs →
    bs.length = (n + 511) / 512 ∧ (bs.flatMap WriteBlock.bytes).length = n + 2 * ((n + 511) / 512)

/-- 30_encoding R100, R101; 10_state R31: the two ports give back the low 14 bits of the address, the whole address up
to 0x3FFF; the high port carries `ADDR_HI6` in bits 7 to 2. That bits 15 and 14 are lost is the spec's decision D4. -/
def Obligations.AddressPortsRoundTrip : Prop :=
  ∀ a : Word, (portsAddress (addrLoField a) (hiPort a)).toNat = a.toNat % 16384 ∧
    (a.toNat ≤ 0x3FFF → portsAddress (addrLoField a) (hiPort a) = a) ∧
    (hiPort a).extractLsb' 2 6 = addrHiField a

/-- 40_bus_driver R121, 20_memory R61: `set_address(a)` writes the two address fields in one event and touches nothing
else; the chip address is `a mod 16384`, so addresses that differ by a multiple of 0x4000 select the same chip byte.
That bits 15 and 14 are dropped is the spec's decision D4. -/
def Obligations.SetAddressSelectsChipByte : Prop :=
  ∀ (s : State) (rest : List Act) (a k : Word),
    (s.resetIn = false → s.todo = .setAddress a :: rest →
      tick s = .next { s with
        todo := rest, bus := { s.bus with addrLo := a.extractLsb' 0 8, addrHi6 := a.extractLsb' 8 6 },
        trace := s.trace ++ [.addr (a.extractLsb' 0 8) (a.extractLsb' 8 6)] }) ∧
    (Bus.chipAddr (setAddress a s).bus).toNat = a.toNat % 16384 ∧
    Bus.chipAddr (setAddress (a + 0x4000 * k) s).bus = Bus.chipAddr (setAddress a s).bus

/-- 30_encoding R95, 20_memory R67: the operand is `zext_16(lo) + 256 * zext_16(hi)`, low byte first. -/
def Obligations.OperandAssembly : Prop :=
  (∀ lo hi : Byte, (assembleWord lo hi).toNat = lo.toNat + 256 * hi.toNat) ∧
  ∀ w : Word, ∃ lo hi, wordBytes w = [lo, hi] ∧ assembleWord lo hi = w

/-! ### Steps, ticks, reset -/

/-- 42_session_commands R170: in `IDLE`, with the bytes of the host decoding to a command, a step takes the command byte
(an event `Rx`) and runs the command. -/
def Obligations.StepRunsDecodedCommand : Prop :=
  ∀ (s : State) (i : Instr) (op : Byte) (rest : List Byte), s.resetIn = false → s.todo = [] →
    decode s.rx = .command i op rest → step s = exec i { s with rx := rest, trace := s.trace ++ [.rx op] }

/-- 20_memory R71, R72; 10_state R40: at a receive position, `IDLE` among them, with no byte there a step changes no
state; with a byte there the oldest one is removed and used; in a send with the link not ready a step changes no state.
The clause on sends follows R72 with decisions D20 and D32; that a blocked step answers the same state is the model's choice
(log entry 18). -/
def Obligations.BlockedStepChangesNothing : Prop :=
  ∀ s : State, s.resetIn = false →
    (s.inLinkRecv = true → s.rx = [] → step s = .next s ∧ tick s = .next s) ∧
    (∀ b more, s.rx = b :: more →
      (s.todo = [] →
        tick s = .next { s with rx := more, todo := commandCode (decodeByte b), trace := s.trace ++ [.rx b] }) ∧
      ∀ p rest, s.todo = .recv p :: rest →
        tick s = .next (receive p b { s with rx := more, todo := rest, trace := s.trace ++ [.rx b] })) ∧
    (s.sending.isSome = true → s.txRoom = some 0 → step s = .next s ∧ tick s = .next s)

/-- What a step does, a number of ticks of the machine at the grain of the trace (00_scope R13) does too: the same next state
is reached, or the same fault, and on the way the reset input stays as it is. That a step runs until the EBC blocks is
the model's choice (log entries 1 and 2). -/
def Obligations.StepIsTicks : Prop :=
  ∀ s : State,
    (∀ t, step s = .next t → ∃ n, ticks n s = .next t) ∧
    (∀ f, step s = .fault f → ∃ n, ticks n s = .fault f) ∧
    ∀ n u, ticks n s = .next u → u.resetIn = s.resetIn

/-- 70_reset_and_hazards R261, R262: the state after reset; nothing has been sent. The values are the spec's decisions
D8 and D9. -/
def Obligations.ResetValues : Prop :=
  State.reset.baseAddress = 0 ∧ State.reset.transferLength = 0 ∧ State.reset.progress = 0 ∧
  State.reset.bus.addrLo = 0 ∧ State.reset.bus.addrHi6 = 0 ∧ State.reset.bus.dout = Config.dataNeutral ∧
  State.reset.bus.dir = .input ∧ State.reset.bus.vpp = false ∧ State.reset.bus.ce = false ∧
  State.reset.bus.oe = false ∧ State.reset.bus.pgm = false ∧ State.reset.seq = .idle ∧ State.reset.tx = [] ∧
  State.reset.trace = []

/-- 70_reset_and_hazards R260, R261: with reset asserted, wherever the sequencer stands, a step leaves the session
registers, the bus and the sequencer at their reset values, sends nothing and leaves the waiting bytes in place; the same
holds at the instant the input is asserted, with no step in between, and after it is released again. That reset is
looked at first and leaves `rx` in place is decision D31 (log entry 16). -/
def Obligations.AssertedResetWins : Prop :=
  ∀ s : State,
    (s.resetIn = true → ∃ t, step s = .next t ∧ tick s = .next t ∧ t.resetIn = true ∧ resetFrom s t) ∧
    (s.environment (.resetInput true)).resetIn = true ∧ resetFrom s (s.environment (.resetInput true)) ∧
    ((s.environment (.resetInput true)).environment (.resetInput false)).resetIn = false ∧
    resetFrom s ((s.environment (.resetInput true)).environment (.resetInput false))

/-- 70_reset_and_hazards R260: reset takes nothing from the chip but the cell whose byte is being written: an
`IdealChip`'s cell at the address on the lines is left open if a Write-one-byte is under way, and no other cell is. It
rests on decision D31 (log entry 16). -/
def Obligations.ResetSpoilsAtMostOneCell : Prop :=
  ∀ s t : State, s.resetIn = true ∧ step s = .next t ∨ t = s.environment (.resetInput true) →
    t.chip.model = s.chip.model ∧ t.chip.cells = s.chip.cells ∧
    (s.chip.model = .ideal → ∀ a : Nat,
      a ∈ t.chip.unsettled ↔
        a ∈ s.chip.unsettled ∨ byteWriteUnderWay s.todo = true ∧ a = (Bus.chipAddr s.bus).toNat)

/-! ### Micro-operations -/

/-- 40_bus_driver R135: a tick that is no bus line (and no reset) leaves the bus as it is. The diagnostic patterns of
R177 and R178 count as bus lines (log entry 13). -/
def Obligations.OnlyBusLinesChangeTheBus : Prop :=
  ∀ s t : State, s.resetIn = false → tick s = .next t →
    (∀ a rest, s.todo = a :: rest → isBusLine a = false) → t.bus = s.bus

/-- 40_bus_driver R135: the session registers, the checksums, the block and the link are never touched by the Bus Driver. -/
def Obligations.BusLinesLeaveTheSession : Prop :=
  ∀ (s t : State) (a : Act) (rest : List Act), s.resetIn = false → s.todo = a :: rest → isBusLine a = true →
    tick s = .next t →
    t.todo = rest ∧ sameSession s t ∧ t.rx = s.rx ∧ t.tx = s.tx ∧ t.txRoom = s.txRoom ∧ t.crcIn = s.crcIn ∧
      t.crcOut = s.crcOut ∧ t.crc = s.crc ∧ t.blockSize = s.blockSize ∧ t.i = s.i ∧ t.attempt = s.attempt ∧
      t.cont = s.cont ∧ t.opLo = s.opLo ∧ t.block = s.block

/-- 00_scope R13, 10_state R29, R42: whatever a command does, the events it appends to the trace account for every byte
it took and sent and for every bus field. The trace is the spec's own device (decision D22); the event of a diagnostic
pattern is the model's (log entry 13). -/
def Obligations.TraceAccountsForCommand : Prop :=
  ∀ (i : Instr) (s t : State), exec i s = .next t → Accounted s t

/-- 40_bus_driver R124, R125 (entries U1, U2): `drive_data` puts its byte in the latch while the bus is an output; driving
with the bus as input, and sampling with the bus as output, are the two faults. -/
def Obligations.WrongDirectionFaults : Prop :=
  ∀ (s : State) (rest : List Act), s.resetIn = false →
    (∀ b, s.todo = .driveData b :: rest →
      (s.bus.dir = .output →
        tick s = .next { s with todo := rest, bus := { s.bus with dout := b }, trace := s.trace ++ [.dout b] }) ∧
      (s.bus.dir = .input → tick s = .fault .driveWhileInput)) ∧
    (∀ r, s.todo = .sampleData r :: rest → s.bus.dir = .output → tick s = .fault .sampleWhileOutput)

/-- 40_bus_driver R122, R123: the two mode switches, each with its events in order. That `enter_write_mode` leaves
`DOUT` is decision D12; the neutral value is open (D11, log entry 5). -/
def Obligations.ModeSwitches : Prop :=
  ∀ (s : State) (rest : List Act), s.resetIn = false →
    (s.todo = .enterWriteMode :: rest →
      tick s = .next { s with
        todo := rest, bus := { s.bus with vpp := true, dir := .output }, trace := s.trace ++ [.vpp true, .dir .output] }) ∧
    (s.todo = .enterReadMode :: rest →
      tick s = .next { s with
        todo := rest, bus := { s.bus with vpp := false, dout := Config.dataNeutral, dir := .input },
        trace := s.trace ++ [.vpp false, .dout Config.dataNeutral, .dir .input] })

/-- 20_memory R66: with the chip not driving the bus, a sample is whatever the environment answers next, and each
sample uses up an answer of its own; 70_reset_and_hazards R260 (entry U13): so is a sample of an `IdealChip`'s cell that a
reset has left open. It follows decisions D21 and D31; that the environment's answers are held in a list is the model's
choice (log entry 8). -/
def Obligations.OpenSampleIsAnyByte : Prop :=
  ∀ (s : State) (rest : List Act) (v : Byte) (vs : List Byte), s.resetIn = false → s.bus.dir = .input →
    s.todo = .sampleData .value :: rest → s.answers = v :: vs →
    (s.bus.ce = false ∨ s.bus.oe = false →
      tick s = .next { s with todo := rest, value := v, answers := vs, trace := s.trace ++ [.sample v] }) ∧
    (s.bus.ce = true → s.bus.oe = true → s.chip.model = .ideal →
      (Bus.chipAddr s.bus).toNat ∈ s.chip.unsettled →
      tick s = .next { s with
        todo := rest, value := v, answers := vs, trace := s.trace ++ [.sample v],
        chip := { s.chip with answered := s.chip.answered + 1 } })

/-- 20_memory R64, R65; 40_bus_driver R132 to R134: a program pulse, 95 microseconds long, to an `IdealChip` sets the
cell at the address on the lines to the byte on the bus and no other cell. That the cell changes at the end of the
strobe is the model's choice (log entry 11). -/
def Obligations.ProgramPulseStoresOneByte : Prop :=
  ∀ (s : State) (rest : List Act), s.resetIn = false → Bus.lines s.bus = writeLines → s.chip.model = .ideal →
    s.todo = .pgmAssert :: .wait Config.tPgm :: .pgmDeassert :: rest →
    ∃ t, ticks 3 s = .next t ∧ t.todo = rest ∧ t.bus = s.bus ∧
      t.trace = s.trace ++ [.pgm true, .wait 95, .pgm false] ∧
      ∀ a : Nat, t.chip.cells.read a =
        (if a = (Bus.chipAddr s.bus).toNat then some s.bus.dout else s.chip.cells.read a) ∧
        (a ∈ t.chip.unsettled ↔ a ∈ s.chip.unsettled ∧ a ≠ (Bus.chipAddr s.bus).toNat)

/-! ### The byte operations -/

/-- 41_byte_ops R150 to R154: from the lines it needs, a Write-one-byte makes 1 to 20 attempts, stops after the first
whose sample equals the data or after the 20th, returns the last sample, and leaves the lines as on entry. The test
after each attempt is the spec's decision D14. -/
def Obligations.WriteOneByteAttempts : Prop :=
  ∀ (s : State) (a : Word) (d : Byte) (rest : List Act), s.resetIn = false → Bus.lines s.bus = writeLines →
    s.todo = writeOneByteCode a d ++ rest →
    ∃ n t vs, ticks n s = .next t ∧ t.todo = rest ∧ attemptsFit d vs ∧ t.trace = s.trace ++ writeByteTrace a d vs ∧
      t.verifiedValue = returned vs ∧ t.attempt = vs.length ∧ Bus.lines t.bus = writeLines ∧ t.bus.dout = d ∧
      t.bus.addrLo = addrLoField a ∧ t.bus.addrHi6 = addrHiField a ∧ sameSession s t ∧ t.rx = s.rx ∧ t.tx = s.tx

/-- 41_byte_ops R154 (a), 20_memory R65: on an `IdealChip` one attempt is made, 116 microseconds of delay; the byte is
returned and stands in the cell; the other cells are unchanged. -/
def Obligations.WriteOneByteOnIdealChip : Prop :=
  ∀ (s : State) (a : Word) (d : Byte) (rest : List Act), s.resetIn = false → Bus.lines s.bus = writeLines →
    s.chip.model = .ideal → s.todo = writeOneByteCode a d ++ rest →
    ∃ n t, ticks n s = .next t ∧ t.todo = rest ∧ t.trace = s.trace ++ writeByteTrace a d [d] ∧
      t.elapsed = s.elapsed + 116 ∧ t.verifiedValue = d ∧
      ∀ k : Nat, t.chip.cells.read k = (if k = (chipAddrOf a).toNat then some d else s.chip.cells.read k) ∧
        (k ∈ t.chip.unsettled ↔ k ∈ s.chip.unsettled ∧ k ≠ (chipAddrOf a).toNat)

/-- 41_byte_ops R153, R154 (b); 20_memory R65: on a chip that never verifies exactly 20 attempts are made, 2130
microseconds of delay, and the last, incorrect, sample is returned. How the model tells a verify from a read is its own
choice (log entry 15). -/
def Obligations.WriteOneByteExhausts : Prop :=
  ∀ (s : State) (a : Word) (d : Byte) (rest : List Act), s.resetIn = false → Bus.lines s.bus = writeLines →
    s.chip.model = .neverVerify → s.todo = writeOneByteCode a d ++ rest →
    ∃ n t vs, ticks n s = .next t ∧ t.todo = rest ∧ vs.length = 20 ∧ (∀ v ∈ vs, v ≠ d) ∧
      t.trace = s.trace ++ writeByteTrace a d vs ∧ t.elapsed = s.elapsed + 2130 ∧ t.verifiedValue = returned vs ∧
      t.verifiedValue ≠ d

/-- 41_byte_ops R155, R156: from the lines it needs, a Read-one-byte sets the address `base_address +16 progress`,
samples once after 2 microseconds, and leaves the lines as on entry; the byte is the one the chip answers; 4
microseconds. The address is the spec's decision D27. -/
def Obligations.ReadOneByteSamplesOnce : Prop :=
  ∀ (s : State) (rest : List Act), s.resetIn = false → Bus.lines s.bus = readLines →
    s.todo = .callReadOneByte :: rest →
    ∃ n t, ticks n s = .next t ∧ t.todo = rest ∧
      t.trace = s.trace ++ readByteTrace (s.baseAddress + s.progress) t.value ∧
      t.elapsed = s.elapsed + 4 ∧ Bus.lines t.bus = readLines ∧
      Bus.chipAddr t.bus = chipAddrOf (s.baseAddress + s.progress) ∧ sameSession s t ∧ t.rx = s.rx ∧ t.tx = s.tx ∧
      (s.chip.model = .ideal → (chipAddrOf (s.baseAddress + s.progress)).toNat ∉ s.chip.unsettled →
        t.value = s.chip.cell (chipAddrOf (s.baseAddress + s.progress)).toNat)

/-! ### The commands -/

/-- 42_session_commands R172: `s` with both operand bytes there and the link ready: `base_address` takes the operand,
`progress` becomes 0, 0x01 is sent, and nothing else changes but `op_lo`, the link and the trace; with fewer bytes
there it waits, the registers unchanged. That the register is written after both bytes is the spec's decision D33. -/
def Obligations.SetAddrCompletes : Prop :=
  ∀ s : State,
    (∀ (lo hi : Byte) (rest : List Byte), s.rx = lo :: hi :: rest → roomFor s 1 →
      exec .setAddr s = .next { s with
        rx := rest, todo := [], opLo := lo, baseAddress := hi ++ lo, progress := 0, tx := s.tx ++ [0x01],
        txRoom := s.txRoom.map (· - 1), trace := s.trace ++ [.rx lo, .rx hi, .tx 0x01] }) ∧
    (s.rx = [] → exec .setAddr s = .next { s with todo := [.recv .sLo, .recv .sHi, .send .ack] }) ∧
    (∀ lo : Byte, s.rx = [lo] → exec .setAddr s = .next { s with
      rx := [], todo := [.recv .sHi, .send .ack], opLo := lo, trace := s.trace ++ [.rx lo] })

/-- 42_session_commands R173: `l` writes `transfer_length` only, and sends 0x01; with fewer bytes there it waits. That
the register is written after both bytes is the spec's decision D33. -/
def Obligations.SetLenCompletes : Prop :=
  ∀ s : State,
    (∀ (lo hi : Byte) (rest : List Byte), s.rx = lo :: hi :: rest → roomFor s 1 →
      exec .setLen s = .next { s with
        rx := rest, todo := [], opLo := lo, transferLength := hi ++ lo, tx := s.tx ++ [0x01],
        txRoom := s.txRoom.map (· - 1), trace := s.trace ++ [.rx lo, .rx hi, .tx 0x01] }) ∧
    (s.rx = [] → exec .setLen s = .next { s with todo := [.recv .lLo, .recv .lHi, .send .ack] }) ∧
    (∀ lo : Byte, s.rx = [lo] → exec .setLen s = .next { s with
      rx := [], todo := [.recv .lHi, .send .ack], opLo := lo, trace := s.trace ++ [.rx lo] })

/-- 30_encoding R95, 20_memory R71: with only the low operand byte there, `s` and `l` wait for the high one with their
register unchanged; when it comes, a step finishes the command. It rests on the spec's decision D33. -/
def Obligations.HalfOperandWaits : Prop :=
  ∀ (s : State) (lo hi : Byte), s.rx = [lo] → roomFor s 1 → s.resetIn = false →
    (∃ t, exec .setAddr s = .next t ∧ t.seq = .sHi ∧ sameSession s t ∧ t.tx = s.tx ∧
      ∃ u, step { t with rx := [hi] } = .next u ∧ u.seq = .idle ∧ u.baseAddress = assembleWord lo hi ∧ u.progress = 0 ∧
        u.transferLength = s.transferLength ∧ u.tx = s.tx ++ [0x01]) ∧
    (∃ t, exec .setLen s = .next t ∧ t.seq = .lHi ∧ sameSession s t ∧ t.tx = s.tx ∧
      ∃ u, step { t with rx := [hi] } = .next u ∧ u.seq = .idle ∧ u.transferLength = assembleWord lo hi ∧
        u.baseAddress = s.baseAddress ∧ u.progress = s.progress ∧ u.tx = s.tx ++ [0x01])

/-- 42_session_commands R174: `+` enters read mode, selects the chip, reads one byte at `base_address +16 progress`,
sends it, increments `progress`, deselects the chip, whatever `transfer_length` is; on an `IdealChip` the byte is the
cell's. The wrap and the missing bound are the spec's decisions D6 and D28. -/
def Obligations.Read1Completes : Prop :=
  ∀ s : State, roomFor s 1 →
    ∃ t v, exec .read1 s = .next t ∧ t.seq = .idle ∧ t.value = v ∧ t.tx = s.tx ++ [v] ∧ t.rx = s.rx ∧
      t.trace = s.trace ++ ([.vpp false, .dout Config.dataNeutral, .dir .input, .ce true] ++
        readByteTrace (s.baseAddress + s.progress) v ++ [.tx v, .ce false]) ∧
      t.baseAddress = s.baseAddress ∧ t.transferLength = s.transferLength ∧ t.progress = s.progress + 1 ∧
      t.bus = { s.bus with
        addrLo := addrLoField (s.baseAddress + s.progress), addrHi6 := addrHiField (s.baseAddress + s.progress),
        dout := Config.dataNeutral, dir := .input, vpp := false, ce := false, oe := false } ∧
      (s.chip.model = .ideal → (chipAddrOf (s.baseAddress + s.progress)).toNat ∉ s.chip.unsettled →
        v = s.chip.cell (chipAddrOf (s.baseAddress + s.progress)).toNat)

/-- 42_session_commands R176: `0` deselects the chip and clears `base_address` and `progress`; the address lines go to
0 if and only if the open parameter `REINIT_DRIVES_ADDRESS` says so; nothing else changes and nothing is sent. This
reading of the command is the spec's decision D17; the parameter is open (log entry 7). -/
def Obligations.ReinitCompletes : Prop :=
  ∀ s : State, exec .reinit s = .next { s with
    todo := [], baseAddress := 0, progress := 0
    bus := if Config.reinitDrivesAddress then { s.bus with ce := false, addrLo := 0, addrHi6 := 0 }
      else { s.bus with ce := false }
    trace := if Config.reinitDrivesAddress then s.trace ++ [.ce false, .addr 0 0] else s.trace ++ [.ce false] }

/-- 42_session_commands R177, R178: `1` and `2` set the eight bus and control fields to their patterns, send nothing,
take nothing more, and change nothing else of the EBC. What the model takes the chip to be afterwards is its own choice: no
chip model is named any more if the pattern asserts the strobe, and nothing else of it changes (log entry 12); the one event
of the pattern is the model's too (log entry 13). The patterns are open (decision D18, log entry 6). -/
def Obligations.DiagnosticsComplete : Prop :=
  ∀ s : State, ∃ t u,
    exec .diag1 s = .next t ∧
    t = { s with todo := [], bus := Config.diag1Pattern, chip := t.chip, trace := s.trace ++ [.pattern Config.diag1Pattern] } ∧
    chipAfterPattern Config.diag1Pattern s.chip t.chip ∧
    exec .diag2 s = .next u ∧
    u = { s with todo := [], bus := Config.diag2Pattern, chip := u.chip, trace := s.trace ++ [.pattern Config.diag2Pattern] } ∧
    chipAfterPattern Config.diag2Pattern s.chip u.chip

/-- 42_session_commands R179, R180: `x` and every unnamed byte are consumed with no effect: a step from `IDLE` takes
the byte and changes nothing but `rx` and the trace. It is the spec's decision D19. -/
def Obligations.NoOpsChangeNothing : Prop :=
  ∀ s : State, exec .xnop s = .next { s with todo := [] } ∧ (∀ op, exec (.ignored op) s = .next { s with todo := [] }) ∧
    ∀ (op : Byte) (rest : List Byte), s.resetIn = false → s.todo = [] → s.rx = op :: rest →
      (decodeByte op = .xnop ∨ decodeByte op = .ignored op) →
      step s = .next { s with rx := rest, trace := s.trace ++ [.rx op] }

/-- 43_transfer_engine R211, R212, R214: for any `transfer_length` and any chip, `r` takes no host byte, samples each byte
from `base_address` on and sends it before the next sample, then deselects the chip and sends the exclusive-or; it leaves
read mode, the chip deselected, the address lines at the last address read, and the Transfer Block as it was. -/
def Obligations.BulkReadRuns : Prop :=
  ∀ s : State, roomFor s (s.transferLength.toNat + 1) →
    ∃ t vs, exec .read s = .next t ∧ t.seq = .idle ∧ vs.length = s.transferLength.toNat ∧
      t.trace = s.trace ++ bulkReadTrace s.baseAddress vs ∧ t.tx = s.tx ++ vs ++ [xorAll vs] ∧ t.rx = s.rx ∧
      t.crc = xorAll vs ∧ t.progress = s.transferLength ∧ t.baseAddress = s.baseAddress ∧
      t.transferLength = s.transferLength ∧
      t.block = s.block ∧ t.elapsed = s.elapsed + 4 * s.transferLength.toNat ∧
      t.bus.dir = .input ∧ t.bus.vpp = false ∧ t.bus.ce = false ∧ (s.bus.oe = false → t.bus.oe = false) ∧
      t.bus.pgm = s.bus.pgm ∧
      (s.transferLength ≠ 0 → t.bus.oe = false ∧
        t.bus.addrLo = addrLoField (s.baseAddress + (s.transferLength - 1)) ∧
        t.bus.addrHi6 = addrHiField (s.baseAddress + (s.transferLength - 1)))

/-- 43_transfer_engine R212, 20_memory R65, 10_state R41: on an `IdealChip` the bytes sent are those of its cells from
`base_address` on, the address wrapping as R41 says, and the cells are unchanged. The wrap is the spec's decisions D4
and D6; what a cell holds before anything is known of it is a free value (log entry 10). -/
def Obligations.BulkReadOnIdealChip : Prop :=
  ∀ s : State, roomFor s (s.transferLength.toNat + 1) → s.chip.model = .ideal →
    (∀ k : Nat, k < s.transferLength.toNat →
      (chipAddrOf (s.baseAddress + BitVec.ofNat 16 k)).toNat ∉ s.chip.unsettled) →
    ∃ t, exec .read s = .next t ∧ sameCells s.chip t.chip ∧
      t.trace = s.trace ++ bulkReadTrace s.baseAddress (idealBytes s.chip s.baseAddress s.transferLength.toNat) ∧
      t.tx = s.tx ++ idealBytes s.chip s.baseAddress s.transferLength.toNat ++
        [xorAll (idealBytes s.chip s.baseAddress s.transferLength.toNat)]

/-- 20_memory R65: against `FixedReadChip(seq)` a Bulk Read streams the first `transfer_length` bytes of `seq` and
their exclusive-or. That samples count from the chip's selection is the model's choice (log entry 14). -/
def Obligations.BulkReadOnFixedReadChip : Prop :=
  ∀ (s : State) (seq : List Byte), roomFor s (s.transferLength.toNat + 1) → s.chip.model = .fixedRead seq →
    s.transferLength.toNat ≤ seq.length →
    ∃ t, exec .read s = .next t ∧
      t.tx = s.tx ++ seq.take s.transferLength.toNat ++ [xorAll (seq.take s.transferLength.toNat)]

/-- 43_transfer_engine R209 (a), R213 (a): transfers of length 0: `r` sends exactly one byte, 0; `d` sends exactly the
acknowledgment; no byte of the host is taken, no sample and no pulse is made, and `progress` is 0. R209 and R213 mark
their corner cases as derived. -/
def Obligations.ZeroLengthTransfers : Prop :=
  ∀ s : State, s.transferLength = 0 → roomFor s 1 →
    (∃ t, exec .read s = .next t ∧ t.seq = .idle ∧ t.progress = 0 ∧ t.rx = s.rx ∧
      t.trace = s.trace ++ [.vpp false, .dout Config.dataNeutral, .dir .input, .ce true, .ce false, .tx 0x00]) ∧
    (∃ t, exec .write s = .next t ∧ t.seq = .idle ∧ t.progress = 0 ∧ t.rx = s.rx ∧
      t.trace = s.trace ++ [.tx 0x01, .vpp true, .dir .output, .ce true, .oe false, .ce false, .vpp false,
        .dout Config.dataNeutral, .dir .input])

/-- 43_transfer_engine R200 to R208: for any `transfer_length`, any chip and any host stream that holds the blocks of
one `d`, completed or aborted at either point, the command runs to its end: its events are those of R208, `progress`
counts the bytes of the completed blocks, exactly its own bytes are taken, and read mode with the chip deselected is
left. The checksums of each block from 0 and the idle level of the entry's fourth line are decisions D15 and D16. -/
def Obligations.BulkWriteRuns : Prop :=
  ∀ (s : State) (bs : List WriteBlock) (rest : List Byte), blocksFit s.transferLength.toNat bs = true →
    s.rx = bs.flatMap WriteBlock.bytes ++ rest → roomFor s (1 + 4 * bs.length) →
    ∃ t os, exec .write s = .next t ∧ t.seq = .idle ∧ blocksSampled bs os ∧
      t.trace = s.trace ++ bulkWriteTrace s.baseAddress bs os ∧ t.rx = rest ∧
      t.progress = BitVec.ofNat 16 (completedBytes bs) ∧ t.baseAddress = s.baseAddress ∧
      t.transferLength = s.transferLength ∧ t.bus.dout = Config.dataNeutral ∧
      t.bus.dir = .input ∧ t.bus.vpp = false ∧ t.bus.ce = false ∧ t.bus.oe = false ∧
      (s.bus.pgm = false ∨ storedData bs ≠ [] → t.bus.pgm = false)

/-- 43_transfer_engine R210; 95_test_vectors E1, E5: on an `IdealChip` every byte verifies at once, so `crc_out` equals
`crc_in` in every block, and the cells hold the data of every block that was not aborted before its write phase. The
checksums of each block from 0 are the spec's decision D15. -/
def Obligations.BulkWriteOnIdealChip : Prop :=
  ∀ (s : State) (bs : List WriteBlock) (rest : List Byte), blocksFit s.transferLength.toNat bs = true →
    s.rx = bs.flatMap WriteBlock.bytes ++ rest → roomFor s (1 + 4 * bs.length) → s.chip.model = .ideal →
    ∃ t, exec .write s = .next t ∧
      t.trace = s.trace ++ bulkWriteTrace s.baseAddress bs (firstTimeSamples bs) ∧
      (noAbort bs → t.progress = s.transferLength ∧
        t.tx = s.tx ++ 0x01 :: bs.flatMap fun b => [0x01, xorAll b.data, 0x01, xorAll b.data]) ∧
      t.chip.cells = storeBytes s.chip.cells s.baseAddress (storedData bs) ∧
      ∀ a : Nat, a ∈ t.chip.unsettled ↔ a ∈ s.chip.unsettled ∧ ∀ k : Nat, k < (storedData bs).length →
        a ≠ (chipAddrOf (s.baseAddress + BitVec.ofNat 16 k)).toNat

/-- 43_transfer_engine R203, 60_exceptions R235; 95_test_vectors E5: an abort at the first point of the first block sends
nothing after the checksum, makes no pulse, leaves every cell, and leaves `progress` at 0. -/
def Obligations.AbortBeforeWritingABlock : Prop :=
  ∀ (s : State) (data rest : List Byte), s.transferLength ≠ 0 → data.length = min 512 s.transferLength.toNat →
    s.rx = data ++ 0xFF :: rest → roomFor s 3 →
    ∃ t, exec .write s = .next t ∧ t.seq = .idle ∧ t.rx = rest ∧ t.progress = 0 ∧
      t.tx = s.tx ++ [0x01, 0x01, xorAll data] ∧ sameCells s.chip t.chip ∧
      t.trace = s.trace ++ ([.tx 0x01, .vpp true, .dir .output, .ce true, .oe false] ++ data.map .rx ++
        [.tx 0x01, .tx (xorAll data), .rx 0xFF, .ce false, .vpp false, .dout Config.dataNeutral, .dir .input])

/-- 30_encoding R90, R94: every whole command that fits the session, once its byte has been taken, consumes exactly the
bytes that belong to it and is back in `IDLE` in one step. That one step runs the whole command is the model's choice
(log entries 1 and 2). -/
def Obligations.CommandConsumesItsFrame : Prop :=
  ∀ (s : State) (f : Frame) (rest : List Byte), f.fits s.transferLength = true → s.txRoom = none →
    s.rx = f.operandBytes ++ rest → ∃ t, exec f.instr s = .next t ∧ t.seq = .idle ∧ t.rx = rest ∧ t.txRoom = none

/-- 43_transfer_engine R201: at the loop test of a Bulk Write, with bytes left, the block size becomes the smaller of 512 and
what is left, between 1 and 512; at a block boundary that is 512 for all blocks but the last, and for the last the length
modulo 512, or 512; with no byte left the loop is over. -/
def Obligations.BlockSizeRule : Prop :=
  ∀ (s : State) (rest : List Act), s.resetIn = false → s.todo = .whileWrite :: rest →
    (s.progress.toNat < s.transferLength.toNat →
      tick s = .next { s with todo := writeBody ++ rest, blockSize := nextBlockSize s } ∧
      (nextBlockSize s).toNat = min 512 (s.transferLength.toNat - s.progress.toNat) ∧
      1 ≤ (nextBlockSize s).toNat ∧ (nextBlockSize s).toNat ≤ 512 ∧
      (s.progress.toNat % 512 = 0 →
        (nextBlockSize s).toNat =
          if s.progress.toNat + 512 < s.transferLength.toNat then 512
          else if s.transferLength.toNat % 512 = 0 then 512 else s.transferLength.toNat % 512)) ∧
    (s.transferLength.toNat ≤ s.progress.toNat → tick s = .next { s with todo := rest })

/-! ### Frames -/

/-- 42_session_commands R181, R172 to R180; 10_state R20 to R23: which command may change which session register, on
every path that answers a next state. R181 is a table the spec derives from R172 to R180. -/
def Obligations.SessionRegisterFrame : Prop :=
  ∀ (i : Instr) (s t : State), exec i s = .next t →
    (i ≠ .setAddr → i ≠ .reinit → t.baseAddress = s.baseAddress) ∧
    (i ≠ .setLen → t.transferLength = s.transferLength) ∧
    (i = .setLen ∨ i = .diag1 ∨ i = .diag2 ∨ i = .xnop ∨ (∃ op, i = .ignored op) → t.progress = s.progress)

/-- 42_session_commands R172, R173, R179, R180, R182: `s`, `l`, `x` and unnamed bytes leave the bus, the chip and the
registers of the transfers; `0` leaves all but the registers R176 names, `CE_enabled` and, by the open parameter, the
address. For `0` it rests on decision D17. -/
def Obligations.SessionCommandFrame : Prop :=
  ∀ (i : Instr) (s t : State), exec i s = .next t →
    (i = .setAddr ∨ i = .setLen ∨ i = .xnop ∨ (∃ op, i = .ignored op) →
      t.bus = s.bus ∧ sameEnvironment s t ∧ sameBlockRegisters s t ∧ t.crc = s.crc ∧ t.value = s.value) ∧
    (i = .reinit →
      t.bus.dout = s.bus.dout ∧ t.bus.dir = s.bus.dir ∧ t.bus.vpp = s.bus.vpp ∧ t.bus.oe = s.bus.oe ∧
        t.bus.pgm = s.bus.pgm ∧ sameEnvironment s t ∧ sameBlockRegisters s t ∧ t.crc = s.crc ∧ t.value = s.value ∧
        t.opLo = s.opLo ∧ t.rx = s.rx ∧ t.tx = s.tx)

/-- 43_transfer_engine R212, 42_session_commands R174: reads leave the registers and the buffer of a Bulk Write and `op_lo`;
`+` leaves `crc`; a Bulk Write leaves `crc`, `value` and `op_lo`. -/
def Obligations.TransferRegisterFrame : Prop :=
  ∀ (i : Instr) (s t : State), exec i s = .next t →
    (i = .read ∨ i = .read1 → sameBlockRegisters s t ∧ t.opLo = s.opLo) ∧
    (i = .read1 → t.crc = s.crc) ∧
    (i = .write → t.crc = s.crc ∧ t.value = s.value ∧ t.opLo = s.opLo)

/-- 20_memory R64, R60: no command but `d` changes any cell of the chip; of the two diagnostic commands the spec lets nothing
be assumed (R177), and that they leave the cells is the model's choice, which from there on names no chip model if the pattern
asserts the strobe (log entry 12). -/
def Obligations.OnlyWriteStores : Prop :=
  ∀ (i : Instr) (s t : State), exec i s = .next t → i ≠ .write → sameCells s.chip t.chip

/-- 43_transfer_engine R204, 20_memory R64: `d` stores only at the chip addresses of `base_address +16 k` for `k` below
`transfer_length`: every other cell is unchanged, on every path that answers a next state. -/
def Obligations.WriteStoresOnlyInRange : Prop :=
  ∀ (s t : State), exec .write s = .next t → ∀ a : Nat,
    (∀ k : Nat, k < s.transferLength.toNat → a ≠ (chipAddrOf (s.baseAddress + BitVec.ofNat 16 k)).toNat) →
    t.chip.cells.read a = s.chip.cells.read a ∧ (a ∈ t.chip.unsettled ↔ a ∈ s.chip.unsettled)

/-- 60_exceptions R240: no command but `d` and the diagnostic ones enables VPP or pulses PGM. -/
def Obligations.OnlyWriteRaisesVppOrPgm : Prop :=
  ∀ (i : Instr) (s t : State), exec i s = .next t → i ≠ .write → i ≠ .diag1 → i ≠ .diag2 →
    ∃ es, t.trace = s.trace ++ es ∧ Event.vpp true ∉ es ∧ Event.pgm true ∉ es ∧ ∀ p, Event.pattern p ∉ es

/-- 20_memory R62: the EBC depends on the chip only through sampled bytes: with another chip, whether and where a Bulk
Read or a `+` ends, what it takes, how much it sends, and the lines and session registers it leaves are the same. R62
carries the spec's decision D23. -/
def Obligations.ChipDecidesOnlySamples : Prop :=
  ∀ (i : Instr) (s s' t : State), i = .read ∨ i = .read1 → sameButChip s s' → exec i s = .next t →
    ∃ t', exec i s' = .next t' ∧ t'.todo = t.todo ∧ t'.rx = t.rx ∧ t'.tx.length = t.tx.length ∧ t'.bus = t.bus ∧
      sameSession t t'

/-- 20_memory R74, 70_reset_and_hazards R279: a host that sends more bytes early changes nothing: a command that
completes does the same with further bytes waiting behind its own, and leaves those in place. It rests on the spec's
decision D20. -/
def Obligations.EarlyHostBytesWait : Prop :=
  ∀ (i : Instr) (s t : State) (more : List Byte), exec i s = .next t → t.todo = [] →
    exec i { s with rx := s.rx ++ more } = .next { t with rx := t.rx ++ more }

/-! ### Invariants -/

/-- 40_bus_driver R120, R124, R125 (entries U1, U2): from every state with no wrong-direction line ahead, a step
answers a next state, which is again such a state: no contract violation is ever reached, diagnostic commands included.
The invariant is the model's own check of the lines still to run (log entry 1). -/
def Obligations.NoContractViolation : Prop :=
  ∀ s : State, s.directionSafe = true → ∃ t, step s = .next t ∧ t.directionSafe = true

/-- The reset state meets every invariant stated here. -/
def Obligations.ResetMeetsInvariants : Prop :=
  soundState State.reset ∧ State.reset.busDisciplined = true

/-- 70_reset_and_hazards R271: with no diagnostic command taken, every tick keeps the bus discipline: the invariants of
10_state R38 and R39 and the sequencing rules of R270 (b), (c) and R274; and no tick faults. That the address comes first
(R270 (a)) and how long the waits are (R272, R273) is in the traces that WriteOneByteAttempts and ReadOneByteSamplesOnce state.
The invariant is the model's own check of the lines still to run; R271 marks its claim as derived. -/
def Obligations.BusDisciplineKept : Prop :=
  ∀ s : State, s.busDisciplined = true → s.noDiagnosticNext = true → ∃ t, tick s = .next t ∧ t.busDisciplined = true

/-- 10_state R38, R39: in a disciplined state, at a program strobe VPP is on and the bus is driven; at a sample the bus is
an input and the chip drives it; and whenever the bus is driven, OE is off. -/
def Obligations.DisciplineMeansBusInvariants : Prop :=
  ∀ s : State, s.busDisciplined = true →
    (s.bus.dir = .output → s.bus.oe = false) ∧
    (∀ rest, s.todo = .pgmAssert :: rest → s.bus.dir = .output ∧ s.bus.vpp = true ∧ s.bus.ce = true) ∧
    (∀ r rest, s.todo = .sampleData r :: rest → s.bus.dir = .input ∧ s.bus.ce = true ∧ s.bus.oe = true)

/-- 42_session_commands R182: in `IDLE`, a disciplined bus is in read mode with the chip deselected. R182 marks it as
derived. -/
def Obligations.IdleBusIsReadMode : Prop :=
  ∀ s : State, s.busDisciplined = true → s.seq = .idle →
    s.bus.dir = .input ∧ s.bus.vpp = false ∧ s.bus.ce = false ∧ s.bus.oe = false ∧ s.bus.pgm = false

/-- 70_reset_and_hazards R276: in a disciplined state, from the entry of `d` until its loop is left, VPP and CE are on,
also while the EBC waits for the host. R276 marks it as derived. -/
def Obligations.WriteHoldsVppAndCe : Prop :=
  ∀ s : State, s.busDisciplined = true → s.todo.contains .whileWrite = true →
    s.todo.contains .enterWriteMode = false → s.todo.contains .chipEnable = false → s.bus.vpp = true ∧ s.bus.ce = true

/-- 43_transfer_engine R215, R201; 10_state R24, R26, R28: every tick keeps the bounds of a transfer. The invariant is
the model's own check of the lines still to run; R215 marks its reasons as derived. -/
def Obligations.TransferBoundsKept : Prop :=
  ∀ s t : State, s.transferBounded = true → tick s = .next t → t.transferBounded = true

/-- 43_transfer_engine R215: in a state within the bounds, `progress <= transfer_length` while a transfer's loop is not yet
left; and 10_state R28: a cell of the Transfer Block is staged or written only at an index below `block_size`. -/
def Obligations.ProgressWithinLength : Prop :=
  ∀ s : State, s.transferBounded = true →
    (s.inTransferLoop = true → s.progress.toNat ≤ s.transferLength.toNat) ∧
    (∀ rest, s.todo = .recv .wData :: rest ∨ s.todo = .callWriteOneByte :: rest →
      s.i.toNat < s.blockSize.toNat ∧ s.blockSize.toNat ≤ 512)

/-- The chip's cells keep their canonical form through every step (20_memory R60: 16384 byte cells). The canonical form
is the model's own (log entry 10). -/
def Obligations.MemoryFormKept : Prop :=
  ∀ s t : State, Memory.wf s.chip.cells → step s = .next t → Memory.wf t.chip.cells

/-- Nothing that the host, the link, the reset input or the chip socket does breaks an invariant. When such events can
fall is the model's choice (log entry 19). -/
def Obligations.EnvironmentKeepsInvariants : Prop :=
  ∀ (s : State) (e : EnvEvent), (soundState s → soundState (s.environment e)) ∧
    (s.busDisciplined = true → (s.environment e).busDisciplined = true)

/-- 40_bus_driver R134, 70_reset_and_hazards R272: a `Wait` changes nothing but time; whatever the clock period, a
delay counter rounds up: the wait is never shortened, and is less than one clock period too long. The rounded counter
is the spec's decision D2 (log entry 22). The period is any positive real number of microseconds. -/
def Obligations.WaitsAreNeverShortened : Prop :=
  (∀ (s : State) (us : Nat) (rest : List Act), s.resetIn = false → s.todo = .wait us :: rest →
    ∃ t, tick s = .next t ∧ t = { s with todo := rest, trace := s.trace ++ [.wait us] } ∧
      t.elapsed = s.elapsed + us) ∧
  ∀ (us : Nat) (tClk : ℝ), 0 < tClk → us ≤ waitCycles us tClk * tClk ∧ waitCycles us tClk * tClk < us + tClk
end

