-- ==== Sys2Proof/Laws/Memory.lean ====
section
/-! SUPPORT. The laws of memory: a read after a write, and the canonical form every write keeps. -/

namespace Sys2Proof.Machine

@[simp] theorem Memory.read_nil (a : Nat) : Memory.read [] a = none := rfl

@[simp] theorem Memory.read_cons (k : Nat) (v : Byte) (m : Memory) (a : Nat) :
    Memory.read ((k, v) :: m) a = if k = a then some v else Memory.read m a := rfl

/-- A read after a write: the written cell holds the byte, every other cell what it held. -/
theorem Memory.read_write (m : Memory) (a b : Nat) (v : Byte) :
    (m.write a v).read b = if b = a then some v else m.read b := by
  induction m with
  | nil => simp [Memory.write, eq_comm]
  | cons x rest ih =>
    obtain ⟨k, w⟩ := x
    unfold Memory.write
    split
    · by_cases h : b = a
      · simp [h]
      · simp [h, Ne.symm h]
    · split
      · rename_i _ hk
        subst hk
        by_cases h : b = a
        · simp [h]
        · simp [h, Ne.symm h]
      · rename_i _ hk
        by_cases h : b = a
        · subst h
          simp [ih, Ne.symm hk]
        · simp [ih, h]

/-- The addresses a write lists are those that were listed and the one written. -/
theorem Memory.mem_write (m : Memory) (a : Nat) (v : Byte) (x : Host.Cell) (h : x ∈ m.write a v) :
    x = (a, v) ∨ x ∈ m := by
  induction m with
  | nil => simpa [Memory.write] using h
  | cons y rest ih =>
    obtain ⟨k, w⟩ := y
    unfold Memory.write at h
    split at h
    · simpa using h
    · split at h
      · rcases List.mem_cons.mp h with h | h
        · exact .inl h
        · exact .inr (List.mem_cons_of_mem _ h)
      · rcases List.mem_cons.mp h with h | h
        · exact .inr (h ▸ List.mem_cons_self)
        · exact (ih h).imp_right (List.mem_cons_of_mem _)

/-- A write keeps the addresses strictly rising. -/
theorem Memory.pairwise_write (m : Memory) (a : Nat) (v : Byte) (h : m.Pairwise (fun x y => x.1 < y.1)) :
    (m.write a v).Pairwise (fun x y => x.1 < y.1) := by
  induction m with
  | nil => simp [Memory.write]
  | cons y rest ih =>
    obtain ⟨k, w⟩ := y
    obtain ⟨hy, hr⟩ := List.pairwise_cons.mp h
    unfold Memory.write
    split
    · rename_i hlt
      refine List.pairwise_cons.mpr ⟨fun x hx => ?_, h⟩
      rcases List.mem_cons.mp hx with rfl | hx
      · exact hlt
      · exact lt_trans hlt (hy x hx)
    · split
      · rename_i _ heq
        exact List.pairwise_cons.mpr ⟨fun x hx => heq ▸ hy x hx, hr⟩
      · rename_i hnlt hne
        refine List.pairwise_cons.mpr ⟨fun x hx => ?_, ih hr⟩
        rcases Memory.mem_write _ _ _ _ hx with rfl | hx
        · exact lt_of_le_of_ne (not_lt.mp hnlt) (Ne.symm hne)
        · exact hy x hx

/-- A write inside the chip space keeps the canonical form. -/
theorem Memory.wf_write (m : Memory) (a : Nat) (v : Byte) (ha : a < chipSpace) (h : m.wf) : (m.write a v).wf := by
  refine ⟨Memory.pairwise_write m a v h.1, fun x hx => ?_⟩
  rcases Memory.mem_write m a v x hx with rfl | hx
  · exact ha
  · exact h.2 x hx

/-- Reset memory has the canonical form. -/
theorem Memory.wf_nil : Memory.wf [] := ⟨List.Pairwise.nil, by simp⟩

/-- A chip address lies in the chip space. -/
theorem chipAddr_lt (a : ChipAddr) : a.toNat < chipSpace := a.isLt

end Sys2Proof.Machine
end

