-- ==== Sys2Proof/Laws/Chip.lean ====
section
/-! SUPPORT. The laws of the target chip: what a program pulse, a reset, a selection and a diagnostic pattern do to it, and
what it answers to a sample. -/

namespace Sys2Proof.Machine

@[simp] theorem Chip.select_leaves (c : Chip) :
    c.select.model = c.model ∧ c.select.cells = c.cells ∧ c.select.unsettled = c.unsettled ∧
      c.select.lastPulse = c.lastPulse := ⟨rfl, rfl, rfl, rfl⟩

@[simp] theorem Chip.afterPattern_leaves (c : Chip) (p : Bus) :
    (c.afterPattern p).cells = c.cells ∧ (c.afterPattern p).unsettled = c.unsettled ∧
      (c.afterPattern p).lastPulse = c.lastPulse ∧ (c.afterPattern p).answered = c.answered := ⟨rfl, rfl, rfl, rfl⟩

@[simp] theorem Chip.pulse_leaves (c : Chip) (a : Nat) (v : Byte) :
    (c.pulse a v).model = c.model ∧ (c.pulse a v).lastPulse = some v ∧ (c.pulse a v).answered = c.answered := by
  obtain ⟨m, _⟩ := c
  cases m <;> exact ⟨rfl, rfl, rfl⟩

/-- A pulse to an `IdealChip` writes its cell. -/
theorem Chip.pulse_ideal (c : Chip) (a b : Nat) (v : Byte) (h : c.model = .ideal) :
    (c.pulse a v).cells.read b = (if b = a then some v else c.cells.read b) ∧
      (b ∈ (c.pulse a v).unsettled ↔ b ∈ c.unsettled ∧ b ≠ a) := by
  simp [Chip.pulse, h, Memory.read_write]

/-- A pulse to any other chip leaves the cells as they are. -/
theorem Chip.pulse_other (c : Chip) (a : Nat) (v : Byte) (h : c.model ≠ .ideal) :
    (c.pulse a v).cells = c.cells ∧ (c.pulse a v).unsettled = c.unsettled := by
  obtain ⟨m, _⟩ := c
  cases m <;> first | exact absurd rfl h | exact ⟨rfl, rfl⟩

/-- A pulse inside the chip space keeps the canonical form of the cells. -/
theorem Chip.pulse_wf (c : Chip) (a : Nat) (v : Byte) (ha : a < chipSpace) (h : Memory.wf c.cells) :
    Memory.wf (c.pulse a v).cells := by
  obtain ⟨m, _⟩ := c
  cases m <;> first | exact h | exact Memory.wf_write _ _ _ ha h

@[simp] theorem Chip.spoil_leaves (c : Chip) (a : Nat) :
    (c.spoil a).model = c.model ∧ (c.spoil a).cells = c.cells ∧ (c.spoil a).lastPulse = c.lastPulse ∧
      (c.spoil a).answered = c.answered := by
  obtain ⟨m, _⟩ := c
  cases m <;> exact ⟨rfl, rfl, rfl, rfl⟩

/-- A reset in the middle of a byte leaves that cell open and no other. -/
theorem Chip.spoil_ideal (c : Chip) (a b : Nat) (h : c.model = .ideal) :
    b ∈ (c.spoil a).unsettled ↔ b ∈ c.unsettled ∨ b = a := by
  simp only [Chip.spoil, h]
  split
  · rename_i hc
    simp only [List.contains_eq_mem, decide_eq_true_eq] at hc
    exact ⟨.inl, fun hb => hb.elim id (· ▸ hc)⟩
  · simp [or_comm]

/-- The cells left open are listed without repeats. -/
theorem Chip.spoil_nodup (c : Chip) (a : Nat) (h : c.unsettled.Nodup) : (c.spoil a).unsettled.Nodup := by
  obtain ⟨m, _, u, _, _⟩ := c
  cases m <;> first | exact h | skip
  simp only [Chip.spoil]
  split
  · exact h
  · rename_i hc
    exact List.nodup_cons.mpr ⟨by simpa using hc, h⟩

/-- The cell of an `IdealChip` answers the byte it holds, unless a reset has left it open. -/
theorem chipAnswer_ideal (s : State) (h : s.chip.model = .ideal)
    (hu : (Bus.chipAddr s.bus).toNat ∉ s.chip.unsettled) :
    s.chipAnswer.1 = s.chip.cell (Bus.chipAddr s.bus).toNat := by
  simp [State.chipAnswer, h, hu]

/-- A cell read right after it has been pulsed holds the data. -/
theorem Chip.cell_pulse (c : Chip) (a : Nat) (v : Byte) (h : c.model = .ideal) : (c.pulse a v).cell a = v := by
  simp [Chip.pulse, h, Chip.cell, Memory.read_write]

end Sys2Proof.Machine
end

