-- ==== Sys2Proof/Laws/Environment.lean ====
section
/-! SUPPORT. What reset and the events outside the EBC leave as it was. -/

namespace Sys2Proof.Machine

/-- What reset leaves: the link, the trace, the open answers, and all of the chip but one cell. -/
@[simp] theorem assertReset_leaves (s : State) :
    s.assertReset.rx = s.rx ∧ s.assertReset.tx = s.tx ∧ s.assertReset.txRoom = s.txRoom ∧
    s.assertReset.trace = s.trace ∧ s.assertReset.resetIn = s.resetIn ∧ s.assertReset.answers = s.answers ∧
    s.assertReset.draws = s.draws :=
  ⟨rfl, rfl, rfl, rfl, rfl, rfl, rfl⟩

/-- What reset writes (spec 70_reset_and_hazards R261). -/
@[simp] theorem assertReset_writes (s : State) :
    s.assertReset.todo = [] ∧ s.assertReset.bus = busAtReset ∧ s.assertReset.baseAddress = 0 ∧
    s.assertReset.transferLength = 0 ∧ s.assertReset.progress = 0 ∧ s.assertReset.blockSize = 0 ∧
    s.assertReset.crcIn = 0 ∧ s.assertReset.crcOut = 0 ∧ s.assertReset.crc = 0 ∧ s.assertReset.i = 0 ∧
    s.assertReset.attempt = 0 ∧ s.assertReset.verifiedValue = 0 ∧ s.assertReset.value = 0 ∧ s.assertReset.cont = 0 ∧
    s.assertReset.opLo = 0 ∧ s.assertReset.block = State.reset.block :=
  ⟨rfl, rfl, rfl, rfl, rfl, rfl, rfl, rfl, rfl, rfl, rfl, rfl, rfl, rfl, rfl, rfl⟩

/-- What reset does to the chip. -/
theorem assertReset_chip (s : State) :
    s.assertReset.chip =
      if byteWriteUnderWay s.todo then s.chip.spoil (Bus.chipAddr s.bus).toNat else s.chip := rfl

@[simp] theorem assertReset_cells (s : State) :
    s.assertReset.chip.cells = s.chip.cells ∧ s.assertReset.chip.model = s.chip.model ∧
      s.assertReset.chip.lastPulse = s.chip.lastPulse ∧ s.assertReset.chip.answered = s.chip.answered := by
  rw [assertReset_chip]
  split <;> simp

/-- Once the EBC is reset, another instant of reset changes nothing. -/
theorem assertReset_idem (s : State) : s.assertReset.assertReset = s.assertReset := rfl

/-- Asserting the reset input resets the EBC at once; releasing it leaves that state (spec 70_reset_and_hazards R260). -/
theorem resetInput_on (s : State) : s.environment (.resetInput true) = { s.assertReset with resetIn := true } := rfl

theorem resetInput_pulse (s : State) :
    (s.environment (.resetInput true)).environment (.resetInput false) = { s.assertReset with resetIn := false } := rfl

/-- The host and the link touch nothing but `rx`, `tx` and the link's room. -/
theorem link_events (s : State) (bytes : List Byte) (n : Nat) (room : Option Nat) :
    s.environment (.hostSends bytes) = { s with rx := s.rx ++ bytes } ∧
    s.environment (.hostTakes n) = { s with tx := s.tx.drop n } ∧
    s.environment (.linkRoom room) = { s with txRoom := room } := ⟨rfl, rfl, rfl⟩

end Sys2Proof.Machine
end

