-- ==== Sys2Proof/Laws/State.lean ====
section
/-! SUPPORT. What each named operation leaves in each field of State: one lemma per operation for the fields it writes, one
for the fields it leaves, so that no later proof unfolds a record update. -/

namespace Sys2Proof.Machine

@[simp] theorem setAddress_writes (a : Word) (s : State) :
    (setAddress a s).bus = { s.bus with addrLo := addrLoField a, addrHi6 := addrHiField a } ∧
    (setAddress a s).trace = s.trace ++ [.addr (addrLoField a) (addrHiField a)] :=
  ⟨rfl, rfl⟩

@[simp] theorem setAddress_leaves (a : Word) (s : State) :
    (setAddress a s).baseAddress = s.baseAddress ∧ (setAddress a s).transferLength = s.transferLength ∧
    (setAddress a s).progress = s.progress ∧ (setAddress a s).blockSize = s.blockSize ∧
    (setAddress a s).crcIn = s.crcIn ∧ (setAddress a s).crcOut = s.crcOut ∧ (setAddress a s).crc = s.crc ∧
    (setAddress a s).i = s.i ∧ (setAddress a s).attempt = s.attempt ∧
    (setAddress a s).verifiedValue = s.verifiedValue ∧ (setAddress a s).value = s.value ∧
    (setAddress a s).cont = s.cont ∧ (setAddress a s).opLo = s.opLo ∧ (setAddress a s).block = s.block ∧
    (setAddress a s).todo = s.todo ∧ (setAddress a s).rx = s.rx ∧ (setAddress a s).tx = s.tx ∧
    (setAddress a s).txRoom = s.txRoom ∧ (setAddress a s).chip = s.chip ∧ (setAddress a s).resetIn = s.resetIn ∧
    (setAddress a s).answers = s.answers ∧ (setAddress a s).draws = s.draws :=
  ⟨rfl, rfl, rfl, rfl, rfl, rfl, rfl, rfl, rfl, rfl, rfl, rfl, rfl, rfl, rfl, rfl, rfl, rfl, rfl, rfl, rfl, rfl⟩

@[simp] theorem enterWriteMode_writes (s : State) :
    (enterWriteMode s).bus = { s.bus with vpp := true, dir := .output } ∧
    (enterWriteMode s).trace = s.trace ++ [.vpp true, .dir .output] :=
  ⟨rfl, rfl⟩

@[simp] theorem enterWriteMode_leaves (s : State) :
    (enterWriteMode s).baseAddress = s.baseAddress ∧ (enterWriteMode s).transferLength = s.transferLength ∧
    (enterWriteMode s).progress = s.progress ∧ (enterWriteMode s).blockSize = s.blockSize ∧
    (enterWriteMode s).crcIn = s.crcIn ∧ (enterWriteMode s).crcOut = s.crcOut ∧ (enterWriteMode s).crc = s.crc ∧
    (enterWriteMode s).i = s.i ∧ (enterWriteMode s).attempt = s.attempt ∧
    (enterWriteMode s).verifiedValue = s.verifiedValue ∧ (enterWriteMode s).value = s.value ∧
    (enterWriteMode s).cont = s.cont ∧ (enterWriteMode s).opLo = s.opLo ∧ (enterWriteMode s).block = s.block ∧
    (enterWriteMode s).todo = s.todo ∧ (enterWriteMode s).rx = s.rx ∧ (enterWriteMode s).tx = s.tx ∧
    (enterWriteMode s).txRoom = s.txRoom ∧ (enterWriteMode s).chip = s.chip ∧
    (enterWriteMode s).resetIn = s.resetIn ∧ (enterWriteMode s).answers = s.answers ∧
    (enterWriteMode s).draws = s.draws :=
  ⟨rfl, rfl, rfl, rfl, rfl, rfl, rfl, rfl, rfl, rfl, rfl, rfl, rfl, rfl, rfl, rfl, rfl, rfl, rfl, rfl, rfl, rfl⟩

@[simp] theorem enterReadMode_writes (s : State) :
    (enterReadMode s).bus = { s.bus with vpp := false, dout := Config.dataNeutral, dir := .input } ∧
    (enterReadMode s).trace = s.trace ++ [.vpp false, .dout Config.dataNeutral, .dir .input] :=
  ⟨rfl, rfl⟩

@[simp] theorem enterReadMode_leaves (s : State) :
    (enterReadMode s).baseAddress = s.baseAddress ∧ (enterReadMode s).transferLength = s.transferLength ∧
    (enterReadMode s).progress = s.progress ∧ (enterReadMode s).blockSize = s.blockSize ∧
    (enterReadMode s).crcIn = s.crcIn ∧ (enterReadMode s).crcOut = s.crcOut ∧ (enterReadMode s).crc = s.crc ∧
    (enterReadMode s).i = s.i ∧ (enterReadMode s).attempt = s.attempt ∧
    (enterReadMode s).verifiedValue = s.verifiedValue ∧ (enterReadMode s).value = s.value ∧
    (enterReadMode s).cont = s.cont ∧ (enterReadMode s).opLo = s.opLo ∧ (enterReadMode s).block = s.block ∧
    (enterReadMode s).todo = s.todo ∧ (enterReadMode s).rx = s.rx ∧ (enterReadMode s).tx = s.tx ∧
    (enterReadMode s).txRoom = s.txRoom ∧ (enterReadMode s).chip = s.chip ∧ (enterReadMode s).resetIn = s.resetIn ∧
    (enterReadMode s).answers = s.answers ∧ (enterReadMode s).draws = s.draws :=
  ⟨rfl, rfl, rfl, rfl, rfl, rfl, rfl, rfl, rfl, rfl, rfl, rfl, rfl, rfl, rfl, rfl, rfl, rfl, rfl, rfl, rfl, rfl⟩

@[simp] theorem driveData_writes (b : Byte) (s : State) :
    (driveData b s).bus = { s.bus with dout := b } ∧
    (driveData b s).trace = s.trace ++ [.dout b] :=
  ⟨rfl, rfl⟩

@[simp] theorem driveData_leaves (b : Byte) (s : State) :
    (driveData b s).baseAddress = s.baseAddress ∧ (driveData b s).transferLength = s.transferLength ∧
    (driveData b s).progress = s.progress ∧ (driveData b s).blockSize = s.blockSize ∧
    (driveData b s).crcIn = s.crcIn ∧ (driveData b s).crcOut = s.crcOut ∧ (driveData b s).crc = s.crc ∧
    (driveData b s).i = s.i ∧ (driveData b s).attempt = s.attempt ∧
    (driveData b s).verifiedValue = s.verifiedValue ∧ (driveData b s).value = s.value ∧
    (driveData b s).cont = s.cont ∧ (driveData b s).opLo = s.opLo ∧ (driveData b s).block = s.block ∧
    (driveData b s).todo = s.todo ∧ (driveData b s).rx = s.rx ∧ (driveData b s).tx = s.tx ∧
    (driveData b s).txRoom = s.txRoom ∧ (driveData b s).chip = s.chip ∧ (driveData b s).resetIn = s.resetIn ∧
    (driveData b s).answers = s.answers ∧ (driveData b s).draws = s.draws :=
  ⟨rfl, rfl, rfl, rfl, rfl, rfl, rfl, rfl, rfl, rfl, rfl, rfl, rfl, rfl, rfl, rfl, rfl, rfl, rfl, rfl, rfl, rfl⟩

@[simp] theorem busToInput_writes (s : State) :
    (busToInput s).bus = { s.bus with dir := .input } ∧
    (busToInput s).trace = s.trace ++ [.dir .input] :=
  ⟨rfl, rfl⟩

@[simp] theorem busToInput_leaves (s : State) :
    (busToInput s).baseAddress = s.baseAddress ∧ (busToInput s).transferLength = s.transferLength ∧
    (busToInput s).progress = s.progress ∧ (busToInput s).blockSize = s.blockSize ∧
    (busToInput s).crcIn = s.crcIn ∧ (busToInput s).crcOut = s.crcOut ∧ (busToInput s).crc = s.crc ∧
    (busToInput s).i = s.i ∧ (busToInput s).attempt = s.attempt ∧ (busToInput s).verifiedValue = s.verifiedValue ∧
    (busToInput s).value = s.value ∧ (busToInput s).cont = s.cont ∧ (busToInput s).opLo = s.opLo ∧
    (busToInput s).block = s.block ∧ (busToInput s).todo = s.todo ∧ (busToInput s).rx = s.rx ∧
    (busToInput s).tx = s.tx ∧ (busToInput s).txRoom = s.txRoom ∧ (busToInput s).chip = s.chip ∧
    (busToInput s).resetIn = s.resetIn ∧ (busToInput s).answers = s.answers ∧ (busToInput s).draws = s.draws :=
  ⟨rfl, rfl, rfl, rfl, rfl, rfl, rfl, rfl, rfl, rfl, rfl, rfl, rfl, rfl, rfl, rfl, rfl, rfl, rfl, rfl, rfl, rfl⟩

@[simp] theorem busToOutput_writes (s : State) :
    (busToOutput s).bus = { s.bus with dir := .output } ∧
    (busToOutput s).trace = s.trace ++ [.dir .output] :=
  ⟨rfl, rfl⟩

@[simp] theorem busToOutput_leaves (s : State) :
    (busToOutput s).baseAddress = s.baseAddress ∧ (busToOutput s).transferLength = s.transferLength ∧
    (busToOutput s).progress = s.progress ∧ (busToOutput s).blockSize = s.blockSize ∧
    (busToOutput s).crcIn = s.crcIn ∧ (busToOutput s).crcOut = s.crcOut ∧ (busToOutput s).crc = s.crc ∧
    (busToOutput s).i = s.i ∧ (busToOutput s).attempt = s.attempt ∧
    (busToOutput s).verifiedValue = s.verifiedValue ∧ (busToOutput s).value = s.value ∧
    (busToOutput s).cont = s.cont ∧ (busToOutput s).opLo = s.opLo ∧ (busToOutput s).block = s.block ∧
    (busToOutput s).todo = s.todo ∧ (busToOutput s).rx = s.rx ∧ (busToOutput s).tx = s.tx ∧
    (busToOutput s).txRoom = s.txRoom ∧ (busToOutput s).chip = s.chip ∧ (busToOutput s).resetIn = s.resetIn ∧
    (busToOutput s).answers = s.answers ∧ (busToOutput s).draws = s.draws :=
  ⟨rfl, rfl, rfl, rfl, rfl, rfl, rfl, rfl, rfl, rfl, rfl, rfl, rfl, rfl, rfl, rfl, rfl, rfl, rfl, rfl, rfl, rfl⟩

@[simp] theorem chipEnable_writes (s : State) :
    (chipEnable s).bus = { s.bus with ce := true } ∧
    (chipEnable s).chip = s.chip.select ∧
    (chipEnable s).trace = s.trace ++ [.ce true] :=
  ⟨rfl, rfl, rfl⟩

@[simp] theorem chipEnable_leaves (s : State) :
    (chipEnable s).baseAddress = s.baseAddress ∧ (chipEnable s).transferLength = s.transferLength ∧
    (chipEnable s).progress = s.progress ∧ (chipEnable s).blockSize = s.blockSize ∧
    (chipEnable s).crcIn = s.crcIn ∧ (chipEnable s).crcOut = s.crcOut ∧ (chipEnable s).crc = s.crc ∧
    (chipEnable s).i = s.i ∧ (chipEnable s).attempt = s.attempt ∧ (chipEnable s).verifiedValue = s.verifiedValue ∧
    (chipEnable s).value = s.value ∧ (chipEnable s).cont = s.cont ∧ (chipEnable s).opLo = s.opLo ∧
    (chipEnable s).block = s.block ∧ (chipEnable s).todo = s.todo ∧ (chipEnable s).rx = s.rx ∧
    (chipEnable s).tx = s.tx ∧ (chipEnable s).txRoom = s.txRoom ∧ (chipEnable s).resetIn = s.resetIn ∧
    (chipEnable s).answers = s.answers ∧ (chipEnable s).draws = s.draws :=
  ⟨rfl, rfl, rfl, rfl, rfl, rfl, rfl, rfl, rfl, rfl, rfl, rfl, rfl, rfl, rfl, rfl, rfl, rfl, rfl, rfl, rfl⟩

@[simp] theorem chipDisable_writes (s : State) :
    (chipDisable s).bus = { s.bus with ce := false } ∧
    (chipDisable s).trace = s.trace ++ [.ce false] :=
  ⟨rfl, rfl⟩

@[simp] theorem chipDisable_leaves (s : State) :
    (chipDisable s).baseAddress = s.baseAddress ∧ (chipDisable s).transferLength = s.transferLength ∧
    (chipDisable s).progress = s.progress ∧ (chipDisable s).blockSize = s.blockSize ∧
    (chipDisable s).crcIn = s.crcIn ∧ (chipDisable s).crcOut = s.crcOut ∧ (chipDisable s).crc = s.crc ∧
    (chipDisable s).i = s.i ∧ (chipDisable s).attempt = s.attempt ∧
    (chipDisable s).verifiedValue = s.verifiedValue ∧ (chipDisable s).value = s.value ∧
    (chipDisable s).cont = s.cont ∧ (chipDisable s).opLo = s.opLo ∧ (chipDisable s).block = s.block ∧
    (chipDisable s).todo = s.todo ∧ (chipDisable s).rx = s.rx ∧ (chipDisable s).tx = s.tx ∧
    (chipDisable s).txRoom = s.txRoom ∧ (chipDisable s).chip = s.chip ∧ (chipDisable s).resetIn = s.resetIn ∧
    (chipDisable s).answers = s.answers ∧ (chipDisable s).draws = s.draws :=
  ⟨rfl, rfl, rfl, rfl, rfl, rfl, rfl, rfl, rfl, rfl, rfl, rfl, rfl, rfl, rfl, rfl, rfl, rfl, rfl, rfl, rfl, rfl⟩

@[simp] theorem oeAssert_writes (s : State) :
    (oeAssert s).bus = { s.bus with oe := true } ∧
    (oeAssert s).trace = s.trace ++ [.oe true] :=
  ⟨rfl, rfl⟩

@[simp] theorem oeAssert_leaves (s : State) :
    (oeAssert s).baseAddress = s.baseAddress ∧ (oeAssert s).transferLength = s.transferLength ∧
    (oeAssert s).progress = s.progress ∧ (oeAssert s).blockSize = s.blockSize ∧ (oeAssert s).crcIn = s.crcIn ∧
    (oeAssert s).crcOut = s.crcOut ∧ (oeAssert s).crc = s.crc ∧ (oeAssert s).i = s.i ∧
    (oeAssert s).attempt = s.attempt ∧ (oeAssert s).verifiedValue = s.verifiedValue ∧
    (oeAssert s).value = s.value ∧ (oeAssert s).cont = s.cont ∧ (oeAssert s).opLo = s.opLo ∧
    (oeAssert s).block = s.block ∧ (oeAssert s).todo = s.todo ∧ (oeAssert s).rx = s.rx ∧ (oeAssert s).tx = s.tx ∧
    (oeAssert s).txRoom = s.txRoom ∧ (oeAssert s).chip = s.chip ∧ (oeAssert s).resetIn = s.resetIn ∧
    (oeAssert s).answers = s.answers ∧ (oeAssert s).draws = s.draws :=
  ⟨rfl, rfl, rfl, rfl, rfl, rfl, rfl, rfl, rfl, rfl, rfl, rfl, rfl, rfl, rfl, rfl, rfl, rfl, rfl, rfl, rfl, rfl⟩

@[simp] theorem oeDeassert_writes (s : State) :
    (oeDeassert s).bus = { s.bus with oe := false } ∧
    (oeDeassert s).trace = s.trace ++ [.oe false] :=
  ⟨rfl, rfl⟩

@[simp] theorem oeDeassert_leaves (s : State) :
    (oeDeassert s).baseAddress = s.baseAddress ∧ (oeDeassert s).transferLength = s.transferLength ∧
    (oeDeassert s).progress = s.progress ∧ (oeDeassert s).blockSize = s.blockSize ∧
    (oeDeassert s).crcIn = s.crcIn ∧ (oeDeassert s).crcOut = s.crcOut ∧ (oeDeassert s).crc = s.crc ∧
    (oeDeassert s).i = s.i ∧ (oeDeassert s).attempt = s.attempt ∧ (oeDeassert s).verifiedValue = s.verifiedValue ∧
    (oeDeassert s).value = s.value ∧ (oeDeassert s).cont = s.cont ∧ (oeDeassert s).opLo = s.opLo ∧
    (oeDeassert s).block = s.block ∧ (oeDeassert s).todo = s.todo ∧ (oeDeassert s).rx = s.rx ∧
    (oeDeassert s).tx = s.tx ∧ (oeDeassert s).txRoom = s.txRoom ∧ (oeDeassert s).chip = s.chip ∧
    (oeDeassert s).resetIn = s.resetIn ∧ (oeDeassert s).answers = s.answers ∧ (oeDeassert s).draws = s.draws :=
  ⟨rfl, rfl, rfl, rfl, rfl, rfl, rfl, rfl, rfl, rfl, rfl, rfl, rfl, rfl, rfl, rfl, rfl, rfl, rfl, rfl, rfl, rfl⟩

@[simp] theorem pgmAssert_writes (s : State) :
    (pgmAssert s).bus = { s.bus with pgm := true } ∧
    (pgmAssert s).trace = s.trace ++ [.pgm true] :=
  ⟨rfl, rfl⟩

@[simp] theorem pgmAssert_leaves (s : State) :
    (pgmAssert s).baseAddress = s.baseAddress ∧ (pgmAssert s).transferLength = s.transferLength ∧
    (pgmAssert s).progress = s.progress ∧ (pgmAssert s).blockSize = s.blockSize ∧ (pgmAssert s).crcIn = s.crcIn ∧
    (pgmAssert s).crcOut = s.crcOut ∧ (pgmAssert s).crc = s.crc ∧ (pgmAssert s).i = s.i ∧
    (pgmAssert s).attempt = s.attempt ∧ (pgmAssert s).verifiedValue = s.verifiedValue ∧
    (pgmAssert s).value = s.value ∧ (pgmAssert s).cont = s.cont ∧ (pgmAssert s).opLo = s.opLo ∧
    (pgmAssert s).block = s.block ∧ (pgmAssert s).todo = s.todo ∧ (pgmAssert s).rx = s.rx ∧
    (pgmAssert s).tx = s.tx ∧ (pgmAssert s).txRoom = s.txRoom ∧ (pgmAssert s).chip = s.chip ∧
    (pgmAssert s).resetIn = s.resetIn ∧ (pgmAssert s).answers = s.answers ∧ (pgmAssert s).draws = s.draws :=
  ⟨rfl, rfl, rfl, rfl, rfl, rfl, rfl, rfl, rfl, rfl, rfl, rfl, rfl, rfl, rfl, rfl, rfl, rfl, rfl, rfl, rfl, rfl⟩

@[simp] theorem pgmDeassert_writes (s : State) :
    (pgmDeassert s).bus = { s.bus with pgm := false } ∧
    (pgmDeassert s).chip =
      (if s.bus.pgm && Bus.pulseArmed s.bus then s.chip.pulse (Bus.chipAddr s.bus).toNat s.bus.dout else s.chip) ∧
    (pgmDeassert s).trace = s.trace ++ [.pgm false] :=
  ⟨rfl, rfl, rfl⟩

@[simp] theorem pgmDeassert_leaves (s : State) :
    (pgmDeassert s).baseAddress = s.baseAddress ∧ (pgmDeassert s).transferLength = s.transferLength ∧
    (pgmDeassert s).progress = s.progress ∧ (pgmDeassert s).blockSize = s.blockSize ∧
    (pgmDeassert s).crcIn = s.crcIn ∧ (pgmDeassert s).crcOut = s.crcOut ∧ (pgmDeassert s).crc = s.crc ∧
    (pgmDeassert s).i = s.i ∧ (pgmDeassert s).attempt = s.attempt ∧
    (pgmDeassert s).verifiedValue = s.verifiedValue ∧ (pgmDeassert s).value = s.value ∧
    (pgmDeassert s).cont = s.cont ∧ (pgmDeassert s).opLo = s.opLo ∧ (pgmDeassert s).block = s.block ∧
    (pgmDeassert s).todo = s.todo ∧ (pgmDeassert s).rx = s.rx ∧ (pgmDeassert s).tx = s.tx ∧
    (pgmDeassert s).txRoom = s.txRoom ∧ (pgmDeassert s).resetIn = s.resetIn ∧ (pgmDeassert s).answers = s.answers ∧
    (pgmDeassert s).draws = s.draws :=
  ⟨rfl, rfl, rfl, rfl, rfl, rfl, rfl, rfl, rfl, rfl, rfl, rfl, rfl, rfl, rfl, rfl, rfl, rfl, rfl, rfl, rfl⟩

@[simp] theorem wait_writes (us : Nat) (s : State) :
    (wait us s).trace = s.trace ++ [.wait us] :=
  rfl

@[simp] theorem wait_leaves (us : Nat) (s : State) :
    (wait us s).baseAddress = s.baseAddress ∧ (wait us s).transferLength = s.transferLength ∧
    (wait us s).progress = s.progress ∧ (wait us s).blockSize = s.blockSize ∧ (wait us s).crcIn = s.crcIn ∧
    (wait us s).crcOut = s.crcOut ∧ (wait us s).crc = s.crc ∧ (wait us s).i = s.i ∧
    (wait us s).attempt = s.attempt ∧ (wait us s).verifiedValue = s.verifiedValue ∧ (wait us s).value = s.value ∧
    (wait us s).cont = s.cont ∧ (wait us s).opLo = s.opLo ∧ (wait us s).block = s.block ∧ (wait us s).bus = s.bus ∧
    (wait us s).todo = s.todo ∧ (wait us s).rx = s.rx ∧ (wait us s).tx = s.tx ∧ (wait us s).txRoom = s.txRoom ∧
    (wait us s).chip = s.chip ∧ (wait us s).resetIn = s.resetIn ∧ (wait us s).answers = s.answers ∧
    (wait us s).draws = s.draws :=
  ⟨rfl, rfl, rfl, rfl, rfl, rfl, rfl, rfl, rfl, rfl, rfl, rfl, rfl, rfl, rfl, rfl, rfl, rfl, rfl, rfl, rfl, rfl, rfl⟩

@[simp] theorem applyPattern_writes (p : Bus) (s : State) :
    (applyPattern p s).bus = p ∧
    (applyPattern p s).chip = s.chip.afterPattern p ∧
    (applyPattern p s).trace = s.trace ++ [.pattern p] :=
  ⟨rfl, rfl, rfl⟩

@[simp] theorem applyPattern_leaves (p : Bus) (s : State) :
    (applyPattern p s).baseAddress = s.baseAddress ∧ (applyPattern p s).transferLength = s.transferLength ∧
    (applyPattern p s).progress = s.progress ∧ (applyPattern p s).blockSize = s.blockSize ∧
    (applyPattern p s).crcIn = s.crcIn ∧ (applyPattern p s).crcOut = s.crcOut ∧ (applyPattern p s).crc = s.crc ∧
    (applyPattern p s).i = s.i ∧ (applyPattern p s).attempt = s.attempt ∧
    (applyPattern p s).verifiedValue = s.verifiedValue ∧ (applyPattern p s).value = s.value ∧
    (applyPattern p s).cont = s.cont ∧ (applyPattern p s).opLo = s.opLo ∧ (applyPattern p s).block = s.block ∧
    (applyPattern p s).todo = s.todo ∧ (applyPattern p s).rx = s.rx ∧ (applyPattern p s).tx = s.tx ∧
    (applyPattern p s).txRoom = s.txRoom ∧ (applyPattern p s).resetIn = s.resetIn ∧
    (applyPattern p s).answers = s.answers ∧ (applyPattern p s).draws = s.draws :=
  ⟨rfl, rfl, rfl, rfl, rfl, rfl, rfl, rfl, rfl, rfl, rfl, rfl, rfl, rfl, rfl, rfl, rfl, rfl, rfl, rfl, rfl⟩

@[simp] theorem reinitAddress_writes (s : State) :
    (reinitAddress s).bus =
      (if Config.reinitDrivesAddress then { s.bus with addrLo := addrLoField 0, addrHi6 := addrHiField 0 } else s.bus) ∧
    (reinitAddress s).trace =
      (if Config.reinitDrivesAddress then s.trace ++ [.addr (addrLoField 0) (addrHiField 0)] else s.trace) :=
  ⟨rfl, rfl⟩

@[simp] theorem reinitAddress_leaves (s : State) :
    (reinitAddress s).baseAddress = s.baseAddress ∧ (reinitAddress s).transferLength = s.transferLength ∧
    (reinitAddress s).progress = s.progress ∧ (reinitAddress s).blockSize = s.blockSize ∧
    (reinitAddress s).crcIn = s.crcIn ∧ (reinitAddress s).crcOut = s.crcOut ∧ (reinitAddress s).crc = s.crc ∧
    (reinitAddress s).i = s.i ∧ (reinitAddress s).attempt = s.attempt ∧
    (reinitAddress s).verifiedValue = s.verifiedValue ∧ (reinitAddress s).value = s.value ∧
    (reinitAddress s).cont = s.cont ∧ (reinitAddress s).opLo = s.opLo ∧ (reinitAddress s).block = s.block ∧
    (reinitAddress s).todo = s.todo ∧ (reinitAddress s).rx = s.rx ∧ (reinitAddress s).tx = s.tx ∧
    (reinitAddress s).txRoom = s.txRoom ∧ (reinitAddress s).chip = s.chip ∧ (reinitAddress s).resetIn = s.resetIn ∧
    (reinitAddress s).answers = s.answers ∧ (reinitAddress s).draws = s.draws :=
  ⟨rfl, rfl, rfl, rfl, rfl, rfl, rfl, rfl, rfl, rfl, rfl, rfl, rfl, rfl, rfl, rfl, rfl, rfl, rfl, rfl, rfl, rfl⟩

@[simp] theorem stageByte_writes (b : Byte) (s : State) :
    (stageByte b s).block = s.block.set (blockCell s.i).val b (blockCell s.i).isLt :=
  rfl

@[simp] theorem stageByte_leaves (b : Byte) (s : State) :
    (stageByte b s).baseAddress = s.baseAddress ∧ (stageByte b s).transferLength = s.transferLength ∧
    (stageByte b s).progress = s.progress ∧ (stageByte b s).blockSize = s.blockSize ∧
    (stageByte b s).crcIn = s.crcIn ∧ (stageByte b s).crcOut = s.crcOut ∧ (stageByte b s).crc = s.crc ∧
    (stageByte b s).i = s.i ∧ (stageByte b s).attempt = s.attempt ∧
    (stageByte b s).verifiedValue = s.verifiedValue ∧ (stageByte b s).value = s.value ∧
    (stageByte b s).cont = s.cont ∧ (stageByte b s).opLo = s.opLo ∧ (stageByte b s).bus = s.bus ∧
    (stageByte b s).todo = s.todo ∧ (stageByte b s).rx = s.rx ∧ (stageByte b s).tx = s.tx ∧
    (stageByte b s).txRoom = s.txRoom ∧ (stageByte b s).chip = s.chip ∧ (stageByte b s).trace = s.trace ∧
    (stageByte b s).resetIn = s.resetIn ∧ (stageByte b s).answers = s.answers ∧ (stageByte b s).draws = s.draws :=
  ⟨rfl, rfl, rfl, rfl, rfl, rfl, rfl, rfl, rfl, rfl, rfl, rfl, rfl, rfl, rfl, rfl, rfl, rfl, rfl, rfl, rfl, rfl, rfl⟩

@[simp] theorem expand_writes (code : List Act) (s : State) :
    (expand code s).todo = code ++ s.todo :=
  rfl

@[simp] theorem expand_leaves (code : List Act) (s : State) :
    (expand code s).baseAddress = s.baseAddress ∧ (expand code s).transferLength = s.transferLength ∧
    (expand code s).progress = s.progress ∧ (expand code s).blockSize = s.blockSize ∧
    (expand code s).crcIn = s.crcIn ∧ (expand code s).crcOut = s.crcOut ∧ (expand code s).crc = s.crc ∧
    (expand code s).i = s.i ∧ (expand code s).attempt = s.attempt ∧
    (expand code s).verifiedValue = s.verifiedValue ∧ (expand code s).value = s.value ∧
    (expand code s).cont = s.cont ∧ (expand code s).opLo = s.opLo ∧ (expand code s).block = s.block ∧
    (expand code s).bus = s.bus ∧ (expand code s).rx = s.rx ∧ (expand code s).tx = s.tx ∧
    (expand code s).txRoom = s.txRoom ∧ (expand code s).chip = s.chip ∧ (expand code s).trace = s.trace ∧
    (expand code s).resetIn = s.resetIn ∧ (expand code s).answers = s.answers ∧ (expand code s).draws = s.draws :=
  ⟨rfl, rfl, rfl, rfl, rfl, rfl, rfl, rfl, rfl, rfl, rfl, rfl, rfl, rfl, rfl, rfl, rfl, rfl, rfl, rfl, rfl, rfl, rfl⟩

@[simp] theorem breakWrite_writes (s : State) :
    (breakWrite s).todo = writeExit :=
  rfl

@[simp] theorem breakWrite_leaves (s : State) :
    (breakWrite s).baseAddress = s.baseAddress ∧ (breakWrite s).transferLength = s.transferLength ∧
    (breakWrite s).progress = s.progress ∧ (breakWrite s).blockSize = s.blockSize ∧
    (breakWrite s).crcIn = s.crcIn ∧ (breakWrite s).crcOut = s.crcOut ∧ (breakWrite s).crc = s.crc ∧
    (breakWrite s).i = s.i ∧ (breakWrite s).attempt = s.attempt ∧ (breakWrite s).verifiedValue = s.verifiedValue ∧
    (breakWrite s).value = s.value ∧ (breakWrite s).cont = s.cont ∧ (breakWrite s).opLo = s.opLo ∧
    (breakWrite s).block = s.block ∧ (breakWrite s).bus = s.bus ∧ (breakWrite s).rx = s.rx ∧
    (breakWrite s).tx = s.tx ∧ (breakWrite s).txRoom = s.txRoom ∧ (breakWrite s).chip = s.chip ∧
    (breakWrite s).trace = s.trace ∧ (breakWrite s).resetIn = s.resetIn ∧ (breakWrite s).answers = s.answers ∧
    (breakWrite s).draws = s.draws :=
  ⟨rfl, rfl, rfl, rfl, rfl, rfl, rfl, rfl, rfl, rfl, rfl, rfl, rfl, rfl, rfl, rfl, rfl, rfl, rfl, rfl, rfl, rfl, rfl⟩

/-- Drawing an open answer changes only the open answers and the counter. -/
theorem draw_eq (s : State) : ∃ as n, s.draw.2 = { s with answers := as, draws := n } := by
  unfold State.draw
  split
  · exact ⟨_, s.draws, rfl⟩
  · exact ⟨s.answers, _, rfl⟩

/-- A sample changes only the chip's sample count, the open answers and the counter. -/
theorem busValue_eq (s : State) :
    ∃ k as n, s.busValue.2 = { s with chip := { s.chip with answered := k }, answers := as, draws := n } := by
  have hd : ∀ k, ∃ as n, (State.draw { s with chip := { s.chip with answered := k } }).2 =
      { s with chip := { s.chip with answered := k }, answers := as, draws := n } := fun k => draw_eq _
  unfold State.busValue
  split
  · unfold State.chipAnswer
    split
    · exact ⟨_, hd _⟩
    · split
      · exact ⟨_, hd _⟩
      · exact ⟨_, s.answers, s.draws, rfl⟩
    · split <;> exact ⟨_, hd _⟩
    · split
      · exact ⟨_, s.answers, s.draws, rfl⟩
      · exact ⟨_, hd _⟩
  · exact ⟨s.chip.answered, draw_eq s⟩

@[simp] theorem draw_leaves (s : State) :
    (s.draw.2).baseAddress = s.baseAddress ∧ (s.draw.2).transferLength = s.transferLength ∧
    (s.draw.2).progress = s.progress ∧ (s.draw.2).blockSize = s.blockSize ∧ (s.draw.2).crcIn = s.crcIn ∧
    (s.draw.2).crcOut = s.crcOut ∧ (s.draw.2).crc = s.crc ∧ (s.draw.2).i = s.i ∧ (s.draw.2).attempt = s.attempt ∧
    (s.draw.2).verifiedValue = s.verifiedValue ∧ (s.draw.2).value = s.value ∧ (s.draw.2).cont = s.cont ∧
    (s.draw.2).opLo = s.opLo ∧ (s.draw.2).block = s.block ∧ (s.draw.2).bus = s.bus ∧ (s.draw.2).todo = s.todo ∧
    (s.draw.2).rx = s.rx ∧ (s.draw.2).tx = s.tx ∧ (s.draw.2).txRoom = s.txRoom ∧ (s.draw.2).chip = s.chip ∧
    (s.draw.2).trace = s.trace ∧ (s.draw.2).resetIn = s.resetIn := by
  obtain ⟨as, n, h⟩ := draw_eq s
  rw [h]; simp

@[simp] theorem busValue_leaves (s : State) :
    (s.busValue.2).baseAddress = s.baseAddress ∧ (s.busValue.2).transferLength = s.transferLength ∧
    (s.busValue.2).progress = s.progress ∧ (s.busValue.2).blockSize = s.blockSize ∧
    (s.busValue.2).crcIn = s.crcIn ∧ (s.busValue.2).crcOut = s.crcOut ∧ (s.busValue.2).crc = s.crc ∧
    (s.busValue.2).i = s.i ∧ (s.busValue.2).attempt = s.attempt ∧ (s.busValue.2).verifiedValue = s.verifiedValue ∧
    (s.busValue.2).value = s.value ∧ (s.busValue.2).cont = s.cont ∧ (s.busValue.2).opLo = s.opLo ∧
    (s.busValue.2).block = s.block ∧ (s.busValue.2).bus = s.bus ∧ (s.busValue.2).todo = s.todo ∧
    (s.busValue.2).rx = s.rx ∧ (s.busValue.2).tx = s.tx ∧ (s.busValue.2).txRoom = s.txRoom ∧
    (s.busValue.2).trace = s.trace ∧ (s.busValue.2).resetIn = s.resetIn := by
  obtain ⟨k, as, n, h⟩ := busValue_eq s
  rw [h]; simp

@[simp] theorem busValue_chip (s : State) :
    s.busValue.2.chip.cells = s.chip.cells ∧ s.busValue.2.chip.unsettled = s.chip.unsettled ∧
      s.busValue.2.chip.model = s.chip.model ∧ s.busValue.2.chip.lastPulse = s.chip.lastPulse := by
  obtain ⟨k, as, n, h⟩ := busValue_eq s
  rw [h]; simp

end Sys2Proof.Machine
end

