-- ==== Sys2Proof/Laws/Run.lean ====
section
/-! SUPPORT. Running lines: what one line can do to the fields the commands share, how runs compose, and the two induction
principles over a run. -/

namespace Sys2Proof.Machine

/-! ### One operation at a time -/

/-- What `LinkRecv` can answer. -/
theorem linkRecv_cases (s : State) :
    (s.rx = [] ∧ linkRecv s = none) ∨
      ∃ b rest, s.rx = b :: rest ∧ linkRecv s = some (b, { s with rx := rest, trace := s.trace ++ [.rx b] }) := by
  unfold linkRecv
  split
  · exact .inl ⟨‹_›, rfl⟩
  · exact .inr ⟨_, _, ‹_›, rfl⟩

/-- What `LinkSend` can answer. -/
theorem linkSend_cases (b : Byte) (s : State) :
    (s.txRoom = some 0 ∧ linkSend b s = none) ∨
      (s.txRoom ≠ some 0 ∧ linkSend b s =
        some { s with tx := s.tx ++ [b], txRoom := s.txRoom.map (· - 1), trace := s.trace ++ [.tx b] }) := by
  unfold linkSend
  split
  · exact .inl ⟨‹_›, rfl⟩
  · rename_i h
    exact .inr ⟨by simp [h], by simp [h]⟩
  · rename_i h
    exact .inr ⟨by simp [h], by simp [h]⟩

/-- A line that moves was the first one of `todo`. -/
theorem advance_moved {s t : State} (h : advance s = .moved t) :
    ∃ a rest, s.todo = a :: rest ∧ perform a { s with todo := rest } = .moved t := by
  unfold advance at h
  split at h
  · cases h
  · exact ⟨_, _, ‹_›, h⟩

theorem advance_cons {s : State} {a : Act} {rest : List Act} (h : s.todo = a :: rest) :
    advance s = perform a { s with todo := rest } := by
  simp [advance, h]

theorem advance_nil {s : State} (h : s.todo = []) : advance s = .blocked := by
  simp [advance, h]

/-- A received byte: what it leaves, wherever it is received. -/
@[simp] theorem receive_leaves (p : RecvPos) (b : Byte) (s : State) :
    (receive p b s).rx = s.rx ∧ (receive p b s).tx = s.tx ∧ (receive p b s).txRoom = s.txRoom ∧
    (receive p b s).trace = s.trace ∧ (receive p b s).bus = s.bus ∧ (receive p b s).chip = s.chip ∧
    (receive p b s).resetIn = s.resetIn ∧ (receive p b s).answers = s.answers ∧ (receive p b s).draws = s.draws ∧
    (receive p b s).blockSize = s.blockSize ∧ (receive p b s).crcOut = s.crcOut ∧ (receive p b s).crc = s.crc ∧
    (receive p b s).attempt = s.attempt ∧ (receive p b s).verifiedValue = s.verifiedValue ∧
    (receive p b s).value = s.value := by
  cases p <;> simp only [receive] <;> first | simp | (split <;> simp)

/-- A sample: what it leaves. -/
@[simp] theorem sampleInto_leaves (r : SampleReg) (s : State) :
    (sampleInto r s).baseAddress = s.baseAddress ∧ (sampleInto r s).transferLength = s.transferLength ∧
    (sampleInto r s).progress = s.progress ∧ (sampleInto r s).blockSize = s.blockSize ∧
    (sampleInto r s).crcIn = s.crcIn ∧ (sampleInto r s).crcOut = s.crcOut ∧ (sampleInto r s).crc = s.crc ∧
    (sampleInto r s).i = s.i ∧ (sampleInto r s).attempt = s.attempt ∧ (sampleInto r s).cont = s.cont ∧
    (sampleInto r s).opLo = s.opLo ∧ (sampleInto r s).block = s.block ∧ (sampleInto r s).bus = s.bus ∧
    (sampleInto r s).todo = s.todo ∧ (sampleInto r s).rx = s.rx ∧ (sampleInto r s).tx = s.tx ∧
    (sampleInto r s).txRoom = s.txRoom ∧ (sampleInto r s).resetIn = s.resetIn ∧
    (sampleInto r s).chip.cells = s.chip.cells ∧ (sampleInto r s).chip.unsettled = s.chip.unsettled ∧
    (sampleInto r s).chip.model = s.chip.model ∧ (sampleInto r s).chip.lastPulse = s.chip.lastPulse := by
  cases r <;> simp [sampleInto]

/-- A sample: what it writes. -/
theorem sampleInto_writes (r : SampleReg) (s : State) :
    (sampleInto r s).trace = s.trace ++ [.sample s.busValue.1] ∧
      (sampleInto r s).verifiedValue = (match r with | .verified => s.busValue.1 | .value => s.verifiedValue) ∧
      (sampleInto r s).value = (match r with | .verified => s.value | .value => s.busValue.1) := by
  cases r <;> simp [sampleInto]

/-- No line touches the reset input. -/
theorem perform_resetIn {a : Act} {s t : State} (h : perform a s = .moved t) : t.resetIn = s.resetIn := by
  cases a
  case recv p =>
    rcases linkRecv_cases s with ⟨_, hr⟩ | ⟨b, rest, _, hr⟩
    · simp [perform, hr] at h
    · simp only [perform, hr, Advance.moved.injEq] at h
      subst h; simp
  case send v =>
    rcases linkSend_cases (sendByte v s) s with ⟨_, hr⟩ | ⟨_, hr⟩
    · simp [perform, hr] at h
    · simp only [perform, hr, Advance.moved.injEq] at h
      subst h; rfl
  all_goals
    simp only [perform] at h
    first
      | (cases h; simp)
      | (split at h <;> cases h <;> simp)

theorem advance_resetIn {s t : State} (h : advance s = .moved t) : t.resetIn = s.resetIn := by
  obtain ⟨a, rest, _, hp⟩ := advance_moved h
  simpa using perform_resetIn hp

/-! ### Runs of lines -/

/-- `n` lines, every one of which moves. -/
def advances : Nat → State → Option State
  | 0, s => some s
  | n + 1, s =>
    match advance s with
    | .moved t => advances n t
    | .blocked => none
    | .fault _ => none

@[simp] theorem advances_zero (s : State) : advances 0 s = some s := rfl

theorem advances_succ {s t : State} (n : Nat) (h : advance s = .moved t) : advances (n + 1) s = advances n t := by
  simp [advances, h]

/-- A run of lines begins with a line that moves. -/
theorem advances_cases {n : Nat} {s u : State} (h : advances (n + 1) s = some u) :
    ∃ t, advance s = .moved t ∧ advances n t = some u := by
  unfold advances at h
  split at h
  · exact ⟨_, ‹_›, h⟩
  · cases h
  · cases h

/-- Runs of lines compose. -/
theorem advances_trans {m n : Nat} {s t u : State} (h : advances m s = some t) (h' : advances n t = some u) :
    advances (m + n) s = some u := by
  induction m generalizing s with
  | zero => simp at h; subst h; simpa using h'
  | succ m ih =>
    obtain ⟨v, hv, hm⟩ := advances_cases h
    rw [Nat.succ_add, Nat.succ_eq_add_one, advances_succ _ hv]
    exact ih hm

theorem run_moved {n : Nat} {s t : State} (h : advance s = .moved t) : run (n + 1) s = run n t := by
  simp [run, h]

/-- A run that moves through some lines goes on from where they end. -/
theorem run_of_advances {k n : Nat} {s t : State} (h : advances k s = some t) : run (k + n) s = run n t := by
  induction k generalizing s with
  | zero => simp at h; subst h; simp
  | succ k ih =>
    obtain ⟨v, hv, hk⟩ := advances_cases h
    rw [Nat.succ_add, Nat.succ_eq_add_one, run_moved hv]
    exact ih hk

theorem run_blocked {n : Nat} {s : State} (h : advance s = .blocked) : run n s = .next s := by
  cases n <;> simp [run, h]

/-- A run that reaches a blocked state, or `IDLE`, within its bound ends there. -/
theorem run_ends {k n : Nat} {s t : State} (h : advances k s = some t) (hb : advance t = .blocked) (hk : k ≤ n) :
    run n s = .next t := by
  obtain ⟨m, rfl⟩ := Nat.exists_eq_add_of_le hk
  rw [run_of_advances h, run_blocked hb]

/-- A command whose lines end in `IDLE` within the step's bound completes. -/
theorem runCommand_completes {k : Nat} {code : List Act} {s t : State}
    (h : advances k { s with todo := code } = some t) (ht : t.todo = []) (hk : k ≤ Config.stepBudget) :
    runCommand code s = .next t :=
  run_ends h (advance_nil ht) hk

/-- A run is a number of lines that moved, cut short only where the EBC is blocked or in `IDLE`. -/
theorem run_next {n : Nat} {s t : State} (h : run n s = .next t) :
    ∃ k, k ≤ n ∧ advances k s = some t ∧ (k = n ∨ advance t = .blocked) := by
  induction n generalizing s with
  | zero => simp only [run, Host.Outcome.next.injEq] at h; subst h; exact ⟨0, le_refl _, rfl, .inl rfl⟩
  | succ n ih =>
    unfold run at h
    split at h <;> rename_i hs
    · obtain ⟨k, hk, ha, he⟩ := ih h
      refine ⟨k + 1, by omega, by rw [advances_succ _ hs]; exact ha, ?_⟩
      rcases he with he | he
      · exact .inl (by omega)
      · exact .inr he
    · simp only [Host.Outcome.next.injEq] at h; subst h
      exact ⟨0, Nat.zero_le _, rfl, .inr hs⟩
    · cases h

/-- What every line keeps, every run of lines keeps. -/
theorem advances_keeps {P : State → Prop} (hP : ∀ s t, P s → advance s = .moved t → P t) {n : Nat} {s t : State}
    (h : advances n s = some t) (hs : P s) : P t := by
  induction n generalizing s with
  | zero => simp at h; subst h; exact hs
  | succ n ih =>
    obtain ⟨v, hv, hn⟩ := advances_cases h
    exact ih hn (hP _ _ hs hv)

/-- What every line keeps, every run keeps. -/
theorem run_keeps {P : State → Prop} (hP : ∀ s t, P s → advance s = .moved t → P t) {n : Nat} {s t : State}
    (h : run n s = .next t) (hs : P s) : P t := by
  obtain ⟨k, _, ha, _⟩ := run_next h
  exact advances_keeps hP ha hs

/-- Outside reset, a line that moves is a tick. -/
theorem tick_of_moved {s t : State} (hr : s.resetIn = false) (h : advance s = .moved t) : tick s = .next t := by
  obtain ⟨a, rest, htodo, _⟩ := advance_moved h
  unfold tick
  simp [resetAsserted, hr, htodo, h]

/-- Outside reset, lines that move are ticks. -/
theorem ticks_of_advances {n : Nat} {s t : State} (hr : s.resetIn = false) (h : advances n s = some t) :
    ticks n s = .next t := by
  induction n generalizing s with
  | zero => simp at h; subst h; rfl
  | succ n ih =>
    obtain ⟨v, hv, hn⟩ := advances_cases h
    unfold ticks
    rw [tick_of_moved hr hv]
    exact ih ((advance_resetIn hv).trans hr) hn

/-- A command's meaning runs the lines of its rule. -/
theorem exec_eq (i : Instr) (s : State) : exec i s = runCommand (commandCode i) s := by
  cases i <;> rfl

end Sys2Proof.Machine
end

