-- ==== Sys2Proof/Laws/Lines.lean ====
section
/-! SUPPORT. One line of pseudocode, said once: which lines write which field, which lines a line can put on `todo`, and
which lines each command can ever run. The frame of a command follows from these three. -/

namespace Sys2Proof.Machine

/-- A line that receives: what it does. -/
theorem perform_recv {p : RecvPos} {s t : State} (h : perform (.recv p) s = .moved t) :
    ∃ b rest, s.rx = b :: rest ∧ t = receive p b { s with rx := rest, trace := s.trace ++ [.rx b] } := by
  rcases linkRecv_cases s with ⟨_, hr⟩ | ⟨b, rest, hx, hr⟩
  · simp [perform, hr] at h
  · simp only [perform, hr, Advance.moved.injEq] at h
    exact ⟨b, rest, hx, h.symm⟩

/-- A line that sends: what it does. -/
theorem perform_send {v : SendVal} {s t : State} (h : perform (.send v) s = .moved t) :
    s.txRoom ≠ some 0 ∧ t = { s with
      tx := s.tx ++ [sendByte v s], txRoom := s.txRoom.map (· - 1), trace := s.trace ++ [.tx (sendByte v s)] } := by
  rcases linkSend_cases (sendByte v s) s with ⟨_, hr⟩ | ⟨hx, hr⟩
  · simp [perform, hr] at h
  · simp only [perform, hr, Advance.moved.injEq] at h
    exact ⟨hx, h.symm⟩

/-- A line that drives: only with the bus as output. -/
theorem perform_driveData {b : Byte} {s t : State} (h : perform (.driveData b) s = .moved t) :
    s.bus.dir = .output ∧ t = driveData b s := by
  cases hd : s.bus.dir <;> simp only [perform, hd, Advance.moved.injEq, reduceCtorEq] at h
  exact ⟨rfl, h.symm⟩

/-- A line that samples: only with the bus as input. -/
theorem perform_sampleData {r : SampleReg} {s t : State} (h : perform (.sampleData r) s = .moved t) :
    s.bus.dir = .input ∧ t = sampleInto r s := by
  cases hd : s.bus.dir <;> simp only [perform, hd, Advance.moved.injEq, reduceCtorEq] at h
  exact ⟨rfl, h.symm⟩

/-! ### Which lines write a field -/

/-- The lines that may write `baseAddress`. -/
def writesBaseAddress : Act → Bool
  | .recv .sHi => true
  | .clearBase => true
  | _ => false

theorem perform_baseAddress {a : Act} {s t : State} (h : perform a s = .moved t) (ha : writesBaseAddress a = false) :
    t.baseAddress = s.baseAddress := by
  cases a
  case recv p =>
    obtain ⟨b, rest, _, rfl⟩ := perform_recv h
    cases p <;> first | (cases ha; done) | rfl | (simp only [receive]; split <;> rfl)
  case send v =>
    obtain ⟨_, rfl⟩ := perform_send h
    rfl
  case driveData b =>
    obtain ⟨_, rfl⟩ := perform_driveData h
    rfl
  case sampleData r =>
    obtain ⟨_, rfl⟩ := perform_sampleData h
    cases r <;> first | (cases ha; done) | simp [sampleInto]
  all_goals first | (cases ha; done) | (cases h; rfl) | (cases h; split <;> rfl)

/-- The lines that may write `transferLength`. -/
def writesTransferLength : Act → Bool
  | .recv .lHi => true
  | _ => false

theorem perform_transferLength {a : Act} {s t : State} (h : perform a s = .moved t) (ha : writesTransferLength a = false) :
    t.transferLength = s.transferLength := by
  cases a
  case recv p =>
    obtain ⟨b, rest, _, rfl⟩ := perform_recv h
    cases p <;> first | (cases ha; done) | rfl | (simp only [receive]; split <;> rfl)
  case send v =>
    obtain ⟨_, rfl⟩ := perform_send h
    rfl
  case driveData b =>
    obtain ⟨_, rfl⟩ := perform_driveData h
    rfl
  case sampleData r =>
    obtain ⟨_, rfl⟩ := perform_sampleData h
    cases r <;> first | (cases ha; done) | simp [sampleInto]
  all_goals first | (cases ha; done) | (cases h; rfl) | (cases h; split <;> rfl)

/-- The lines that may write `progress`. -/
def writesProgress : Act → Bool
  | .recv .sHi => true
  | .clearProgress => true
  | .bumpProgress => true
  | .advanceBlock => true
  | _ => false

theorem perform_progress {a : Act} {s t : State} (h : perform a s = .moved t) (ha : writesProgress a = false) :
    t.progress = s.progress := by
  cases a
  case recv p =>
    obtain ⟨b, rest, _, rfl⟩ := perform_recv h
    cases p <;> first | (cases ha; done) | rfl | (simp only [receive]; split <;> rfl)
  case send v =>
    obtain ⟨_, rfl⟩ := perform_send h
    rfl
  case driveData b =>
    obtain ⟨_, rfl⟩ := perform_driveData h
    rfl
  case sampleData r =>
    obtain ⟨_, rfl⟩ := perform_sampleData h
    cases r <;> first | (cases ha; done) | simp [sampleInto]
  all_goals first | (cases ha; done) | (cases h; rfl) | (cases h; split <;> rfl)

/-- The lines that may write `blockSize`. -/
def writesBlockSize : Act → Bool
  | .whileWrite => true
  | _ => false

theorem perform_blockSize {a : Act} {s t : State} (h : perform a s = .moved t) (ha : writesBlockSize a = false) :
    t.blockSize = s.blockSize := by
  cases a
  case recv p =>
    obtain ⟨b, rest, _, rfl⟩ := perform_recv h
    cases p <;> first | (cases ha; done) | rfl | (simp only [receive]; split <;> rfl)
  case send v =>
    obtain ⟨_, rfl⟩ := perform_send h
    rfl
  case driveData b =>
    obtain ⟨_, rfl⟩ := perform_driveData h
    rfl
  case sampleData r =>
    obtain ⟨_, rfl⟩ := perform_sampleData h
    cases r <;> first | (cases ha; done) | simp [sampleInto]
  all_goals first | (cases ha; done) | (cases h; rfl) | (cases h; split <;> rfl)

/-- The lines that may write `crcIn`. -/
def writesCrcIn : Act → Bool
  | .recv .wData => true
  | .beginReceive => true
  | _ => false

theorem perform_crcIn {a : Act} {s t : State} (h : perform a s = .moved t) (ha : writesCrcIn a = false) :
    t.crcIn = s.crcIn := by
  cases a
  case recv p =>
    obtain ⟨b, rest, _, rfl⟩ := perform_recv h
    cases p <;> first | (cases ha; done) | rfl | (simp only [receive]; split <;> rfl)
  case send v =>
    obtain ⟨_, rfl⟩ := perform_send h
    rfl
  case driveData b =>
    obtain ⟨_, rfl⟩ := perform_driveData h
    rfl
  case sampleData r =>
    obtain ⟨_, rfl⟩ := perform_sampleData h
    cases r <;> first | (cases ha; done) | simp [sampleInto]
  all_goals first | (cases ha; done) | (cases h; rfl) | (cases h; split <;> rfl)

/-- The lines that may write `crcOut`. -/
def writesCrcOut : Act → Bool
  | .beginWrite => true
  | .foldVerified => true
  | _ => false

theorem perform_crcOut {a : Act} {s t : State} (h : perform a s = .moved t) (ha : writesCrcOut a = false) :
    t.crcOut = s.crcOut := by
  cases a
  case recv p =>
    obtain ⟨b, rest, _, rfl⟩ := perform_recv h
    cases p <;> first | (cases ha; done) | rfl | (simp only [receive]; split <;> rfl)
  case send v =>
    obtain ⟨_, rfl⟩ := perform_send h
    rfl
  case driveData b =>
    obtain ⟨_, rfl⟩ := perform_driveData h
    rfl
  case sampleData r =>
    obtain ⟨_, rfl⟩ := perform_sampleData h
    cases r <;> first | (cases ha; done) | simp [sampleInto]
  all_goals first | (cases ha; done) | (cases h; rfl) | (cases h; split <;> rfl)

/-- The lines that may write `crc`. -/
def writesCrc : Act → Bool
  | .clearCrc => true
  | .foldCrc => true
  | _ => false

theorem perform_crc {a : Act} {s t : State} (h : perform a s = .moved t) (ha : writesCrc a = false) :
    t.crc = s.crc := by
  cases a
  case recv p =>
    obtain ⟨b, rest, _, rfl⟩ := perform_recv h
    cases p <;> first | (cases ha; done) | rfl | (simp only [receive]; split <;> rfl)
  case send v =>
    obtain ⟨_, rfl⟩ := perform_send h
    rfl
  case driveData b =>
    obtain ⟨_, rfl⟩ := perform_driveData h
    rfl
  case sampleData r =>
    obtain ⟨_, rfl⟩ := perform_sampleData h
    cases r <;> first | (cases ha; done) | simp [sampleInto]
  all_goals first | (cases ha; done) | (cases h; rfl) | (cases h; split <;> rfl)

/-- The lines that may write `i`. -/
def writesI : Act → Bool
  | .recv .wData => true
  | .beginReceive => true
  | .beginWrite => true
  | .foldVerified => true
  | _ => false

theorem perform_i {a : Act} {s t : State} (h : perform a s = .moved t) (ha : writesI a = false) :
    t.i = s.i := by
  cases a
  case recv p =>
    obtain ⟨b, rest, _, rfl⟩ := perform_recv h
    cases p <;> first | (cases ha; done) | rfl | (simp only [receive]; split <;> rfl)
  case send v =>
    obtain ⟨_, rfl⟩ := perform_send h
    rfl
  case driveData b =>
    obtain ⟨_, rfl⟩ := perform_driveData h
    rfl
  case sampleData r =>
    obtain ⟨_, rfl⟩ := perform_sampleData h
    cases r <;> first | (cases ha; done) | simp [sampleInto]
  all_goals first | (cases ha; done) | (cases h; rfl) | (cases h; split <;> rfl)

/-- The lines that may write `attempt`. -/
def writesAttempt : Act → Bool
  | .clearAttempt => true
  | .untilVerified _ => true
  | _ => false

theorem perform_attempt {a : Act} {s t : State} (h : perform a s = .moved t) (ha : writesAttempt a = false) :
    t.attempt = s.attempt := by
  cases a
  case recv p =>
    obtain ⟨b, rest, _, rfl⟩ := perform_recv h
    cases p <;> first | (cases ha; done) | rfl | (simp only [receive]; split <;> rfl)
  case send v =>
    obtain ⟨_, rfl⟩ := perform_send h
    rfl
  case driveData b =>
    obtain ⟨_, rfl⟩ := perform_driveData h
    rfl
  case sampleData r =>
    obtain ⟨_, rfl⟩ := perform_sampleData h
    cases r <;> first | (cases ha; done) | simp [sampleInto]
  all_goals first | (cases ha; done) | (cases h; rfl) | (cases h; split <;> rfl)

/-- The lines that may write `verifiedValue`. -/
def writesVerifiedValue : Act → Bool
  | .sampleData .verified => true
  | _ => false

theorem perform_verifiedValue {a : Act} {s t : State} (h : perform a s = .moved t) (ha : writesVerifiedValue a = false) :
    t.verifiedValue = s.verifiedValue := by
  cases a
  case recv p =>
    obtain ⟨b, rest, _, rfl⟩ := perform_recv h
    cases p <;> first | (cases ha; done) | rfl | (simp only [receive]; split <;> rfl)
  case send v =>
    obtain ⟨_, rfl⟩ := perform_send h
    rfl
  case driveData b =>
    obtain ⟨_, rfl⟩ := perform_driveData h
    rfl
  case sampleData r =>
    obtain ⟨_, rfl⟩ := perform_sampleData h
    cases r <;> first | (cases ha; done) | simp [sampleInto]
  all_goals first | (cases ha; done) | (cases h; rfl) | (cases h; split <;> rfl)

/-- The lines that may write `value`. -/
def writesValue : Act → Bool
  | .sampleData .value => true
  | _ => false

theorem perform_value {a : Act} {s t : State} (h : perform a s = .moved t) (ha : writesValue a = false) :
    t.value = s.value := by
  cases a
  case recv p =>
    obtain ⟨b, rest, _, rfl⟩ := perform_recv h
    cases p <;> first | (cases ha; done) | rfl | (simp only [receive]; split <;> rfl)
  case send v =>
    obtain ⟨_, rfl⟩ := perform_send h
    rfl
  case driveData b =>
    obtain ⟨_, rfl⟩ := perform_driveData h
    rfl
  case sampleData r =>
    obtain ⟨_, rfl⟩ := perform_sampleData h
    cases r <;> first | (cases ha; done) | simp [sampleInto]
  all_goals first | (cases ha; done) | (cases h; rfl) | (cases h; split <;> rfl)

/-- The lines that may write `cont`. -/
def writesCont : Act → Bool
  | .recv .wCont1 => true
  | .recv .wCont2 => true
  | _ => false

theorem perform_cont {a : Act} {s t : State} (h : perform a s = .moved t) (ha : writesCont a = false) :
    t.cont = s.cont := by
  cases a
  case recv p =>
    obtain ⟨b, rest, _, rfl⟩ := perform_recv h
    cases p <;> first | (cases ha; done) | rfl
  case send v =>
    obtain ⟨_, rfl⟩ := perform_send h
    rfl
  case driveData b =>
    obtain ⟨_, rfl⟩ := perform_driveData h
    rfl
  case sampleData r =>
    obtain ⟨_, rfl⟩ := perform_sampleData h
    cases r <;> first | (cases ha; done) | simp [sampleInto]
  all_goals first | (cases ha; done) | (cases h; rfl) | (cases h; split <;> rfl)

/-- The lines that may write `opLo`. -/
def writesOpLo : Act → Bool
  | .recv .sLo => true
  | .recv .lLo => true
  | _ => false

theorem perform_opLo {a : Act} {s t : State} (h : perform a s = .moved t) (ha : writesOpLo a = false) :
    t.opLo = s.opLo := by
  cases a
  case recv p =>
    obtain ⟨b, rest, _, rfl⟩ := perform_recv h
    cases p <;> first | (cases ha; done) | rfl | (simp only [receive]; split <;> rfl)
  case send v =>
    obtain ⟨_, rfl⟩ := perform_send h
    rfl
  case driveData b =>
    obtain ⟨_, rfl⟩ := perform_driveData h
    rfl
  case sampleData r =>
    obtain ⟨_, rfl⟩ := perform_sampleData h
    cases r <;> first | (cases ha; done) | simp [sampleInto]
  all_goals first | (cases ha; done) | (cases h; rfl) | (cases h; split <;> rfl)

/-- The lines that may write `block`. -/
def writesBlock : Act → Bool
  | .recv .wData => true
  | _ => false

theorem perform_block {a : Act} {s t : State} (h : perform a s = .moved t) (ha : writesBlock a = false) :
    t.block = s.block := by
  cases a
  case recv p =>
    obtain ⟨b, rest, _, rfl⟩ := perform_recv h
    cases p <;> first | (cases ha; done) | rfl | (simp only [receive]; split <;> rfl)
  case send v =>
    obtain ⟨_, rfl⟩ := perform_send h
    rfl
  case driveData b =>
    obtain ⟨_, rfl⟩ := perform_driveData h
    rfl
  case sampleData r =>
    obtain ⟨_, rfl⟩ := perform_sampleData h
    cases r <;> first | (cases ha; done) | simp [sampleInto]
  all_goals first | (cases ha; done) | (cases h; rfl) | (cases h; split <;> rfl)

/-- The lines that may write `bus`. -/
def writesBus : Act → Bool
  | .setAddress _ => true
  | .enterWriteMode => true
  | .enterReadMode => true
  | .driveData _ => true
  | .busToInput => true
  | .busToOutput => true
  | .chipEnable => true
  | .chipDisable => true
  | .oeAssert => true
  | .oeDeassert => true
  | .pgmAssert => true
  | .pgmDeassert => true
  | .reinitAddress => true
  | .applyPattern _ => true
  | _ => false

theorem perform_bus {a : Act} {s t : State} (h : perform a s = .moved t) (ha : writesBus a = false) :
    t.bus = s.bus := by
  cases a
  case recv p =>
    obtain ⟨b, rest, _, rfl⟩ := perform_recv h
    cases p <;> first | (cases ha; done) | rfl | (simp only [receive]; split <;> rfl)
  case send v =>
    obtain ⟨_, rfl⟩ := perform_send h
    rfl
  case driveData b =>
    cases ha
  case sampleData r =>
    obtain ⟨_, rfl⟩ := perform_sampleData h
    cases r <;> first | (cases ha; done) | simp [sampleInto]
  all_goals first | (cases ha; done) | (cases h; rfl) | (cases h; split <;> rfl)

/-- The lines that may write `rx`. -/
def writesRx : Act → Bool
  | .recv _ => true
  | _ => false

theorem perform_rx {a : Act} {s t : State} (h : perform a s = .moved t) (ha : writesRx a = false) :
    t.rx = s.rx := by
  cases a
  case recv p =>
    cases ha
  case send v =>
    obtain ⟨_, rfl⟩ := perform_send h
    rfl
  case driveData b =>
    obtain ⟨_, rfl⟩ := perform_driveData h
    rfl
  case sampleData r =>
    obtain ⟨_, rfl⟩ := perform_sampleData h
    cases r <;> first | (cases ha; done) | simp [sampleInto]
  all_goals first | (cases ha; done) | (cases h; rfl) | (cases h; split <;> rfl)

/-- The lines that may write `tx`. -/
def writesTx : Act → Bool
  | .send _ => true
  | _ => false

theorem perform_tx {a : Act} {s t : State} (h : perform a s = .moved t) (ha : writesTx a = false) :
    t.tx = s.tx := by
  cases a
  case recv p =>
    obtain ⟨b, rest, _, rfl⟩ := perform_recv h
    cases p <;> first | (cases ha; done) | rfl | (simp only [receive]; split <;> rfl)
  case send v =>
    cases ha
  case driveData b =>
    obtain ⟨_, rfl⟩ := perform_driveData h
    rfl
  case sampleData r =>
    obtain ⟨_, rfl⟩ := perform_sampleData h
    cases r <;> first | (cases ha; done) | simp [sampleInto]
  all_goals first | (cases ha; done) | (cases h; rfl) | (cases h; split <;> rfl)

/-- The lines that may write `txRoom`. -/
def writesTxRoom : Act → Bool
  | .send _ => true
  | _ => false

theorem perform_txRoom {a : Act} {s t : State} (h : perform a s = .moved t) (ha : writesTxRoom a = false) :
    t.txRoom = s.txRoom := by
  cases a
  case recv p =>
    obtain ⟨b, rest, _, rfl⟩ := perform_recv h
    cases p <;> first | (cases ha; done) | rfl | (simp only [receive]; split <;> rfl)
  case send v =>
    cases ha
  case driveData b =>
    obtain ⟨_, rfl⟩ := perform_driveData h
    rfl
  case sampleData r =>
    obtain ⟨_, rfl⟩ := perform_sampleData h
    cases r <;> first | (cases ha; done) | simp [sampleInto]
  all_goals first | (cases ha; done) | (cases h; rfl) | (cases h; split <;> rfl)

/-- The lines that may write `chip`. -/
def writesChip : Act → Bool
  | .chipEnable => true
  | .pgmDeassert => true
  | .applyPattern _ => true
  | .sampleData _ => true
  | _ => false

theorem perform_chip {a : Act} {s t : State} (h : perform a s = .moved t) (ha : writesChip a = false) :
    t.chip = s.chip := by
  cases a
  case recv p =>
    obtain ⟨b, rest, _, rfl⟩ := perform_recv h
    cases p <;> first | (cases ha; done) | rfl | (simp only [receive]; split <;> rfl)
  case send v =>
    obtain ⟨_, rfl⟩ := perform_send h
    rfl
  case driveData b =>
    obtain ⟨_, rfl⟩ := perform_driveData h
    rfl
  case sampleData r =>
    cases ha
  all_goals first | (cases ha; done) | (cases h; rfl) | (cases h; split <;> rfl)

/-- The lines that may write `answers`. -/
def writesAnswers : Act → Bool
  | .sampleData _ => true
  | _ => false

theorem perform_answers {a : Act} {s t : State} (h : perform a s = .moved t) (ha : writesAnswers a = false) :
    t.answers = s.answers := by
  cases a
  case recv p =>
    obtain ⟨b, rest, _, rfl⟩ := perform_recv h
    cases p <;> first | (cases ha; done) | rfl | (simp only [receive]; split <;> rfl)
  case send v =>
    obtain ⟨_, rfl⟩ := perform_send h
    rfl
  case driveData b =>
    obtain ⟨_, rfl⟩ := perform_driveData h
    rfl
  case sampleData r =>
    cases ha
  all_goals first | (cases ha; done) | (cases h; rfl) | (cases h; split <;> rfl)

/-- The lines that may write `draws`. -/
def writesDraws : Act → Bool
  | .sampleData _ => true
  | _ => false

theorem perform_draws {a : Act} {s t : State} (h : perform a s = .moved t) (ha : writesDraws a = false) :
    t.draws = s.draws := by
  cases a
  case recv p =>
    obtain ⟨b, rest, _, rfl⟩ := perform_recv h
    cases p <;> first | (cases ha; done) | rfl | (simp only [receive]; split <;> rfl)
  case send v =>
    obtain ⟨_, rfl⟩ := perform_send h
    rfl
  case driveData b =>
    obtain ⟨_, rfl⟩ := perform_driveData h
    rfl
  case sampleData r =>
    cases ha
  all_goals first | (cases ha; done) | (cases h; rfl) | (cases h; split <;> rfl)

/-! ### Which lines a line can put on `todo` -/

/-- The lines that `a` may put on `todo`. -/
def spawns : Act → Act → Prop
  | .attempt d, x => x ∈ attemptCode d
  | .untilVerified d, x => x = .attempt d
  | .callReadOneByte, x => ∃ a, x ∈ readOneByteCode a
  | .callWriteOneByte, x => ∃ a d, x ∈ writeOneByteCode a d
  | .whileWrite, x => x ∈ writeBody
  | .whileRead, x => x ∈ readBody
  | .forReceive, x => x = .recv .wData ∨ x = .forReceive
  | .forWrite, x => x = .callWriteOneByte ∨ x = .foldVerified ∨ x = .forWrite
  | .recv .wCont1, x => x ∈ writeExit
  | .recv .wCont2, x => x ∈ writeExit
  | _, _ => False

theorem perform_todo {a : Act} {s t : State} (h : perform a s = .moved t) {x : Act} (hx : x ∈ t.todo) :
    x ∈ s.todo ∨ spawns a x := by
  cases a
  case recv p =>
    obtain ⟨b, rest, _, rfl⟩ := perform_recv h
    cases p <;> simp only [receive] at hx
    case wCont1 =>
      split at hx
      · exact .inr (by simpa [spawns] using hx)
      · exact .inl (by simpa using hx)
    case wCont2 =>
      split at hx
      · exact .inr (by simpa [spawns] using hx)
      · exact .inl (by simpa using hx)
    all_goals exact .inl (by simpa using hx)
  case send v => obtain ⟨_, rfl⟩ := perform_send h; exact .inl hx
  case driveData b => obtain ⟨_, rfl⟩ := perform_driveData h; exact .inl hx
  case sampleData r => obtain ⟨_, rfl⟩ := perform_sampleData h; exact .inl (by simpa using hx)
  case attempt d => cases h; exact (List.mem_append.mp hx).symm
  case callReadOneByte => cases h; exact (List.mem_append.mp hx).symm.imp_right fun h => ⟨_, h⟩
  case callWriteOneByte => cases h; exact (List.mem_append.mp hx).symm.imp_right fun h => ⟨_, _, h⟩
  case untilVerified d =>
    cases h
    split at hx
    · exact .inl hx
    · exact (List.mem_append.mp hx).symm.imp_right fun h => by simpa [spawns] using h
  case whileWrite =>
    cases h
    split at hx
    · exact (List.mem_append.mp hx).symm
    · exact .inl hx
  case whileRead =>
    cases h
    split at hx
    · exact (List.mem_append.mp hx).symm
    · exact .inl hx
  case forReceive =>
    cases h
    split at hx
    · exact (List.mem_append.mp hx).symm.imp_right fun h => by simpa [spawns] using h
    · exact .inl hx
  case forWrite =>
    cases h
    split at hx
    · exact (List.mem_append.mp hx).symm.imp_right fun h => by simpa [spawns] using h
    · exact .inl hx
  all_goals (cases h; exact .inl hx)

/-! ### Which lines a command can ever run -/

/-- The lines that a Bulk Read or a `+` may run. -/
def readLine : Act → Bool
  | .enterReadMode => true
  | .chipEnable => true
  | .clearProgress => true
  | .clearCrc => true
  | .whileRead => true
  | .chipDisable => true
  | .send .crc => true
  | .send .value => true
  | .callReadOneByte => true
  | .foldCrc => true
  | .bumpProgress => true
  | .setAddress _ => true
  | .oeAssert => true
  | .wait _ => true
  | .sampleData .value => true
  | .oeDeassert => true
  | _ => false

/-- The lines that a Bulk Write may run. -/
def writeLine : Act → Bool
  | .send .ack => true
  | .send .crcIn => true
  | .send .crcOut => true
  | .recv .wData => true
  | .recv .wCont1 => true
  | .recv .wCont2 => true
  | .enterWriteMode => true
  | .enterReadMode => true
  | .chipEnable => true
  | .chipDisable => true
  | .oeAssert => true
  | .oeDeassert => true
  | .clearProgress => true
  | .whileWrite => true
  | .beginReceive => true
  | .forReceive => true
  | .beginWrite => true
  | .forWrite => true
  | .advanceBlock => true
  | .callWriteOneByte => true
  | .foldVerified => true
  | .setAddress _ => true
  | .wait _ => true
  | .clearAttempt => true
  | .attempt _ => true
  | .untilVerified _ => true
  | .driveData _ => true
  | .pgmAssert => true
  | .pgmDeassert => true
  | .busToInput => true
  | .busToOutput => true
  | .sampleData .verified => true
  | _ => false

/-- The lines that a command may run. -/
def commandLine : Instr → Act → Bool
  | .setAddr, a => setAddrCode.contains a
  | .setLen, a => setLenCode.contains a
  | .write, a => writeLine a
  | .read, a => readLine a
  | .read1, a => readLine a && a != .clearProgress && a != .clearCrc && a != .foldCrc && a != .whileRead
  | .reinit, a => reinitCode.contains a
  | .diag1, a => diag1Code.contains a
  | .diag2, a => diag2Code.contains a
  | .xnop, _ => false
  | .ignored _, _ => false

theorem commandLine_code (i : Instr) : ∀ a ∈ commandCode i, commandLine i a = true := by
  cases i <;> intro a ha
  case write => revert a; decide
  case read => revert a; decide
  case read1 => revert a; decide
  case xnop => cases ha
  case ignored => cases ha
  all_goals exact List.contains_iff_mem.mpr ha

theorem commandLine_spawns {i : Instr} {a x : Act} (h : commandLine i a = true) (hx : spawns a x) :
    commandLine i x = true := by
  cases i
  case write =>
    cases a <;> simp only [spawns] at hx
    case recv p =>
      cases p <;> first | exact False.elim hx | (change x ∈ writeExit at hx; revert x; decide)
    case attempt d =>
      simp only [attemptCode, List.mem_cons, List.not_mem_nil, or_false] at hx
      rcases hx with rfl | rfl | rfl | rfl | rfl | rfl | rfl | rfl | rfl | rfl | rfl | rfl <;> rfl
    case untilVerified d => subst hx; rfl
    case callReadOneByte => cases h
    case callWriteOneByte =>
      obtain ⟨b, d, hx⟩ := hx
      simp only [writeOneByteCode, List.mem_cons, List.not_mem_nil, or_false] at hx
      rcases hx with rfl | rfl | rfl | rfl <;> rfl
    case whileWrite => revert x; decide
    case whileRead => cases h
    case forReceive => rcases hx with rfl | rfl <;> rfl
    case forWrite => rcases hx with rfl | rfl | rfl <;> rfl
  case read =>
    cases a <;> simp only [spawns] at hx <;> try cases h
    case callReadOneByte =>
      obtain ⟨b, hx⟩ := hx
      simp only [readOneByteCode, List.mem_cons, List.not_mem_nil, or_false] at hx
      rcases hx with rfl | rfl | rfl | rfl | rfl | rfl <;> rfl
    case whileRead => revert x; decide
  case read1 =>
    cases a <;> simp only [spawns] at hx <;> try cases h
    case callReadOneByte =>
      obtain ⟨b, hx⟩ := hx
      simp only [readOneByteCode, List.mem_cons, List.not_mem_nil, or_false] at hx
      rcases hx with rfl | rfl | rfl | rfl | rfl | rfl <;> rfl
  case xnop => cases h
  case ignored => cases h
  all_goals
    simp [commandLine, setAddrCode, setLenCode, reinitCode, diag1Code, diag2Code] at h
    rcases h with rfl | rfl | rfl | rfl <;> exact False.elim hx

/-- Every line of a run of command `i`: it is one of the lines `i` may run, and so are all that are still to run. -/
theorem advance_line {i : Instr} {s t : State} (hs : ∀ x ∈ s.todo, commandLine i x = true) (h : advance s = .moved t) :
    (∃ a rest, s.todo = a :: rest ∧ commandLine i a = true ∧ perform a { s with todo := rest } = .moved t) ∧
      ∀ x ∈ t.todo, commandLine i x = true := by
  obtain ⟨a, rest, ht, hp⟩ := advance_moved h
  have ha := hs a (ht ▸ List.mem_cons_self)
  refine ⟨⟨a, rest, ht, ha, hp⟩, fun x hx => ?_⟩
  rcases perform_todo hp hx with hx | hx
  · exact hs x (ht ▸ List.mem_cons_of_mem _ hx)
  · exact commandLine_spawns ha hx

/-- The induction principle for what a command can do: a property of states that every line of the command keeps (the rest
of `todo` set aside) holds wherever the command stops with a next state. -/
theorem exec_keeps {i : Instr} {P : State → Prop}
    (hP : ∀ a s t, commandLine i a = true → P s → perform a s = .moved t → P t)
    (hT : ∀ s todo, P s → P { s with todo := todo }) {s t : State} (h : exec i s = .next t) (hs : P s) : P t := by
  rw [exec_eq] at h
  refine (run_keeps (P := fun u => P u ∧ ∀ x ∈ u.todo, commandLine i x = true) ?_ h
    ⟨hT s _ hs, commandLine_code i⟩).1
  rintro u v ⟨hu, hl⟩ hv
  obtain ⟨⟨a, rest, _, ha, hp⟩, hl'⟩ := advance_line hl hv
  exact ⟨hP a _ _ ha (hT u rest hu) hp, hl'⟩

end Sys2Proof.Machine
end

