-- ==== Sys2Proof/Laws/Operands.lean ====
section
/-! SUPPORT. The numbers behind the operands: the 16-bit operand, the address fields, the block size. -/

namespace Sys2Proof.Machine

/-- A byte appended below a field, as a number. -/
theorem toNat_append_byte {n : Nat} (hi : BitVec n) (lo : Byte) : (hi ++ lo).toNat = hi.toNat * 256 + lo.toNat := by
  rw [BitVec.toNat_append, ← Nat.shiftLeft_add_eq_or_of_lt lo.isLt, Nat.shiftLeft_eq]

theorem toNat_assembleWord (lo hi : Byte) : (assembleWord lo hi).toNat = hi.toNat * 256 + lo.toNat :=
  toNat_append_byte hi lo

theorem toNat_chipAddr (b : Bus) : (Bus.chipAddr b).toNat = b.addrHi6.toNat * 256 + b.addrLo.toNat :=
  toNat_append_byte b.addrHi6 b.addrLo

theorem toNat_addrLoField (a : Word) : (addrLoField a).toNat = a.toNat % 256 := by
  simp [addrLoField]

theorem toNat_addrHiField (a : Word) : (addrHiField a).toNat = a.toNat / 256 % 64 := by
  simp [addrHiField, Nat.shiftRight_eq_div_pow]

theorem toNat_chipAddrOf (a : Word) : (chipAddrOf a).toNat = a.toNat % 16384 := by
  simp [chipAddrOf]

/-- `set_address(a)` puts chip address `a[13:0]` on the lines (spec 30_encoding R100, 20_memory R61). -/
theorem chipAddr_of_fields {b : Bus} {a : Word} (h₁ : b.addrLo = addrLoField a) (h₂ : b.addrHi6 = addrHiField a) :
    Bus.chipAddr b = chipAddrOf a := by
  apply BitVec.eq_of_toNat_eq
  rw [toNat_chipAddr, toNat_chipAddrOf, h₁, h₂, toNat_addrLoField, toNat_addrHiField]
  have := a.isLt
  omega

/-- The block size under the loop's guard (spec 43_transfer_engine R201). -/
theorem toNat_nextBlockSize {s : State} (h : bytesRemain s = true) :
    (nextBlockSize s).toNat = min Config.blockMax (s.transferLength.toNat - s.progress.toNat) := by
  simp only [bytesRemain, decide_eq_true_eq] at h
  have e : (s.transferLength - s.progress).toNat = s.transferLength.toNat - s.progress.toNat :=
    BitVec.toNat_sub_of_le (BitVec.le_def.mpr (le_of_lt h))
  have := s.transferLength.isLt
  simp only [nextBlockSize, e, Config.blockMax, BitVec.toNat_ofNat]
  omega

end Sys2Proof.Machine
end

