-- ==== Sys2Proof/Laws/PerInstr.lean ====
section
/-! SUPPORT. What holds of every command class as syntax, one lemma per constructor: the family CommandByte. -/

namespace Sys2Proof.Laws.CommandByte

open Sys2Proof

/-- A well-formed command has one command byte; that byte decodes to it, also when it is given as the bits of an
opcode-table row; and the byte is one of the nine named ones unless the command is an ignored byte (spec 30_encoding R92,
R99; 42_session_commands R171, R180). -/
def Statement (i : Instr) : Prop :=
  i.wf = true →
    encode i = [i.opByte] ∧ decodeByte i.opByte = i ∧ decodeTableWord 8 i.opByte.toNat = some i ∧
      (i.opByte ∈ namedBytes ↔ ∀ op, i ≠ .ignored op)

theorem setAddr : Statement .setAddr := fun _ => ⟨rfl, by decide, by decide, fun _ => nofun, fun _ => by decide⟩

theorem setLen : Statement .setLen := fun _ => ⟨rfl, by decide, by decide, fun _ => nofun, fun _ => by decide⟩

theorem write : Statement .write := fun _ => ⟨rfl, by decide, by decide, fun _ => nofun, fun _ => by decide⟩

theorem read : Statement .read := fun _ => ⟨rfl, by decide, by decide, fun _ => nofun, fun _ => by decide⟩

theorem read1 : Statement .read1 := fun _ => ⟨rfl, by decide, by decide, fun _ => nofun, fun _ => by decide⟩

theorem reinit : Statement .reinit := fun _ => ⟨rfl, by decide, by decide, fun _ => nofun, fun _ => by decide⟩

theorem diag1 : Statement .diag1 := fun _ => ⟨rfl, by decide, by decide, fun _ => nofun, fun _ => by decide⟩

theorem diag2 : Statement .diag2 := fun _ => ⟨rfl, by decide, by decide, fun _ => nofun, fun _ => by decide⟩

theorem xnop : Statement .xnop := fun _ => ⟨rfl, by decide, by decide, fun _ => nofun, fun _ => by decide⟩

/-- The bytes that an opcode-table row of eight bits is laid out as. -/
theorem tableBytes_eight (op : Byte) : tableBytes 8 op.toNat = [op, 0, 0] := by
  have h := op.isLt
  have e : op.toNat % 256 = op.toNat := Nat.mod_eq_of_lt h
  have e' : op.toNat / 65536 = 0 := Nat.div_eq_of_lt (by omega)
  simp [tableBytes, List.range_succ, e, e', Nat.div_eq_of_lt h]

theorem ignored (op : Byte) : Statement (.ignored op) := by
  intro h
  have hn : op ∉ namedBytes := by simpa [Instr.wf] using h
  have hd : decodeByte op = .ignored op := by
    simp only [namedBytes, List.mem_cons, List.not_mem_nil, or_false, not_or] at hn
    simp [decodeByte, hn]
  refine ⟨rfl, hd, ?_, fun hm => absurd hm hn, fun hm => absurd rfl (hm op)⟩
  simp only [decodeTableWord, Instr.opByte, tableBytes_eight, decode, hd]

end Sys2Proof.Laws.CommandByte
end

