-- ==== Sys2Proof/Tests/Slice0.lean ====
section
/-! SUPPORT. The model's own tests: words decoded bit by bit, one small step per command from the spec's test vectors, and
for every statement with hypotheses a state and operands that meet them together. -/

namespace Sys2Proof.Tests

open Sys2Proof Sys2Proof.Machine Sys2Proof.Claims

/-! ### Helpers -/

/-- The answer is a next state that passes the check. -/
def after (o : Result) (check : State → Bool) : Bool :=
  match o with
  | .next t => check t
  | .fault _ => false
  | .refused _ => false

/-- The reset state with an `IdealChip` of the given cells. -/
def ideal (cells : Memory) : State := { State.reset with chip := { Chip.initial with model := .ideal, cells := cells } }

/-- The start of each row of vector V7, with the host bytes given. -/
def v7 (rx : List Byte) : State :=
  { ideal [(0x0103, 0x44)] with baseAddress := 0x0100, transferLength := 4, progress := 3, rx := rx }

/-- The bus with the given lines, at chip address 0x0100. -/
def busAt (l : Lines) : Bus :=
  { addrLo := 0, addrHi6 := 1, dout := 0x11, dir := l.dir, vpp := l.vpp, ce := l.ce, oe := l.oe, pgm := l.pgm }

/-- A state in the middle of a command: these lines of pseudocode still to run, the bus lines given. -/
def midway (code : List Act) (l : Lines) : State := { ideal [] with todo := code, bus := busAt l }

/-- The reset input is asserted in the middle of a Write-one-byte. -/
def underReset : State := { midway [.untilVerified 0x11] writeLines with resetIn := true }

/-- The link of the state stays ready. -/
theorem ready {s : State} (h : s.txRoom = none) (k : Nat) : roomFor s k := fun r hr => by rw [h] at hr; cases hr

/-! ### Well-formedness (spec 42_session_commands R180) -/

/-- A named byte is no ignored byte: each of the nine is refused. -/
theorem test_wf_refuses_named : namedBytes.all (fun b => !(Instr.ignored b).wf) = true := by decide

theorem test_wf_accepts : (Instr.ignored 0x53).wf = true ∧ (Instr.ignored 0x00).wf = true ∧ (Instr.ignored 0xFF).wf = true ∧
    Instr.setAddr.wf = true ∧ Instr.xnop.wf = true := by decide

/-! ### Decoding (spec 30_encoding R92, R93, R95, R101; vectors V1, V2, V4) -/

theorem test_decode_session : decodeTableWord 8 0b01110011 = some .setAddr ∧ decodeTableWord 8 0b01101100 = some .setLen ∧
    decodeTableWord 8 0b00101011 = some .read1 ∧ decodeTableWord 8 0b00110000 = some .reinit := by decide

theorem test_decode_transfer :
    decodeTableWord 8 0b01100100 = some .write ∧ decodeTableWord 8 0b01110010 = some .read := by decide

theorem test_decode_diagnostic :
    decodeTableWord 8 0b00110001 = some .diag1 ∧ decodeTableWord 8 0b00110010 = some .diag2 := by decide

/-- Matching is case-sensitive and of the whole byte (R93). -/
theorem test_decode_none : decodeTableWord 8 0b01111000 = some .xnop ∧ decodeTableWord 8 0b01010011 = some (.ignored 0x53) ∧
    decodeTableWord 8 0 = some (.ignored 0) ∧ decode [] = .noCommandByte := by decide

/-- Exactly nine of the 256 bytes are named (R92). -/
theorem test_decode_count : ((List.range 256).filter fun k => decodeByte (BitVec.ofNat 8 k) != .ignored (BitVec.ofNat 8 k)) =
    [0x2B, 0x30, 0x31, 0x32, 0x64, 0x6C, 0x72, 0x73, 0x78] := by decide +kernel

theorem test_operand : assembleWord 0x34 0x12 = 0x1234 ∧ assembleWord 0x01 0x02 = 513 ∧ wordBytes 0x1234 = [0x34, 0x12] := by
  decide

theorem test_ports : addrLoField 0x1234 = 0x34 ∧ addrHiField 0x1234 = 0x12 ∧ hiPort 0x1234 = 0x48 ∧ hiPort 0x3FFF = 0xFC ∧
    hiPort 0x4000 = 0x00 ∧ chipAddrOf 0x8001 = 0x0001 ∧ portsAddress 0xFF 0xFC = 0x3FFF := by decide

/-- Program P3: the frame of a Bulk Write aborted at its first point, and a byte of the next command. -/
theorem test_frame : takeFrame 4 [0x64, 0x11, 0x22, 0x33, 0x44, 0xFF, 0x78] =
    some (.write [⟨[0x11, 0x22, 0x33, 0x44], 0xFF, none⟩], [0x78]) := by decide

/-- Vector V3. -/
theorem test_block_size : (nextBlockSize { State.reset with transferLength := 513 }) = 512 ∧
    (nextBlockSize { State.reset with transferLength := 513, progress := 512 }) = 1 ∧
    (nextBlockSize { State.reset with transferLength := 65535, progress := 65024 }) = 511 := by decide

/-- Vector V10. -/
theorem test_xor : xorAll [0x11, 0x22, 0x33, 0x44] = 0x44 ∧ xorAll [0xAA, 0x55, 0xFF] = 0 ∧ xorAll [] = 0 := by decide

/-! ### One step per command (vectors V5, V7, V9; programs P1 to P5, P7) -/

theorem test_setAddr : after (step (v7 [0x73, 0x00, 0x02])) (fun t =>
    t.tx == [0x01] && t.baseAddress == 0x0200 && t.transferLength == 4 && t.progress == 0 && t.seq == .idle) = true := by
  decide +kernel

theorem test_setLen : after (step (v7 [0x6C, 0x02, 0x00])) (fun t =>
    t.tx == [0x01] && t.baseAddress == 0x0100 && t.transferLength == 2 && t.progress == 3) = true := by
  decide +kernel

/-- Program P1. -/
theorem test_write : after (exec .write
      { ideal [] with baseAddress := 0x0100, transferLength := 4, rx := [0x11, 0x22, 0x33, 0x44, 0x00, 0x00] }) (fun t =>
    t.tx == [0x01, 0x01, 0x44, 0x01, 0x44] && t.progress == 4 && t.elapsed == 464 && t.bus.addrLo == 0x03 &&
      t.chip.cells == [(0x100, 0x11), (0x101, 0x22), (0x102, 0x33), (0x103, 0x44)]) = true := by
  decide +kernel

/-- Program P5, the chip's twenty answers given. -/
theorem test_write_exhausts : after (exec .write
      { ideal [] with chip := { Chip.initial with model := .neverVerify }, answers := List.replicate 20 0xFF,
                      transferLength := 1, rx := [0x00, 0x00, 0x00] }) (fun t =>
    t.tx == [0x01, 0x01, 0x00, 0x01, 0xFF] && t.progress == 1 && t.elapsed == 2130 && !t.bus.vpp) = true := by
  decide +kernel

/-- Program P2. -/
theorem test_read : after (exec .read
      { State.reset with chip := { Chip.initial with model := .fixedRead [0xAA, 0x55, 0xFF] }, transferLength := 3 }) (fun t =>
    t.tx == [0xAA, 0x55, 0xFF, 0x00] && t.progress == 3 && t.elapsed == 12 && t.bus.addrLo == 0x02) = true := by
  decide +kernel

/-- Property E4 and vector V9. -/
theorem test_read_nothing : after (exec .read State.reset) (fun t =>
    t.tx == [0x00] && t.progress == 0 && !t.trace.contains (.oe true)) = true := by decide +kernel

/-- Vector V7, the row of `+`. -/
theorem test_read1 : after (step (v7 [0x2B])) (fun t =>
    t.tx == [0x44] && t.progress == 4 && t.bus.addrLo == 0x03 && t.bus.addrHi6 == 0x01 && !t.bus.ce) = true := by
  decide +kernel

/-- Program P4: the second read is at logical address 0x4000, chip address 0; and `progress` wraps (R174). -/
theorem test_read1_wraps : after (exec .read1
      { ideal [(0x0000, 0xA5), (0x3FFF, 0x5A)] with baseAddress := 0x3FFF, progress := 1 }) (fun t => t.tx == [0xA5]) = true ∧
    after (exec .read1 { ideal [] with progress := 0xFFFF }) (fun t => t.progress == 0) = true := by
  decide +kernel

/-- Vector V7, the row of `0`. -/
theorem test_reinit : after (step (v7 [0x30])) (fun t =>
    t.tx == [] && t.baseAddress == 0 && t.transferLength == 4 && t.progress == 0 && t.chip.cells == [(0x0103, 0x44)]) = true := by
  decide +kernel

/-- Vector V7, the row of `1`: nothing but the bus is touched. -/
theorem test_diag1 : after (step (v7 [0x31])) (fun t =>
    t.tx == [] && t.baseAddress == 0x0100 && t.transferLength == 4 && t.progress == 3 && t.rx == []) = true := by
  decide +kernel

theorem test_diag2 : after (step (v7 [0x32])) (fun t =>
    t.tx == [] && t.baseAddress == 0x0100 && t.transferLength == 4 && t.progress == 3) = true := by decide +kernel

theorem test_xnop : after (step (v7 [0x78])) (fun t =>
    t.tx == [] && t.rx == [] && t.progress == 3 && t.trace == [.rx 0x78]) = true := by decide +kernel

/-- Vector V7: 0xFF in `IDLE` is an ignored byte, not an abort. -/
theorem test_ignored : after (step (v7 [0xFF])) (fun t =>
    t.tx == [] && t.rx == [] && t.progress == 3 && t.seq == .idle) = true := by decide +kernel

/-- Program P7: the abort at the second point leaves the cells written and `progress` at 0. -/
theorem test_abort_second : after (exec .write { ideal [] with transferLength := 2, rx := [0x0F, 0xF0, 0x00, 0xFF] }) (fun t =>
    t.tx == [0x01, 0x01, 0xFF, 0x01, 0xFF] && t.progress == 0 && t.chip.cells == [(0, 0x0F), (1, 0xF0)]) = true := by
  decide +kernel

/-- Vector V5, second row: a wrong sample, then the right one. -/
theorem test_retry : after (ticks 29 { midway (writeOneByteCode 0x0100 0x11) writeLines with
      chip := { Chip.initial with model := .unnamed }, answers := [0xFF, 0x11] }) (fun t =>
    t.verifiedValue == 0x11 && t.attempt == 2 && t.elapsed == 222 && t.todo == []) = true := by decide +kernel

/-- A reset in the middle of a Write-one-byte leaves the cell open, and two samples of it may differ (70_reset_and_hazards
R260, entry U13). -/
theorem test_reset_opens_cell : after (step underReset) (fun t =>
      t.chip.unsettled == [0x0100] && t.chip.cells == [] &&
      after (exec .read1 { t with answers := [0x5A, 0xA5], baseAddress := 0x0100 }) (fun u =>
        after (exec .read1 { u with progress := 0 }) (fun w => w.tx == [0x5A, 0xA5]))) = true := by decide +kernel

/-- The reset input takes effect with no step between its two edges (70_reset_and_hazards R260, decision D31). -/
theorem test_reset_pulse_at_once :
    (((v7 [7]).environment (.resetInput true)).environment (.resetInput false)).baseAddress = 0 ∧
    (((v7 [7]).environment (.resetInput true)).environment (.resetInput false)).rx = [7] := by decide

/-- A send that the link does not take, with no byte from the host, is stuck (70_reset_and_hazards R283). -/
theorem test_stuck_in_send : ({ midway [.send .ack] idleLines with txRoom := some 0 } : State).runStuck = true ∧
    (midway [.send .ack] idleLines).runStuck = false ∧ (midway [.recv .wData] writeLines).runStuck = true ∧
    State.reset.runStuck = false ∧ State.reset.runOver = true := by decide

/-- `Wait(95)` at 16 MHz, a period of 62.5 ns, and a quotient that is rounded up (40_bus_driver R134). -/
theorem test_waitCycles : waitCycles 95 (1 / 16 : ℚ) = 1520 ∧ waitCycles 1 (3 / 7 : ℚ) = 3 := by decide +kernel

/-! ### Witnesses: a state and operands that meet the hypotheses of each statement -/

theorem witness_DecodeOfEncode : (Instr.ignored 0x53).wf = true := by decide

theorem witness_EveryByteIsACommand : Instr.setAddr.wf = true ∧ Instr.setAddr.opByte = 0x73 ∧ (v7 [0x73]).resetIn = false ∧
    (v7 [0x73]).todo = [] ∧ (v7 [0x73]).rx = 0x73 :: [] := ⟨rfl, rfl, rfl, rfl, rfl⟩

theorem witness_FrameDecodeOfEncode : Frame.fits 513 (.write
    [⟨List.replicate 512 0xA5, 0, some 0⟩, ⟨[0xA5], 0, some 0xFF⟩]) = true := by decide +kernel

theorem witness_WriteFrameLength : blocksFit 2 [⟨[1, 2], 0, some 0xFE⟩] = true ∧ noAbort [⟨[1, 2], 0, some 0xFE⟩] :=
  ⟨by decide, fun b hb => by simp only [List.mem_singleton] at hb; subst hb; exact ⟨by decide, _, rfl, by decide⟩⟩

theorem witness_AddressPortsRoundTrip : (0x3FFF : Word).toNat ≤ 0x3FFF := by decide

theorem witness_SetAddressSelectsChipByte :
    (midway [.setAddress 0xFFFF] idleLines).resetIn = false ∧
      (midway [.setAddress 0xFFFF] idleLines).todo = .setAddress 0xFFFF :: [] := ⟨rfl, rfl⟩

theorem witness_StepRunsDecodedCommand : (v7 [0x73, 1, 2]).resetIn = false ∧ (v7 [0x73, 1, 2]).todo = [] ∧
    decode (v7 [0x73, 1, 2]).rx = .command .setAddr 0x73 [1, 2] := ⟨rfl, rfl, rfl⟩

theorem witness_BlockedStepChangesNothing_recv :
    (midway [.recv .wData] writeLines).resetIn = false ∧ (midway [.recv .wData] writeLines).inLinkRecv = true ∧
      (midway [.recv .wData] writeLines).rx = [] := ⟨rfl, rfl, rfl⟩

theorem witness_BlockedStepChangesNothing_byte :
    ({ midway [.recv .sLo] idleLines with rx := [7] }).resetIn = false ∧
      ({ midway [.recv .sLo] idleLines with rx := [7] }).rx = 7 :: [] ∧
      ({ midway [.recv .sLo] idleLines with rx := [7] }).todo = .recv .sLo :: [] ∧
      (v7 [7]).rx = 7 :: [] ∧ (v7 [7]).todo = [] := ⟨rfl, rfl, rfl, rfl, rfl⟩

theorem witness_BlockedStepChangesNothing_send :
    ({ midway [.send .ack] idleLines with txRoom := some 0 }).resetIn = false ∧
      ({ midway [.send .ack] idleLines with txRoom := some 0 }).sending.isSome = true ∧
      ({ midway [.send .ack] idleLines with txRoom := some 0 }).txRoom = some 0 := ⟨rfl, rfl, rfl⟩

theorem witness_StepIsTicks : (∃ t, step (v7 [0x2B]) = .next t) ∧
    step (midway [.driveData 1] readLines) = .fault .driveWhileInput ∧ ∃ t, ticks 3 (v7 [0x2B]) = .next t :=
  ⟨⟨_, rfl⟩, rfl, _, rfl⟩

theorem witness_AssertedResetWins : underReset.resetIn = true := rfl

theorem witness_ResetSpoilsAtMostOneCell : underReset.resetIn = true ∧ byteWriteUnderWay underReset.todo = true ∧
    underReset.chip.model = .ideal ∧ (0x0101 : Nat) ≠ (Bus.chipAddr underReset.bus).toNat ∧
    byteWriteUnderWay { midway [.chipDisable] idleLines with resetIn := true }.todo = false :=
  ⟨rfl, rfl, rfl, by decide, rfl⟩

theorem witness_OnlyBusLinesChangeTheBus : (midway [.clearCrc] readLines).resetIn = false ∧
    (∃ t, tick (midway [.clearCrc] readLines) = .next t) ∧
    ∀ a rest, (midway [.clearCrc] readLines).todo = a :: rest → isBusLine a = false :=
  ⟨rfl, ⟨_, rfl⟩, fun _ _ h => by cases h; rfl⟩

theorem witness_BusLinesLeaveTheSession : (midway [.oeAssert] readLines).resetIn = false ∧
    (midway [.oeAssert] readLines).todo = .oeAssert :: [] ∧ isBusLine .oeAssert = true ∧
    ∃ t, tick (midway [.oeAssert] readLines) = .next t := ⟨rfl, rfl, rfl, _, rfl⟩

theorem witness_exec_next : (∃ t, exec .setAddr (v7 [1, 2]) = .next t) ∧ (∃ t, exec .setLen (v7 [1, 2]) = .next t) ∧
    (∃ t, exec .read (v7 []) = .next t) ∧ (∃ t, exec .read1 (v7 []) = .next t) ∧ (∃ t, exec .reinit (v7 []) = .next t) ∧
    (∃ t, exec .diag1 (v7 []) = .next t) ∧ (∃ t, exec .diag2 (v7 []) = .next t) ∧ (∃ t, exec .xnop (v7 []) = .next t) ∧
    (∃ t, exec (.ignored 0) (v7 []) = .next t) ∧ (∃ t, exec .write (v7 [1, 2, 3, 4, 0, 0]) = .next t) :=
  ⟨⟨_, rfl⟩, ⟨_, rfl⟩, ⟨_, rfl⟩, ⟨_, rfl⟩, ⟨_, rfl⟩, ⟨_, rfl⟩, ⟨_, rfl⟩, ⟨_, rfl⟩, ⟨_, rfl⟩, ⟨_, rfl⟩⟩

theorem witness_WrongDirectionFaults :
    (midway [.driveData 1] readLines).todo = .driveData 1 :: [] ∧ (midway [.driveData 1] readLines).bus.dir = .input ∧
    (midway [.driveData 1] writeLines).todo = .driveData 1 :: [] ∧ (midway [.driveData 1] writeLines).bus.dir = .output ∧
    (midway [.sampleData .value] writeLines).todo = .sampleData .value :: [] ∧
    (midway [.sampleData .value] writeLines).bus.dir = .output ∧ (midway [.driveData 1] readLines).resetIn = false :=
  ⟨rfl, rfl, rfl, rfl, rfl, rfl, rfl⟩

theorem witness_ModeSwitches : (midway [.enterWriteMode] idleLines).todo = .enterWriteMode :: [] ∧
    (midway [.enterReadMode] writeLines).todo = .enterReadMode :: [] ∧ (midway [.enterReadMode] writeLines).resetIn = false :=
  ⟨rfl, rfl, rfl⟩

/-- A floating bus: the chip is selected and its outputs are off. -/
def floating : State := { midway [.sampleData .value] readLines with answers := [0x5A] }

/-- A cell that a reset has left open, about to be sampled. -/
def unsettledCell : State :=
  { midway [.sampleData .value] { readLines with oe := true } with
    answers := [0x5A], chip := { Chip.initial with model := .ideal, unsettled := [0x0100] } }

theorem witness_OpenSampleIsAnyByte : floating.resetIn = false ∧ floating.bus.dir = .input ∧ floating.bus.oe = false ∧
    floating.todo = .sampleData .value :: [] ∧ floating.answers = 0x5A :: [] ∧
    unsettledCell.resetIn = false ∧ unsettledCell.bus.dir = .input ∧ unsettledCell.bus.ce = true ∧
    unsettledCell.bus.oe = true ∧ unsettledCell.chip.model = .ideal ∧
    (Bus.chipAddr unsettledCell.bus).toNat ∈ unsettledCell.chip.unsettled ∧
    unsettledCell.todo = .sampleData .value :: [] ∧ unsettledCell.answers = 0x5A :: [] :=
  ⟨rfl, rfl, rfl, rfl, rfl, rfl, rfl, rfl, rfl, rfl, by decide, rfl, rfl⟩

theorem witness_ProgramPulseStoresOneByte :
    (midway [.pgmAssert, .wait 95, .pgmDeassert] writeLines).resetIn = false ∧
      Bus.lines (midway [.pgmAssert, .wait 95, .pgmDeassert] writeLines).bus = writeLines ∧
      (midway [.pgmAssert, .wait 95, .pgmDeassert] writeLines).chip.model = .ideal ∧
      (midway [.pgmAssert, .wait 95, .pgmDeassert] writeLines).todo = .pgmAssert :: .wait Config.tPgm :: .pgmDeassert :: [] :=
  ⟨rfl, rfl, rfl, rfl⟩

theorem witness_WriteOneByte : (midway (writeOneByteCode 0x0100 0x11) writeLines).resetIn = false ∧
    Bus.lines (midway (writeOneByteCode 0x0100 0x11) writeLines).bus = writeLines ∧
    (midway (writeOneByteCode 0x0100 0x11) writeLines).todo = writeOneByteCode 0x0100 0x11 ++ [] ∧
    (midway (writeOneByteCode 0x0100 0x11) writeLines).chip.model = .ideal := ⟨rfl, rfl, rfl, rfl⟩

/-- A Write-one-byte about to begin on a chip that never verifies. -/
def hopeless : State :=
  { midway (writeOneByteCode 0x0100 0x11) writeLines with chip := { Chip.initial with model := .neverVerify } }

theorem witness_WriteOneByteExhausts : hopeless.resetIn = false ∧ Bus.lines hopeless.bus = writeLines ∧
    hopeless.chip.model = .neverVerify ∧ hopeless.todo = writeOneByteCode 0x0100 0x11 ++ [] := ⟨rfl, rfl, rfl, rfl⟩

theorem witness_ReadOneByteSamplesOnce : (midway [.callReadOneByte] readLines).resetIn = false ∧
    Bus.lines (midway [.callReadOneByte] readLines).bus = readLines ∧
    (midway [.callReadOneByte] readLines).todo = .callReadOneByte :: [] ∧
    (midway [.callReadOneByte] readLines).chip.model = .ideal ∧
    (chipAddrOf ((midway [.callReadOneByte] readLines).baseAddress +
      (midway [.callReadOneByte] readLines).progress)).toNat ∉ (midway [.callReadOneByte] readLines).chip.unsettled :=
  ⟨rfl, rfl, rfl, rfl, by decide⟩

theorem witness_SetAddrCompletes : (v7 [0xFF, 0xFF]).rx = 0xFF :: 0xFF :: [] ∧ roomFor (v7 [0xFF, 0xFF]) 1 ∧
    (v7 []).rx = [] ∧ (v7 [0xFF]).rx = [0xFF] := ⟨rfl, ready rfl 1, rfl, rfl⟩

theorem witness_SetLenCompletes : (v7 [0, 0]).rx = 0 :: 0 :: [] ∧ roomFor (v7 [0, 0]) 1 ∧ (v7 []).rx = [] ∧
    (v7 [0]).rx = [0] := ⟨rfl, ready rfl 1, rfl, rfl⟩

theorem witness_HalfOperandWaits : (v7 [9]).rx = [9] ∧ roomFor (v7 [9]) 1 ∧ (v7 [9]).resetIn = false :=
  ⟨rfl, ready rfl 1, rfl⟩

theorem witness_Read1Completes : roomFor (v7 []) 1 ∧ (v7 []).chip.model = .ideal ∧
    (chipAddrOf ((v7 []).baseAddress + (v7 []).progress)).toNat ∉ (v7 []).chip.unsettled := ⟨ready rfl 1, rfl, by decide⟩

theorem witness_NoOpsChangeNothing : (v7 [0x00]).resetIn = false ∧ (v7 [0x00]).todo = [] ∧ (v7 [0x00]).rx = 0x00 :: [] ∧
    decodeByte 0x00 = .ignored 0x00 ∧ (v7 [0x78]).rx = 0x78 :: [] ∧ decodeByte 0x78 = .xnop :=
  ⟨rfl, rfl, rfl, rfl, rfl, rfl⟩

/-- The longest Bulk Read, on a link that takes exactly its bytes; and one that leaves the address lines at 0x0103. -/
theorem witness_BulkReadRuns :
    roomFor { ideal [] with transferLength := 0xFFFF, txRoom := some 65536 }
      (({ ideal [] with transferLength := 0xFFFF, txRoom := some 65536 } : State).transferLength.toNat + 1) ∧
    roomFor (v7 []) ((v7 []).transferLength.toNat + 1) ∧ (v7 []).bus.oe = false ∧ (v7 []).transferLength ≠ 0 :=
  ⟨fun r hr => by cases hr; decide, ready rfl _, rfl, by decide⟩

theorem witness_BulkReadOnIdealChip : roomFor (v7 []) ((v7 []).transferLength.toNat + 1) ∧ (v7 []).chip.model = .ideal ∧
    ∀ k : Nat, k < (v7 []).transferLength.toNat →
      (chipAddrOf ((v7 []).baseAddress + BitVec.ofNat 16 k)).toNat ∉ (v7 []).chip.unsettled :=
  ⟨ready rfl _, rfl, by decide⟩

/-- Program P2. -/
def p2 : State := { State.reset with chip := { Chip.initial with model := .fixedRead [0xAA, 0x55, 0xFF] }, transferLength := 3 }

theorem witness_BulkReadOnFixedReadChip : roomFor p2 (p2.transferLength.toNat + 1) ∧
    p2.chip.model = .fixedRead [0xAA, 0x55, 0xFF] ∧ p2.transferLength.toNat ≤ [0xAA, 0x55, 0xFF].length :=
  ⟨ready rfl _, rfl, by decide⟩

theorem witness_ZeroLengthTransfers : State.reset.transferLength = 0 ∧ roomFor State.reset 1 := ⟨rfl, ready rfl 1⟩

theorem witness_BulkWriteRuns : blocksFit (v7 [1, 2, 3, 4, 0, 0, 9]).transferLength.toNat [⟨[1, 2, 3, 4], 0, some 0⟩] = true ∧
    (v7 [1, 2, 3, 4, 0, 0, 9]).rx = [⟨[1, 2, 3, 4], 0, some 0⟩].flatMap WriteBlock.bytes ++ [9] ∧
    roomFor (v7 [1, 2, 3, 4, 0, 0, 9]) (1 + 4 * 1) ∧ (v7 [1, 2, 3, 4, 0, 0, 9]).chip.model = .ideal ∧
    (v7 []).bus.pgm = false := ⟨by decide, rfl, ready rfl _, rfl, rfl⟩

/-- A Bulk Write aborted at the first and one aborted at the second point. -/
theorem witness_BulkWriteRuns_abort :
    blocksFit (v7 [1, 2, 3, 4, 0xFF, 9]).transferLength.toNat [⟨[1, 2, 3, 4], 0xFF, none⟩] = true ∧
    (v7 [1, 2, 3, 4, 0xFF, 9]).rx = [⟨[1, 2, 3, 4], 0xFF, none⟩].flatMap WriteBlock.bytes ++ [9] ∧
    blocksFit (v7 [1, 2, 3, 4, 0, 0xFF, 9]).transferLength.toNat [⟨[1, 2, 3, 4], 0, some 0xFF⟩] = true ∧
    (v7 [1, 2, 3, 4, 0, 0xFF, 9]).rx = [⟨[1, 2, 3, 4], 0, some 0xFF⟩].flatMap WriteBlock.bytes ++ [9] ∧
    storedData [⟨[1, 2, 3, 4], 0, some 0xFF⟩] ≠ [] :=
  ⟨by decide, rfl, by decide, rfl, by decide⟩

theorem witness_AbortBeforeWritingABlock : (v7 [1, 2, 3, 4, 0xFF]).transferLength ≠ 0 ∧
    [1, 2, 3, 4].length = min 512 (v7 [1, 2, 3, 4, 0xFF]).transferLength.toNat ∧
    (v7 [1, 2, 3, 4, 0xFF]).rx = [1, 2, 3, 4] ++ 0xFF :: [] ∧ roomFor (v7 [1, 2, 3, 4, 0xFF]) 3 :=
  ⟨by decide, by decide, rfl, ready rfl _⟩

theorem witness_CommandConsumesItsFrame : (Frame.setAddr 0x1234).fits (v7 [0x34, 0x12, 7]).transferLength = true ∧
    (v7 [0x34, 0x12, 7]).txRoom = none ∧ (v7 [0x34, 0x12, 7]).rx = (Frame.setAddr 0x1234).operandBytes ++ [7] :=
  ⟨rfl, rfl, rfl⟩

/-- A Bulk Write at its loop test, within a transfer. -/
def atLoop (len progress : Word) : State :=
  { midway (.whileWrite :: writeExit) writeLines with transferLength := len, progress := progress }

theorem witness_BlockSizeRule : (atLoop 513 0).resetIn = false ∧ (atLoop 513 0).todo = .whileWrite :: writeExit ∧
    (atLoop 513 0).progress.toNat < (atLoop 513 0).transferLength.toNat ∧ (atLoop 513 512).progress.toNat % 512 = 0 ∧
    (atLoop 513 512).progress.toNat + 512 ≥ (atLoop 513 512).transferLength.toNat ∧
    (atLoop 513 513).transferLength.toNat ≤ (atLoop 513 513).progress.toNat := by
  refine ⟨rfl, rfl, ?_, ?_, ?_, ?_⟩ <;> decide

theorem witness_WriteStoresOnlyInRange : (∃ t, exec .write (v7 [1, 2, 3, 4, 0, 0]) = .next t) ∧
    ∀ k : Nat, k < (v7 [1, 2, 3, 4, 0, 0]).transferLength.toNat →
      (0x0104 : Nat) ≠ (chipAddrOf ((v7 [1, 2, 3, 4, 0, 0]).baseAddress + BitVec.ofNat 16 k)).toNat := by
  refine ⟨⟨_, rfl⟩, ?_⟩
  decide

theorem witness_ChipDecidesOnlySamples : sameButChip (v7 []) { v7 [] with chip := Chip.initial, answers := [1], draws := 2 } ∧
    ∃ t, exec .read (v7 []) = .next t := ⟨rfl, _, rfl⟩

theorem witness_EarlyHostBytesWait : ∃ t, exec .setAddr (v7 [1, 2]) = .next t ∧ t.todo = [] := ⟨_, rfl, rfl⟩

theorem witness_NoContractViolation : (midway (writeOneByteCode 0x0100 0x11) writeLines).directionSafe = true := by decide

theorem witness_BusDisciplineKept : (atLoop 513 0).busDisciplined = true ∧ (atLoop 513 0).noDiagnosticNext = true ∧
    (v7 [0x64]).busDisciplined = true ∧ (v7 [0x64]).noDiagnosticNext = true := by decide

theorem witness_DisciplineMeansBusInvariants :
    (midway (.pgmAssert :: .wait 95 :: .pgmDeassert :: writeExit) writeLines).busDisciplined = true ∧
      (midway (.pgmAssert :: .wait 95 :: .pgmDeassert :: writeExit) writeLines).bus.dir = .output ∧
      (midway [.sampleData .value, .oeDeassert, .chipDisable] { readLines with oe := true }).busDisciplined = true := by
  decide

theorem witness_IdleBusIsReadMode : (v7 []).busDisciplined = true ∧ (v7 []).seq = .idle := by decide

theorem witness_WriteHoldsVppAndCe : (atLoop 513 0).busDisciplined = true ∧ (atLoop 513 0).todo.contains .whileWrite = true ∧
    (atLoop 513 0).todo.contains .enterWriteMode = false ∧ (atLoop 513 0).todo.contains .chipEnable = false := by decide

theorem witness_TransferBoundsKept : (atLoop 513 512).transferBounded = true ∧ ∃ t, tick (atLoop 513 512) = .next t :=
  ⟨by decide, _, rfl⟩

/-- The write phase of a block of one byte, its cell about to be written. -/
def inBlock : State :=
  { midway (.callWriteOneByte :: .foldVerified :: .forWrite :: .advanceBlock :: .whileWrite :: writeExit) writeLines with
    transferLength := 513, progress := 512, blockSize := 1, i := 0 }

theorem witness_ProgressWithinLength : inBlock.transferBounded = true ∧ inBlock.inTransferLoop = true ∧
    inBlock.todo = .callWriteOneByte :: [.foldVerified, .forWrite, .advanceBlock, .whileWrite, .chipDisable, .enterReadMode] :=
  ⟨by decide, by decide, rfl⟩

theorem witness_MemoryFormKept : Memory.wf (v7 [0x2B]).chip.cells ∧ ∃ t, step (v7 [0x2B]) = .next t :=
  ⟨by decide, _, rfl⟩

theorem witness_EnvironmentKeepsInvariants : soundState (v7 []) ∧ (v7 []).busDisciplined = true :=
  ⟨⟨by decide, by decide, by decide⟩, by decide⟩

theorem witness_WaitsAreNeverShortened : (midway [.wait 95] writeLines).resetIn = false ∧
    (midway [.wait 95] writeLines).todo = .wait 95 :: [] ∧ (0 : ℝ) < 1 / 16 := ⟨rfl, rfl, by norm_num⟩

end Sys2Proof.Tests
end

section
/-! SUPPORT. Ticks and steps, an equation per case: what each of them does under reset, in `IDLE` and inside a command; a run
of lines as ticks; and the obligation that ties the two (spec 00_scope R13; log entries 1, 2). -/

namespace Sys2Proof.Machine

/-! ### The fetch -/

/-- What the dispatcher's fetch can answer. -/
theorem fetch_cases (s : State) :
    (s.rx = [] ∧ fetch s = none) ∨
      ∃ b rest, s.rx = b :: rest ∧
        fetch s = some (decodeByte b, { s with rx := rest, trace := s.trace ++ [.rx b] }) := by
  rcases linkRecv_cases s with ⟨hx, hl⟩ | ⟨b, rest, hx, hl⟩
  · exact .inl ⟨hx, by simp [fetch, hl]⟩
  · exact .inr ⟨b, rest, hx, by simp [fetch, hl]⟩

/-! ### One tick -/

theorem tick_asserted {s : State} (hr : s.resetIn = true) : tick s = .next s.assertReset := by
  simp [tick, resetAsserted, hr]

/-- A tick in `IDLE` takes a command byte, and the decoded command's lines are next. -/
theorem tick_fetched {s u : State} {i : Instr} (hr : s.resetIn = false) (ht : s.todo = [])
    (hf : fetch s = some (i, u)) : tick s = .next { u with todo := commandCode i } := by
  simp [tick, resetAsserted, hr, ht, hf]

theorem tick_starved {s : State} (hr : s.resetIn = false) (ht : s.todo = []) (hf : fetch s = none) :
    tick s = .next s := by
  simp [tick, resetAsserted, hr, ht, hf]

theorem tick_blocked {s : State} (hr : s.resetIn = false) (ht : s.todo ≠ []) (h : advance s = .blocked) :
    tick s = .next s := by
  obtain ⟨a, rest, ht⟩ := List.exists_cons_of_ne_nil ht
  simp [tick, resetAsserted, hr, ht, h]

theorem tick_fault {s : State} {f : Fault} (hr : s.resetIn = false) (h : advance s = .fault f) : tick s = .fault f := by
  have ht : s.todo ≠ [] := fun ht => by simp [advance_nil ht] at h
  obtain ⟨a, rest, ht⟩ := List.exists_cons_of_ne_nil ht
  simp [tick, resetAsserted, hr, ht, h]

/-- What a tick with a next state can have done: reset, a command byte, a line, or nothing. -/
theorem tick_next {s t : State} (h : tick s = .next t) :
    (s.resetIn = true ∧ t = s.assertReset) ∨
    (s.resetIn = false ∧ s.todo = [] ∧ ∃ b rest, s.rx = b :: rest ∧
      t = { s with rx := rest, todo := commandCode (decodeByte b), trace := s.trace ++ [.rx b] }) ∨
    (s.resetIn = false ∧ advance s = .moved t) ∨
    (s.resetIn = false ∧ advance s = .blocked ∧ t = s) := by
  cases hr : s.resetIn
  case true =>
    rw [tick_asserted hr, Host.Outcome.next.injEq] at h
    exact .inl ⟨rfl, h.symm⟩
  case false =>
    by_cases ht : s.todo = []
    · rcases fetch_cases s with ⟨_, hf⟩ | ⟨b, rest, hx, hf⟩
      · rw [tick_starved hr ht hf, Host.Outcome.next.injEq] at h
        exact .inr (.inr (.inr ⟨rfl, advance_nil ht, h.symm⟩))
      · rw [tick_fetched hr ht hf, Host.Outcome.next.injEq] at h
        exact .inr (.inl ⟨rfl, ht, b, rest, hx, hr ▸ h.symm⟩)
    · cases ha : advance s with
      | moved u =>
        rw [tick_of_moved hr ha, Host.Outcome.next.injEq] at h
        exact .inr (.inr (.inl ⟨rfl, h ▸ rfl⟩))
      | blocked =>
        rw [tick_blocked hr ht ha, Host.Outcome.next.injEq] at h
        exact .inr (.inr (.inr ⟨rfl, rfl, h.symm⟩))
      | fault f => simp [tick_fault hr ha] at h

/-- Only the environment moves the reset input: no tick does, reset itself included. -/
theorem tick_resetIn {s t : State} (h : tick s = .next t) : t.resetIn = s.resetIn := by
  rcases tick_next h with ⟨_, rfl⟩ | ⟨_, _, _, _, _, rfl⟩ | ⟨_, ha⟩ | ⟨_, _, rfl⟩
  · rfl
  · rfl
  · exact advance_resetIn ha
  · rfl

/-! ### Several ticks -/

theorem ticks_succ {s t : State} (n : Nat) (h : tick s = .next t) : ticks (n + 1) s = ticks n t := by
  simp [ticks, h]

theorem ticks_one (s : State) : ticks 1 s = tick s := by
  unfold ticks
  cases tick s <;> rfl

theorem ticks_resetIn {n : Nat} {s t : State} (h : ticks n s = .next t) : t.resetIn = s.resetIn := by
  induction n generalizing s with
  | zero => cases h; rfl
  | succ n ih =>
    cases hs : tick s with
    | next u => rw [ticks_succ n hs] at h; exact (ih h).trans (tick_resetIn hs)
    | fault f => simp [ticks, hs] at h
    | refused r => simp [ticks, hs] at h

/-- A run of lines is a number of ticks with the same outcome, a fault included; a blocked line costs none. -/
theorem run_is_ticks (n : Nat) {s : State} (hr : s.resetIn = false) : ∃ k, ticks k s = run n s := by
  induction n generalizing s with
  | zero => exact ⟨0, rfl⟩
  | succ n ih =>
    cases ha : advance s with
    | moved t =>
      obtain ⟨k, hk⟩ := ih ((advance_resetIn ha).trans hr)
      exact ⟨k + 1, by rw [ticks_succ k (tick_of_moved hr ha), hk, run_moved ha]⟩
    | blocked => exact ⟨0, (run_blocked ha).symm⟩
    | fault f => exact ⟨1, by simp [ticks_one, tick_fault hr ha, run, ha]⟩

/-! ### One step -/

theorem step_asserted {s : State} (hr : s.resetIn = true) : step s = .next s.assertReset := by
  simp [step, resetAsserted, hr]

/-- A step in `IDLE` takes a command byte and runs the decoded command. -/
theorem step_fetched {s u : State} {i : Instr} (hr : s.resetIn = false) (ht : s.todo = [])
    (hf : fetch s = some (i, u)) : step s = exec i u := by
  simp [step, resetAsserted, hr, ht, hf]

theorem step_starved {s : State} (hr : s.resetIn = false) (ht : s.todo = []) (hf : fetch s = none) :
    step s = .next s := by
  simp [step, resetAsserted, hr, ht, hf]

/-- A step inside a command goes on with its lines. -/
theorem step_midway {s : State} (hr : s.resetIn = false) (ht : s.todo ≠ []) : step s = run Config.stepBudget s := by
  obtain ⟨a, rest, ht⟩ := List.exists_cons_of_ne_nil ht
  simp [step, resetAsserted, hr, ht]

/-- A step is a number of ticks with the same outcome: under reset one; in `IDLE` the tick that takes the command byte and
those of the command's run, or none without a byte; inside a command those of its run. -/
theorem step_is_ticks (s : State) : ∃ n, ticks n s = step s := by
  cases hr : s.resetIn
  case true => exact ⟨1, by rw [ticks_one, tick_asserted hr, step_asserted hr]⟩
  case false =>
    by_cases ht : s.todo = []
    · rcases fetch_cases s with ⟨_, hf⟩ | ⟨b, rest, _, hf⟩
      · exact ⟨0, (step_starved hr ht hf).symm⟩
      · obtain ⟨k, hk⟩ := run_is_ticks Config.stepBudget
          (s := { s with rx := rest, todo := commandCode (decodeByte b), trace := s.trace ++ [.rx b] }) hr
        exact ⟨k + 1, by rw [ticks_succ k (tick_fetched hr ht hf), hk, step_fetched hr ht hf, exec_eq, runCommand]⟩
    · obtain ⟨k, hk⟩ := run_is_ticks Config.stepBudget hr
      exact ⟨k, by rw [hk, step_midway hr ht]⟩

/-- Settles O11: a step and the ticks it is made of have one outcome, whatever it is, and no tick moves the reset input. -/
theorem stepIsTicks : Obligations.StepIsTicks := by
  intro s
  obtain ⟨n, hn⟩ := step_is_ticks s
  exact ⟨fun _ h => ⟨n, hn.trans h⟩, fun _ h => ⟨n, hn.trans h⟩, fun _ _ h => ticks_resetIn h⟩

end Sys2Proof.Machine
end

section
/-! SUPPORT. The events of a line, said once, and what they account for: the bytes of the link and the fields of the bus
(spec 00_scope R13, 10_state R29, R42). -/

namespace Sys2Proof.Claims

open Sys2Proof.Machine

/-! ### Stretches of trace -/

theorem sentBytes_append (es fs : List Event) : sentBytes (es ++ fs) = sentBytes es ++ sentBytes fs :=
  List.filterMap_append

theorem takenBytes_append (es fs : List Event) : takenBytes (es ++ fs) = takenBytes es ++ takenBytes fs :=
  List.filterMap_append

theorem Accounted.refl (s : State) : Accounted s s := ⟨[], by simp [sentBytes, takenBytes]⟩

theorem Accounted.trans {s t u : State} (h : Accounted s t) (h' : Accounted t u) : Accounted s u := by
  obtain ⟨es, htr, htx, hrx, hbus⟩ := h
  obtain ⟨fs, htr', htx', hrx', hbus'⟩ := h'
  refine ⟨es ++ fs, ?_, ?_, ?_, ?_⟩
  · rw [htr', htr, List.append_assoc]
  · rw [htx', htx, sentBytes_append, List.append_assoc]
  · rw [hrx, hrx', takenBytes_append, List.append_assoc]
  · rw [hbus', hbus, List.foldl_append]

/-! ### The events of a line -/

/-- The events that a line appends when it runs in `s` (40_bus_driver R121 to R134; 20_memory R71, R72); a move of control
has none. -/
def lineEvents (a : Act) (s : State) : List Event :=
  match a with
  | .setAddress addr => [addrEvent addr]
  | .enterWriteMode => [.vpp true, .dir .output]
  | .enterReadMode => [.vpp false, .dout Config.dataNeutral, .dir .input]
  | .driveData b => [.dout b]
  | .sampleData _ => [.sample s.busValue.1]
  | .busToInput => [.dir .input]
  | .busToOutput => [.dir .output]
  | .chipEnable => [.ce true]
  | .chipDisable => [.ce false]
  | .oeAssert => [.oe true]
  | .oeDeassert => [.oe false]
  | .pgmAssert => [.pgm true]
  | .pgmDeassert => [.pgm false]
  | .wait us => [.wait us]
  | .recv _ => (s.rx.take 1).map .rx
  | .send v => [.tx (sendByte v s)]
  | .reinitAddress => if Config.reinitDrivesAddress then [addrEvent 0] else []
  | .applyPattern p => [.pattern p]
  | .clearBase | .clearProgress | .bumpProgress | .clearCrc | .foldCrc | .clearAttempt | .attempt _ | .untilVerified _
  | .callReadOneByte | .callWriteOneByte | .whileWrite | .beginReceive | .forReceive | .beginWrite | .forWrite
  | .foldVerified | .advanceBlock | .whileRead => []

/-- A line appends its events to the trace, and they account for what it does to the link and to the bus. -/
theorem perform_accounts {a : Act} {s t : State} (h : perform a s = .moved t) :
    t.trace = s.trace ++ lineEvents a s ∧ t.tx = s.tx ++ sentBytes (lineEvents a s) ∧
      s.rx = takenBytes (lineEvents a s) ++ t.rx ∧ t.bus = (lineEvents a s).foldl busAfter s.bus := by
  cases a
  case recv p =>
    obtain ⟨b, rest, hx, rfl⟩ := perform_recv h
    simp [lineEvents, hx, sentBytes, takenBytes, busAfter]
  case send v =>
    obtain ⟨_, rfl⟩ := perform_send h
    simp [lineEvents, sentBytes, takenBytes, busAfter]
  case driveData b =>
    obtain ⟨_, rfl⟩ := perform_driveData h
    simp [lineEvents, sentBytes, takenBytes, busAfter]
  case sampleData r =>
    obtain ⟨_, rfl⟩ := perform_sampleData h
    simp [lineEvents, sampleInto_writes, sentBytes, takenBytes, busAfter]
  case reinitAddress =>
    cases h
    cases hd : Config.reinitDrivesAddress <;> simp [lineEvents, hd, addrEvent, sentBytes, takenBytes, busAfter]
  case untilVerified | whileWrite | whileRead | forReceive | forWrite =>
    cases h
    split <;> simp [lineEvents, sentBytes, takenBytes]
  all_goals
    cases h
    simp [lineEvents, addrEvent, sentBytes, takenBytes, busAfter]

theorem perform_accounted {a : Act} {s t : State} (h : perform a s = .moved t) : Accounted s t :=
  ⟨lineEvents a s, perform_accounts h⟩

/-- Settles O17: every line of a command accounts for itself, and what comes after accounted lines is accounted for from
the start. -/
theorem traceAccountsForCommand : Obligations.TraceAccountsForCommand := by
  intro i s t h
  exact exec_keeps (P := Accounted s) (fun _ _ _ _ hs hp => hs.trans (perform_accounted hp)) (fun _ _ hs => hs) h
    (Accounted.refl s)

end Sys2Proof.Claims
end

section
/-! SUPPORT. The bus discipline, said once: what the check of the lines still to run says of the present lines and of the line
about to run (10_state R38, R39; 70_reset_and_hazards R270 (b), (c), R274). -/

namespace Sys2Proof.Claims

open Sys2Proof.Machine

/-! ### The present lines -/

/-- R38: while the EBC drives the bus, the chip does not. -/
theorem oe_off_of_output {l : Lines} (hok : l.ok = true) (hdir : l.dir = .output) : l.oe = false := by
  simp only [Lines.ok, Bool.and_eq_true, hdir, beq_self_eq_true, Bool.not_true, Bool.false_or] at hok
  simpa using hok.1

theorem busDisciplined_iff (s : State) :
    s.busDisciplined = true ↔
      (Bus.lines s.bus).ok = true ∧ linesAfterAll s.todo (Bus.lines s.bus) = some idleLines := by
  simp [State.busDisciplined]

/-! ### The line about to run -/

theorem linesAfterAll_cons_eq_some {a : Act} {rest : List Act} {l m : Lines} :
    linesAfterAll (a :: rest) l = some m ↔ ∃ l', linesAfter a l = some l' ∧ linesAfterAll rest l' = some m :=
  Option.bind_eq_some_iff

/-- In a disciplined state, the discipline allows the line about to run where it stands. -/
theorem busDisciplined_head {s : State} {a : Act} {rest : List Act} (h : s.busDisciplined = true)
    (ht : s.todo = a :: rest) : ∃ l', linesAfter a (Bus.lines s.bus) = some l' := by
  obtain ⟨_, hrest⟩ := (busDisciplined_iff s).mp h
  rw [ht] at hrest
  obtain ⟨l', hl', _⟩ := linesAfterAll_cons_eq_some.mp hrest
  exact ⟨l', hl'⟩

theorem linesAfter_pgmAssert {l l' : Lines} (h : linesAfter .pgmAssert l = some l') : l = writeLines := by
  simp only [linesAfter] at h
  split at h
  · assumption
  · cases h

theorem linesAfter_sampleData {l l' : Lines} {r : SampleReg} (h : linesAfter (.sampleData r) l = some l') :
    l.dir = .input ∧ l.ce = true ∧ l.oe = true := by
  simp only [linesAfter] at h
  split at h
  · assumption
  · cases h

/-! ### The obligation -/

/-- Settles O53: the present lines keep R38, and the discipline allows a strobe only at the write lines and a sample only
where the chip drives an input bus. -/
theorem disciplineMeansBusInvariants : Obligations.DisciplineMeansBusInvariants := by
  intro s h
  obtain ⟨hok, _⟩ := (busDisciplined_iff s).mp h
  refine ⟨oe_off_of_output hok, fun rest ht => ?strobe, fun r rest ht => ?sample⟩
  case strobe =>
    obtain ⟨l', hl'⟩ := busDisciplined_head h ht
    have hlines := linesAfter_pgmAssert hl'
    simp only [Bus.lines, writeLines, Lines.mk.injEq] at hlines
    obtain ⟨hdir, hvpp, hce, _, _⟩ := hlines
    exact ⟨hdir, hvpp, hce⟩
  case sample =>
    obtain ⟨l', hl'⟩ := busDisciplined_head h ht
    exact linesAfter_sampleData hl'

end Sys2Proof.Claims
end

section
/-! SUPPORT. Where the EBC is blocked, said once, and what a line that receives or sends does when it is not (spec 20_memory
R71, R72; 10_state R40). -/

namespace Sys2Proof.Machine

/-- A line that receives, with a byte there. -/
theorem perform_recv_byte (p : RecvPos) {s : State} {b : Byte} {more : List Byte} (h : s.rx = b :: more) :
    perform (.recv p) s = .moved (receive p b { s with rx := more, trace := s.trace ++ [.rx b] }) := by
  simp [perform, linkRecv, h]

/-- A line that sends, with the link ready. -/
theorem perform_send_ready (v : SendVal) {s : State} (h : s.txRoom ≠ some 0) :
    perform (.send v) s = .moved { s with
      tx := s.tx ++ [sendByte v s], txRoom := s.txRoom.map (· - 1), trace := s.trace ++ [.tx (sendByte v s)] } := by
  rcases linkSend_cases (sendByte v s) s with ⟨h0, _⟩ | ⟨_, hl⟩
  · exact absurd h0 h
  · simp [perform, hl]

theorem advance_send_ready {v : SendVal} {s : State} {rest : List Act} (ht : s.todo = .send v :: rest)
    (h : s.txRoom ≠ some 0) : advance s = .moved { s with
      todo := rest, tx := s.tx ++ [sendByte v s], txRoom := s.txRoom.map (· - 1)
      trace := s.trace ++ [.tx (sendByte v s)] } := by
  rw [advance_cons ht, perform_send_ready v (s := { s with todo := rest }) h]
  cases v <;> rfl

/-- A line that drives, with the bus as output. -/
theorem perform_driveData_output (b : Byte) {s : State} (h : s.bus.dir = .output) :
    perform (.driveData b) s = .moved (driveData b s) := by
  simp [perform, h]

/-- A line that samples, with the bus as input. -/
theorem perform_sampleData_input (r : SampleReg) {s : State} (h : s.bus.dir = .input) :
    perform (.sampleData r) s = .moved (sampleInto r s) := by
  simp [perform, h]

/-- Only a receive with no byte there and a send on a link that is not ready block. -/
theorem perform_blocked_iff (a : Act) (s : State) :
    perform a s = .blocked ↔ (∃ p, a = .recv p) ∧ s.rx = [] ∨ (∃ v, a = .send v) ∧ s.txRoom = some 0 := by
  cases a
  case recv p => rcases linkRecv_cases s with ⟨hx, hl⟩ | ⟨b, rest, hx, hl⟩ <;> simp [perform, hx, hl]
  case send v => rcases linkSend_cases (sendByte v s) s with ⟨hx, hl⟩ | ⟨hx, hl⟩ <;> simp [perform, hx, hl]
  case driveData b => cases hd : s.bus.dir <;> simp [perform, hd]
  case sampleData r => cases hd : s.bus.dir <;> simp [perform, hd]
  all_goals simp [perform]

/-- The EBC does not move where it is in `IDLE` or at a line that blocks. -/
theorem advance_blocked_iff (s : State) :
    advance s = .blocked ↔ s.todo = [] ∨ (∃ p rest, s.todo = .recv p :: rest) ∧ s.rx = [] ∨
      (∃ v rest, s.todo = .send v :: rest) ∧ s.txRoom = some 0 := by
  cases ht : s.todo with
  | nil => simp [advance_nil ht]
  | cons a rest => simp [advance_cons ht, perform_blocked_iff]

/-- A step inside a command whose line blocks answers the same state. -/
theorem step_blocked {s : State} (hr : s.resetIn = false) (ht : s.todo ≠ []) (h : advance s = .blocked) :
    step s = .next s := by
  rw [step_midway hr ht, run_blocked h]

theorem inLinkRecv_iff (s : State) : s.inLinkRecv = true ↔ s.todo = [] ∨ ∃ p rest, s.todo = .recv p :: rest := by
  unfold State.inLinkRecv
  split <;> simp_all

theorem sending_isSome_iff (s : State) : s.sending.isSome = true ↔ ∃ v rest, s.todo = .send v :: rest := by
  unfold State.sending
  split <;> simp_all

/-- Settles O10: in `IDLE` the fetch, at a receive the line, finds no byte or takes the oldest one; a send finds the link not
ready. -/
theorem blockedStepChangesNothing : Obligations.BlockedStepChangesNothing := by
  intro s hr
  refine ⟨fun hin hx => ?noByte, fun b more hx => ⟨fun ht => ?idle, fun p rest ht => ?byte⟩, fun hs hroom => ?notReady⟩
  case noByte =>
    rcases (inLinkRecv_iff s).mp hin with ht | ⟨p, rest, ht⟩
    · have hf : fetch s = none := by simp [fetch, linkRecv, hx]
      exact ⟨step_starved hr ht hf, tick_starved hr ht hf⟩
    · have hb : advance s = .blocked := (advance_blocked_iff s).mpr (.inr (.inl ⟨⟨p, rest, ht⟩, hx⟩))
      exact ⟨step_blocked hr (by simp [ht]) hb, tick_blocked hr (by simp [ht]) hb⟩
  case idle =>
    have hf : fetch s = some (decodeByte b, { s with rx := more, trace := s.trace ++ [.rx b] }) := by
      simp [fetch, linkRecv, hx]
    exact tick_fetched hr ht hf
  case byte => exact tick_of_moved hr ((advance_cons ht).trans (perform_recv_byte p hx))
  case notReady =>
    obtain ⟨v, rest, ht⟩ := (sending_isSome_iff s).mp hs
    have hb : advance s = .blocked := (advance_blocked_iff s).mpr (.inr (.inr ⟨⟨v, rest, ht⟩, hroom⟩))
    exact ⟨step_blocked hr (by simp [ht]) hb, tick_blocked hr (by simp [ht]) hb⟩

end Sys2Proof.Machine
end

section
/-! SUPPORT. A sample depends neither on the lines still to run nor on the bytes waiting in `rx`, and leaves both (spec
20_memory R63, R66). -/

namespace Sys2Proof.Machine

theorem draw_withTodoRx (s : State) (todo : List Act) (rx : List Byte) :
    State.draw { s with todo := todo, rx := rx } = (s.draw.1, { s.draw.2 with todo := todo, rx := rx }) := by
  cases h : s.answers <;> simp [State.draw, h]

theorem chipAnswer_withTodoRx (s : State) (todo : List Act) (rx : List Byte) :
    State.chipAnswer { s with todo := todo, rx := rx } =
      (s.chipAnswer.1, { s.chipAnswer.2 with todo := todo, rx := rx }) := by
  have hd := draw_withTodoRx { s with chip := { s.chip with answered := s.chip.answered + 1 } } todo rx
  simp only [State.chipAnswer, hd]
  split
  · rfl
  · split <;> rfl
  · split <;> rfl
  · split <;> rfl

theorem busValue_withTodoRx (s : State) (todo : List Act) (rx : List Byte) :
    State.busValue { s with todo := todo, rx := rx } =
      (s.busValue.1, { s.busValue.2 with todo := todo, rx := rx }) := by
  simp only [State.busValue, chipAnswer_withTodoRx, draw_withTodoRx]
  split <;> rfl

theorem sampleInto_withTodoRx (r : SampleReg) (s : State) (todo : List Act) (rx : List Byte) :
    sampleInto r { s with todo := todo, rx := rx } = { sampleInto r s with todo := todo, rx := rx } := by
  cases r <;> simp only [sampleInto, busValue_withTodoRx]

theorem sampleInto_withTodo (r : SampleReg) (s : State) (todo : List Act) :
    sampleInto r { s with todo := todo } = { sampleInto r s with todo := todo } :=
  (sampleInto_withTodoRx r s todo s.rx).trans (by simp)

end Sys2Proof.Machine
end

section
/-! SUPPORT. Two runs side by side: a relation of states that every line keeps is kept by runs; and the two such relations of
the memory chapter, another chip behind the lines (spec 20_memory R62) and more bytes waiting in `rx` (R74). -/

namespace Sys2Proof.Claims

open Sys2Proof.Machine

/-! ### Simulation -/

/-- A relation that the lines keep, moving on both sides, is kept by runs of lines. -/
theorem advances_simulates {R : State → State → Prop}
    (hR : ∀ s s' t, R s s' → advance s = .moved t → ∃ t', advance s' = .moved t' ∧ R t t') {n : Nat} {s s' t : State}
    (h : advances n s = some t) (hs : R s s') : ∃ t', advances n s' = some t' ∧ R t t' := by
  induction n generalizing s s' with
  | zero => simp only [advances_zero, Option.some.injEq] at h; subst h; exact ⟨s', rfl, hs⟩
  | succ n ih =>
    obtain ⟨u, hu, hn⟩ := advances_cases h
    obtain ⟨u', hu', hr⟩ := hR _ _ _ hs hu
    obtain ⟨t', ht', hr'⟩ := ih hn hr
    exact ⟨t', by rw [advances_succ n hu', ht'], hr'⟩

/-- If related states are also blocked together, the relation is kept by bounded runs. -/
theorem run_simulates {R : State → State → Prop}
    (hR : ∀ s s' t, R s s' → advance s = .moved t → ∃ t', advance s' = .moved t' ∧ R t t')
    (hB : ∀ s s', R s s' → advance s = .blocked → advance s' = .blocked) {n : Nat} {s s' t : State}
    (h : run n s = .next t) (hs : R s s') : ∃ t', run n s' = .next t' ∧ R t t' := by
  obtain ⟨k, hk, ha, hend⟩ := run_next h
  obtain ⟨t', ha', ht'⟩ := advances_simulates hR ha hs
  refine ⟨t', ?_, ht'⟩
  rcases hend with rfl | hb
  · exact run_of_advances (n := 0) ha'
  · exact run_ends ha' (hB _ _ ht' hb) hk

/-! ### Another chip behind the lines -/

/-- `s` with all that samples can reach in a read taken from `u`: the chip and the open answers, `value` and `crc`, and the
bytes sent and traced. -/
def withSamplesOf (u s : State) : State :=
  { s with
    value := u.value, crc := u.crc, tx := u.tx, chip := u.chip, trace := u.trace, answers := u.answers, draws := u.draws }

/-- `s'` is `s` but for what samples can reach, and has sent as many bytes. -/
def sameButSamples (s s' : State) : Prop := s' = withSamplesOf s' s ∧ s'.tx.length = s.tx.length

theorem sameButSamples_iff {s s' : State} :
    sameButSamples s s' ↔ ∃ u : State, s' = withSamplesOf u s ∧ u.tx.length = s.tx.length :=
  ⟨fun ⟨hs, hl⟩ => ⟨s', hs, hl⟩, fun ⟨_, hs, hl⟩ => hs ▸ ⟨rfl, hl⟩⟩

theorem sameButSamples_of_sameButChip {s s' : State} (h : sameButChip s s') : sameButSamples s s' :=
  sameButSamples_iff.mpr ⟨{ s with chip := s'.chip, answers := s'.answers, draws := s'.draws }, h, rfl⟩

/-- A sample into `value` leaves two states the same but for what samples can reach, whatever the two chips answer. -/
theorem sameButSamples_sampleInto {s s' : State} (h : sameButSamples s s') :
    sameButSamples (sampleInto .value s) (sampleInto .value s') := by
  obtain ⟨u, rfl, hu⟩ := sameButSamples_iff.mp h
  obtain ⟨k, as, n, hs⟩ := busValue_eq s
  obtain ⟨k', as', n', hs'⟩ := busValue_eq (withSamplesOf u s)
  refine ⟨?_, by simpa [withSamplesOf] using hu⟩
  simp only [sampleInto, hs, hs']
  rfl

/-- No line of a read branches on a sampled byte: with another chip it moves too, to the same place. -/
theorem perform_readLine_simulates {a : Act} {s s' t : State} (ha : readLine a = true) (hs : sameButSamples s s')
    (h : perform a s = .moved t) : ∃ t', perform a s' = .moved t' ∧ sameButSamples t t' := by
  cases a
  case sampleData r =>
    obtain ⟨hd, rfl⟩ := perform_sampleData h
    cases r
    case verified => cases ha
    case value =>
      have hd' : s'.bus.dir = .input := by rw [hs.1]; exact hd
      exact ⟨_, perform_sampleData_input .value hd', sameButSamples_sampleInto hs⟩
  case send v =>
    obtain ⟨hroom, rfl⟩ := perform_send h
    obtain ⟨u, rfl, hu⟩ := sameButSamples_iff.mp hs
    exact ⟨_, perform_send_ready v hroom, rfl, by simpa [withSamplesOf] using hu⟩
  case whileRead =>
    cases h
    obtain ⟨u, rfl, hu⟩ := sameButSamples_iff.mp hs
    refine ⟨_, rfl, ?_⟩
    change sameButSamples _ (if bytesRemain s then _ else _)
    split <;> exact ⟨rfl, hu⟩
  all_goals cases ha
  all_goals
    cases h
    obtain ⟨u, rfl, hu⟩ := sameButSamples_iff.mp hs
    exact ⟨_, rfl, rfl, hu⟩

/-- Two states that are the same but for what samples can reach, with only lines of a read still to run. -/
def inSameRead (s s' : State) : Prop := sameButSamples s s' ∧ ∀ x ∈ s.todo, readLine x = true

theorem readLine_of_commandLine {i : Instr} {a : Act} (hi : i = .read ∨ i = .read1) (h : commandLine i a = true) :
    readLine a = true := by
  rcases hi with rfl | rfl
  · exact h
  · simp only [commandLine, Bool.and_eq_true] at h
    obtain ⟨⟨⟨⟨hread, _⟩, _⟩, _⟩, _⟩ := h
    exact hread

theorem sameButSamples_withTodo {s s' : State} (todo : List Act) (h : sameButSamples s s') :
    sameButSamples { s with todo := todo } { s' with todo := todo } := by
  obtain ⟨u, rfl, hu⟩ := sameButSamples_iff.mp h
  exact ⟨rfl, hu⟩

theorem inSameRead_advance {s s' t : State} (hs : inSameRead s s') (h : advance s = .moved t) :
    ∃ t', advance s' = .moved t' ∧ inSameRead t t' := by
  obtain ⟨hsame, hlines⟩ := hs
  obtain ⟨⟨a, rest, ht, ha, hp⟩, hlines'⟩ := advance_line (i := .read) hlines h
  obtain ⟨t', hp', hsame'⟩ := perform_readLine_simulates ha (sameButSamples_withTodo rest hsame) hp
  have ht' : s'.todo = a :: rest := by rw [hsame.1]; exact ht
  exact ⟨t', (advance_cons ht').trans hp', hsame', hlines'⟩

theorem inSameRead_blocked {s s' : State} (hs : inSameRead s s') (h : advance s = .blocked) : advance s' = .blocked := by
  obtain ⟨u, rfl, _⟩ := sameButSamples_iff.mp hs.1
  rw [advance_blocked_iff] at h ⊢
  exact h

/-- Settles O48: whatever the second chip answers, each line of a read moves and blocks where it does with the first chip. -/
theorem chipDecidesOnlySamples : Obligations.ChipDecidesOnlySamples := by
  intro i s s' t hi hs h
  rw [exec_eq, runCommand] at h
  have hstart : inSameRead { s with todo := commandCode i } { s' with todo := commandCode i } :=
    ⟨sameButSamples_withTodo _ (sameButSamples_of_sameButChip hs),
      fun x hx => readLine_of_commandLine hi (commandLine_code i x hx)⟩
  obtain ⟨t', ht', hsame, _⟩ :=
    run_simulates (fun _ _ _ => inSameRead_advance) (fun _ _ => inSameRead_blocked) h hstart
  obtain ⟨u, rfl, hu⟩ := sameButSamples_iff.mp hsame
  exact ⟨withSamplesOf u t, by rw [exec_eq, runCommand, ht'], rfl, rfl, hu, rfl, rfl, rfl, rfl⟩

/-! ### More bytes waiting in `rx` -/

/-- A sample neither reads nor changes the lines still to run and the bytes waiting. -/
theorem sampleInto_hostSends (r : SampleReg) (s : State) (more : List Byte) :
    sampleInto r (s.environment (.hostSends more)) = (sampleInto r s).environment (.hostSends more) :=
  (sampleInto_withTodoRx r s s.todo (s.rx ++ more)).trans (by simp [State.environment])

theorem receive_hostSends (p : RecvPos) (b : Byte) (s : State) (more : List Byte) :
    receive p b (s.environment (.hostSends more)) = (receive p b s).environment (.hostSends more) := by
  cases p <;> simp only [receive]
  case wCont1 => split <;> rfl
  case wCont2 => split <;> rfl
  all_goals rfl

/-- A line that moves does the same with more bytes waiting behind, and leaves them there. -/
theorem perform_hostSends {a : Act} {s t : State} (more : List Byte) (h : perform a s = .moved t) :
    perform a (s.environment (.hostSends more)) = .moved (t.environment (.hostSends more)) := by
  cases a
  case recv p =>
    obtain ⟨b, rest, hx, rfl⟩ := perform_recv h
    have hx' : (s.environment (.hostSends more)).rx = b :: (rest ++ more) := by simp [State.environment, hx]
    rw [perform_recv_byte p hx']
    exact congrArg Advance.moved (receive_hostSends p b { s with rx := rest, trace := s.trace ++ [.rx b] } more)
  case send v =>
    obtain ⟨hroom, rfl⟩ := perform_send h
    exact perform_send_ready v hroom
  case driveData b =>
    obtain ⟨hd, rfl⟩ := perform_driveData h
    exact perform_driveData_output b hd
  case sampleData r =>
    obtain ⟨hd, rfl⟩ := perform_sampleData h
    rw [← sampleInto_hostSends]
    exact perform_sampleData_input r hd
  case untilVerified d =>
    cases h
    change Advance.moved (if attemptsOver d { s with attempt := s.attempt + 1 } then _ else _) = _
    split <;> rfl
  case whileWrite | whileRead =>
    cases h
    change Advance.moved (if bytesRemain s then _ else _) = _
    split <;> rfl
  case forReceive | forWrite =>
    cases h
    change Advance.moved (if blockRemains s then _ else _) = _
    split <;> rfl
  all_goals
    cases h
    rfl

theorem advance_hostSends {s t : State} (more : List Byte) (h : advance s = .moved t) :
    advance (s.environment (.hostSends more)) = .moved (t.environment (.hostSends more)) := by
  obtain ⟨a, rest, ht, hp⟩ := advance_moved h
  exact (advance_cons (s := s.environment (.hostSends more)) ht).trans (perform_hostSends more hp)

/-- Settles O49: the lines of the command do the same with the further bytes behind, and it ends in `IDLE`, where no line
takes them. -/
theorem earlyHostBytesWait : Obligations.EarlyHostBytesWait := by
  intro i s t more h ht
  rw [exec_eq, runCommand] at h
  obtain ⟨k, hk, ha, _⟩ := run_next h
  obtain ⟨t', ha', rfl⟩ := advances_simulates (R := fun u u' => u' = u.environment (.hostSends more))
    (fun u u' v hu hv => ⟨_, hu ▸ advance_hostSends more hv, rfl⟩) ha rfl
  exact (exec_eq i _).trans (runCommand_completes ha' ht hk)

end Sys2Proof.Claims
end

section
/-! SUPPORT. What the lines and the outside world do to the chip and to the invariants about it: which lines change its cells,
what a pulse and an open sample do, and what the events outside the EBC keep (spec 20_memory R60 to R66). -/

namespace Sys2Proof.Claims

open Sys2Proof.Machine

/-! ### Cells -/

/-- No line but the end of a strobe changes a cell of the chip, or which of its cells are open. -/
theorem perform_cells {a : Act} {s t : State} (h : perform a s = .moved t) (ha : a ≠ .pgmDeassert) :
    t.chip.cells = s.chip.cells ∧ t.chip.unsettled = s.chip.unsettled := by
  cases hw : writesChip a
  case false => simp [perform_chip h hw]
  case true =>
    cases a
    case chipEnable => cases h; simp
    case applyPattern p => cases h; simp
    case sampleData r => obtain ⟨_, rfl⟩ := perform_sampleData h; simp
    case pgmDeassert => exact absurd rfl ha
    all_goals cases hw

/-- Settles O45: `pgm_deassert` is a line of no other command but `d`. -/
theorem onlyWriteStores : Obligations.OnlyWriteStores := by
  intro i s t h hi
  have hno : commandLine i .pgmDeassert = false := by
    cases i
    case write => exact absurd rfl hi
    all_goals rfl
  have hne : ∀ a, commandLine i a = true → a ≠ .pgmDeassert := fun a ha e => by
    rw [e, hno] at ha
    cases ha
  refine exec_keeps (P := fun u => sameCells s.chip u.chip) (fun a u v ha hu hp b => ?_) (fun _ _ hu => hu) h
    fun _ => ⟨rfl, Iff.rfl⟩
  obtain ⟨hcells, hopen⟩ := perform_cells hp (hne a ha)
  rw [hcells, hopen]
  exact hu b

/-! ### The canonical form -/

theorem perform_wf {a : Act} {s t : State} (h : perform a s = .moved t) (hs : Memory.wf s.chip.cells) :
    Memory.wf t.chip.cells := by
  by_cases ha : a = .pgmDeassert
  · subst ha
    cases h
    rw [(pgmDeassert_writes s).2.1]
    split
    · exact Chip.pulse_wf _ _ _ (chipAddr_lt _) hs
    · exact hs
  · rw [(perform_cells h ha).1]
    exact hs

theorem run_wf {n : Nat} {s t : State} (h : run n s = .next t) (hs : Memory.wf s.chip.cells) :
    Memory.wf t.chip.cells := by
  refine run_keeps (P := fun u => Memory.wf u.chip.cells) (fun u v hu hv => ?_) h hs
  obtain ⟨a, rest, _, hp⟩ := advance_moved hv
  exact perform_wf hp hu

/-- Settles O58: reset and the fetch leave the cells, and a pulse writes inside the chip space. -/
theorem memoryFormKept : Obligations.MemoryFormKept := by
  intro s t hs h
  cases hr : s.resetIn
  case true =>
    rw [step_asserted hr, Host.Outcome.next.injEq] at h
    subst h
    simpa using hs
  case false =>
    by_cases ht : s.todo = []
    · rcases fetch_cases s with ⟨_, hf⟩ | ⟨b, rest, _, hf⟩
      · rw [step_starved hr ht hf, Host.Outcome.next.injEq] at h
        exact h ▸ hs
      · rw [step_fetched hr ht hf, exec_eq] at h
        exact run_wf h hs
    · rw [step_midway hr ht] at h
      exact run_wf h hs

/-! ### A pulse and an open sample -/

/-- Settles O21: at the write lines the strobe's end is a pulse of the chip at the address on the lines. -/
theorem programPulseStoresOneByte : Obligations.ProgramPulseStoresOneByte := by
  intro s rest hr hlines hm ht
  simp only [Bus.lines, writeLines, Lines.mk.injEq] at hlines
  obtain ⟨hdir, hvpp, hce, hoe, hpgm⟩ := hlines
  have hrun : advances 3 s = some (pgmDeassert (wait Config.tPgm (pgmAssert { s with todo := rest }))) :=
    advances_succ 2 (advance_cons ht)
  refine ⟨_, ticks_of_advances hr hrun, by simp, by simp [← hpgm], by simp [Config.tPgm], fun a => ?_⟩
  have hpulse : (pgmDeassert (wait Config.tPgm (pgmAssert { s with todo := rest }))).chip =
      s.chip.pulse (Bus.chipAddr s.bus).toNat s.bus.dout := by
    simp [Bus.pulseArmed, hdir, hvpp, hce, hoe, Bus.chipAddr]
  rw [hpulse]
  exact Chip.pulse_ideal s.chip _ a s.bus.dout hm

theorem draw_answer {s : State} {v : Byte} {vs : List Byte} (h : s.answers = v :: vs) :
    s.draw = (v, { s with answers := vs }) := by
  simp [State.draw, h]

theorem sampleInto_value {s u : State} {b : Byte} (h : s.busValue = (b, u)) :
    sampleInto .value s = { u with value := b, trace := u.trace ++ [.sample b] } := by
  simp [sampleInto, h]

/-- A tick that samples, with the byte on the bus known. -/
theorem tick_sampleValue {s u : State} {rest : List Act} {b : Byte} (hr : s.resetIn = false) (hd : s.bus.dir = .input)
    (ht : s.todo = .sampleData .value :: rest) (h : State.busValue { s with todo := rest } = (b, u)) :
    tick s = .next { u with value := b, trace := u.trace ++ [.sample b] } := by
  rw [tick_of_moved hr ((advance_cons ht).trans (perform_sampleData_input .value hd)), sampleInto_value h]

/-- The chip does not drive the bus: the byte on it is open. -/
theorem busValue_floating {s : State} (h : s.bus.ce = false ∨ s.bus.oe = false) : s.busValue = s.draw := by
  rcases h with h | h <;> simp [State.busValue, h]

/-- A cell that a reset has left open answers an open byte. -/
theorem busValue_unsettled {s : State} (hce : s.bus.ce = true) (hoe : s.bus.oe = true) (hm : s.chip.model = .ideal)
    (hu : (Bus.chipAddr s.bus).toNat ∈ s.chip.unsettled) :
    s.busValue = State.draw { s with chip := { s.chip with answered := s.chip.answered + 1 } } := by
  simp [State.busValue, hce, hoe, State.chipAnswer, hm, hu]

/-- Settles O20: both samples are draws, and a draw takes the next answer. -/
theorem openSampleIsAnyByte : Obligations.OpenSampleIsAnyByte := by
  intro s rest v vs hr hd ht hans
  refine ⟨fun hfloat => ?floating, fun hce hoe hm hu => ?unsettled⟩
  case floating =>
    exact tick_sampleValue hr hd ht
      ((busValue_floating (s := { s with todo := rest }) hfloat).trans (draw_answer hans))
  case unsettled =>
    exact tick_sampleValue hr hd ht
      ((busValue_unsettled (s := { s with todo := rest }) hce hoe hm hu).trans (draw_answer hans))

/-! ### Events outside the EBC -/

theorem soundState_of_idle {s : State} (ht : s.todo = []) (hwf : Memory.wf s.chip.cells) : soundState s :=
  ⟨by simp [State.directionSafe, ht, dirAfterAll],
    by simp [State.transferBounded, ht, phaseAfterAll, Phase.holds], hwf⟩

theorem busDisciplined_of_idle {s : State} (ht : s.todo = []) (hl : Bus.lines s.bus = idleLines) :
    s.busDisciplined = true := by
  rw [busDisciplined_iff, ht, hl]
  exact ⟨rfl, rfl⟩

/-- A change of the reset input leaves the reset state or changes nothing else. -/
theorem resetInput_cases (s : State) (on : Bool) :
    s.environment (.resetInput on) = { s.assertReset with resetIn := on } ∨
      s.environment (.resetInput on) = { s with resetIn := on } := by
  cases h : on || s.resetIn <;> simp [State.environment, h]

/-- The cells of a chip put in the socket have the canonical form. -/
theorem wf_foldl_write (contents : List (ChipAddr × Byte)) {m : Memory} (hm : m.wf) :
    Memory.wf (contents.foldl (fun m c => m.write c.1.toNat c.2) m) := by
  induction contents generalizing m with
  | nil => exact hm
  | cons c cs ih => exact ih (Memory.wf_write m _ _ (chipAddr_lt c.1) hm)

theorem soundState_environment (e : EnvEvent) {s : State} (h : soundState s) : soundState (s.environment e) := by
  obtain ⟨hdir, hbound, hwf⟩ := h
  cases e
  case resetInput on =>
    rcases resetInput_cases s on with e | e <;> rw [e]
    · exact soundState_of_idle rfl (by simpa using hwf)
    · exact ⟨hdir, hbound, hwf⟩
  case insertChip model contents => exact ⟨hdir, hbound, wf_foldl_write contents Memory.wf_nil⟩
  all_goals exact ⟨hdir, hbound, hwf⟩

theorem busDisciplined_environment (e : EnvEvent) {s : State} (h : s.busDisciplined = true) :
    (s.environment e).busDisciplined = true := by
  cases e
  case resetInput on =>
    rcases resetInput_cases s on with e | e <;> rw [e]
    · exact busDisciplined_of_idle rfl rfl
    · exact h
  all_goals exact h

/-- Settles O59: reset puts the EBC in `IDLE` on idle lines, a new chip's cells are in canonical form, and no other event
touches what the invariants are about. -/
theorem environmentKeepsInvariants : Obligations.EnvironmentKeepsInvariants :=
  fun _ e => ⟨soundState_environment e, busDisciplined_environment e⟩

end Sys2Proof.Claims
end

section
/-! SUPPORT. The loop of a Bulk Read as a function of the state: one Read-one-byte, one turn of the loop, the whole command
(spec 41_byte_ops R155; 43_transfer_engine R211, R212); and what it streams from a `FixedReadChip` (20_memory R65). -/

namespace Sys2Proof.Claims

open Sys2Proof.Machine

/-! ### One Read-one-byte -/

/-- The state in which a Read-one-byte takes its sample (41_byte_ops R155). -/
def readyToSample (s : State) : State := wait Config.tReadAccess (oeAssert (setAddress (readAddress s) s))

@[simp] theorem readyToSample_leaves (s : State) :
    (readyToSample s).todo = s.todo ∧ (readyToSample s).transferLength = s.transferLength ∧
    (readyToSample s).progress = s.progress ∧ (readyToSample s).crc = s.crc ∧ (readyToSample s).tx = s.tx ∧
    (readyToSample s).txRoom = s.txRoom ∧ (readyToSample s).chip = s.chip :=
  ⟨rfl, rfl, rfl, rfl, rfl, rfl, rfl⟩

@[simp] theorem readyToSample_bus (s : State) :
    (readyToSample s).bus = { s.bus with
      addrLo := addrLoField (readAddress s), addrHi6 := addrHiField (readAddress s), oe := true } := rfl

/-- The state after a Read-one-byte (41_byte_ops R155). -/
def afterReadOneByte (s : State) : State :=
  wait Config.tReadRecover (oeDeassert (sampleInto .value (readyToSample s)))

theorem readOneByte_advances {s : State} {rest : List Act} (ht : s.todo = .callReadOneByte :: rest)
    (hd : s.bus.dir = .input) : advances 7 s = some { afterReadOneByte s with todo := rest } := by
  have hready : advances 4 s = some { readyToSample s with
      todo := [.sampleData .value, .oeDeassert, .wait Config.tReadRecover] ++ rest } :=
    advances_succ 3 (advance_cons ht)
  have hsample : advance { readyToSample s with
      todo := [.sampleData .value, .oeDeassert, .wait Config.tReadRecover] ++ rest } =
      .moved { sampleInto .value (readyToSample s) with todo := [.oeDeassert, .wait Config.tReadRecover] ++ rest } := by
    rw [← sampleInto_withTodo]
    exact perform_sampleData_input .value hd
  exact advances_trans (n := 3) hready (advances_succ 2 hsample)

theorem afterReadOneByte_withTodo (s : State) (todo : List Act) :
    afterReadOneByte { s with todo := todo } = { afterReadOneByte s with todo := todo } :=
  congrArg (fun u => wait Config.tReadRecover (oeDeassert u)) (sampleInto_withTodo .value (readyToSample s) todo)

theorem afterReadOneByte_txRoom (s : State) : (afterReadOneByte s).txRoom = s.txRoom := by
  simp [afterReadOneByte]

/-! ### One turn of the loop -/

/-- The rest of a turn of the loop: `value` is folded into `crc`, sent and counted (43_transfer_engine R212). -/
def sendReadByte (s : State) : State :=
  { s with
    crc := s.crc ^^^ s.value, tx := s.tx ++ [s.value], txRoom := s.txRoom.map (· - 1), progress := s.progress + 1
    trace := s.trace ++ [.tx s.value] }

theorem sendReadByte_advances {s : State} {rest : List Act}
    (ht : s.todo = .foldCrc :: .send .value :: .bumpProgress :: rest) (hroom : s.txRoom ≠ some 0) :
    advances 3 s = some { sendReadByte s with todo := rest } := by
  have hsend := advance_send_ready (s := { s with
    crc := s.crc ^^^ s.value, todo := .send .value :: .bumpProgress :: rest }) rfl hroom
  exact (advances_succ 2 (advance_cons ht)).trans (advances_succ 1 hsend)

/-- The state after one turn of the loop of a Bulk Read (43_transfer_engine R212). -/
def afterReadTurn (s : State) : State := sendReadByte (afterReadOneByte s)

@[simp] theorem afterReadTurn_leaves (s : State) :
    (afterReadTurn s).todo = s.todo ∧ (afterReadTurn s).transferLength = s.transferLength ∧
    (afterReadTurn s).bus.dir = s.bus.dir ∧ (afterReadTurn s).bus.vpp = s.bus.vpp ∧
    (afterReadTurn s).bus.ce = s.bus.ce ∧ (afterReadTurn s).chip.model = s.chip.model := by
  simp [afterReadTurn, sendReadByte, afterReadOneByte]

@[simp] theorem afterReadTurn_writes (s : State) :
    (afterReadTurn s).progress = s.progress + 1 ∧ (afterReadTurn s).txRoom = s.txRoom.map (· - 1) := by
  simp [afterReadTurn, sendReadByte, afterReadOneByte]

theorem readTurn_advances {s : State} {rest : List Act} (ht : s.todo = .whileRead :: rest)
    (hb : bytesRemain s = true) (hd : s.bus.dir = .input) (hroom : s.txRoom ≠ some 0) :
    advances 11 s = some (afterReadTurn s) := by
  have htest : advance s = .moved { s with todo := readBody ++ rest } := by
    rw [advance_cons ht]
    exact congrArg Advance.moved (if_pos hb)
  have hread := readOneByte_advances (s := { s with todo := readBody ++ rest }) rfl hd
  rw [afterReadOneByte_withTodo] at hread
  have hsend := sendReadByte_advances (s := { afterReadOneByte s with
    todo := .foldCrc :: .send .value :: .bumpProgress :: .whileRead :: rest }) rfl (by rwa [afterReadOneByte_txRoom])
  have hturn := advances_trans (m := 1) (advances_succ 0 htest) (advances_trans hread hsend)
  rw [← ht, ← (afterReadTurn_leaves s).1] at hturn
  exact hturn

/-! ### The whole loop -/

theorem roomFor_afterReadTurn {s : State} {k : Nat} (h : roomFor s (k + 1)) : roomFor (afterReadTurn s) k := by
  intro r hr
  simp only [afterReadTurn_writes, Option.map_eq_some_iff] at hr
  obtain ⟨q, hq, rfl⟩ := hr
  have := h q hq
  omega

theorem txRoom_ne_zero {s : State} {k : Nat} (h : roomFor s (k + 1)) : s.txRoom ≠ some 0 := fun h0 => by
  have := h 0 h0
  omega

theorem iterate_afterReadTurn_leaves (n : Nat) (s : State) :
    (afterReadTurn^[n] s).todo = s.todo ∧ (afterReadTurn^[n] s).transferLength = s.transferLength ∧
    (afterReadTurn^[n] s).progress = s.progress + BitVec.ofNat 16 n := by
  induction n generalizing s with
  | zero => simp
  | succ n ih =>
    obtain ⟨htodo, hlen, hprog⟩ := ih (afterReadTurn s)
    rw [Function.iterate_succ_apply, htodo, hlen, hprog]
    simp [BitVec.ofNat_add, BitVec.add_assoc, BitVec.add_comm 1#16]

theorem roomFor_iterate_afterReadTurn {n k : Nat} {s : State} (h : roomFor s (n + k)) :
    roomFor (afterReadTurn^[n] s) k := by
  induction n generalizing s with
  | zero => simpa using h
  | succ n ih => exact ih (roomFor_afterReadTurn (by rwa [Nat.add_right_comm] at h))

theorem readLoop_advances {n : Nat} {s : State} {rest : List Act} (ht : s.todo = .whileRead :: rest)
    (hd : s.bus.dir = .input) (hn : s.progress.toNat + n = s.transferLength.toNat) (hroom : roomFor s n) :
    advances (11 * n) s = some (afterReadTurn^[n] s) := by
  induction n generalizing s with
  | zero => rfl
  | succ n ih =>
    have hb : bytesRemain s = true := by simp only [bytesRemain, decide_eq_true_eq]; omega
    have hnext : (afterReadTurn s).progress.toNat + n = (afterReadTurn s).transferLength.toNat := by
      have := s.transferLength.isLt
      have hone : (1 : Len).toNat = 1 := rfl
      simp only [afterReadTurn_writes, afterReadTurn_leaves, BitVec.toNat_add, hone]
      omega
    rw [Nat.mul_succ, Nat.add_comm]
    exact advances_trans (readTurn_advances ht hb hd (txRoom_ne_zero hroom))
      (ih (by simpa using ht) (by simpa using hd) hnext (roomFor_afterReadTurn hroom))

/-- The state at the first loop test of a Bulk Read (43_transfer_engine R211). -/
def readLoopEntry (s : State) : State :=
  { chipEnable (enterReadMode s) with progress := 0, crc := 0, todo := [.whileRead, .chipDisable, .send .crc] }

/-- The state at the last loop test of a Bulk Read, with every byte sent (43_transfer_engine R212). -/
def readLoopExit (s : State) : State := afterReadTurn^[s.transferLength.toNat] (readLoopEntry s)

/-- The state after a Bulk Read (43_transfer_engine R212). -/
def afterRead (s : State) : State :=
  let u := chipDisable (readLoopExit s)
  { u with todo := [], tx := u.tx ++ [u.crc], txRoom := u.txRoom.map (· - 1), trace := u.trace ++ [.tx u.crc] }

/-- On a link with room for its bytes, a Bulk Read of any length, from any chip, runs to its end. -/
theorem exec_read {s : State} (hroom : roomFor s (s.transferLength.toNat + 1)) :
    exec .read s = .next (afterRead s) := by
  have hentry : advances 4 { s with todo := readCode } = some (readLoopEntry s) := rfl
  have hloop : advances (11 * s.transferLength.toNat) (readLoopEntry s) = some (readLoopExit s) :=
    readLoop_advances rfl rfl (Nat.zero_add _) fun r hr => Nat.le_of_succ_le (hroom r hr)
  obtain ⟨htodo, hlen, hprog⟩ := iterate_afterReadTurn_leaves s.transferLength.toNat (readLoopEntry s)
  have hdone : bytesRemain (readLoopExit s) = false := by
    rw [bytesRemain, readLoopExit, hlen, hprog]
    simp [readLoopEntry]
  have hroom' : (readLoopExit s).txRoom ≠ some 0 :=
    txRoom_ne_zero (k := 0) (roomFor_iterate_afterReadTurn (s := readLoopEntry s) hroom)
  have htest : advance (readLoopExit s) = .moved { readLoopExit s with todo := [.chipDisable, .send .crc] } :=
    (advance_cons htodo).trans (congrArg Advance.moved (if_neg (ne_true_of_eq_false hdone)))
  have hdisable : advance { readLoopExit s with todo := [.chipDisable, .send .crc] } =
      .moved { chipDisable (readLoopExit s) with todo := [.send .crc] } := rfl
  have hsend := advance_send_ready (s := { chipDisable (readLoopExit s) with todo := [.send .crc] }) rfl hroom'
  have hexit : advances 3 (readLoopExit s) = some (afterRead s) :=
    (advances_succ 2 htest).trans ((advances_succ 1 hdisable).trans (advances_succ 0 hsend))
  have hbudget : 4 + (11 * s.transferLength.toNat + 3) ≤ Config.stepBudget := by
    have := s.transferLength.isLt
    simp only [Config.stepBudget]
    omega
  rw [exec_eq]
  exact runCommand_completes (advances_trans hentry (advances_trans hloop hexit)) rfl hbudget

/-! ### A chip with a fixed answer to each sample -/

/-- A `FixedReadChip` that drives the bus outside a verify answers the next byte of its sequence. -/
theorem busValue_fixedRead {s : State} {seq : List Byte} {b : Byte} (hce : s.bus.ce = true) (hoe : s.bus.oe = true)
    (hvpp : s.bus.vpp = false) (hm : s.chip.model = .fixedRead seq) (hb : seq[s.chip.answered]? = some b) :
    s.busValue = (b, { s with chip := { s.chip with answered := s.chip.answered + 1 } }) := by
  simp [State.busValue, hce, hoe, State.chipAnswer, hm, hvpp, hb]

theorem afterReadTurn_fixedRead {s : State} {seq : List Byte} {b : Byte} (hce : s.bus.ce = true)
    (hvpp : s.bus.vpp = false) (hm : s.chip.model = .fixedRead seq) (hb : seq[s.chip.answered]? = some b) :
    (afterReadTurn s).tx = s.tx ++ [b] ∧ (afterReadTurn s).crc = s.crc ^^^ b ∧
      (afterReadTurn s).chip.answered = s.chip.answered + 1 := by
  have hbus := busValue_fixedRead (s := readyToSample s) hce rfl hvpp hm hb
  have hvalue : (sampleInto .value (readyToSample s)).value = b := by rw [sampleInto_value hbus]
  have hans : (sampleInto .value (readyToSample s)).chip.answered = s.chip.answered + 1 := by
    rw [sampleInto_value hbus]
    rfl
  simp [afterReadTurn, sendReadByte, afterReadOneByte, hvalue, hans]

/-- From its `k`-th sample on, the loop streams the sequence from byte `k` on. -/
theorem iterate_afterReadTurn_fixedRead {n : Nat} {s : State} {seq : List Byte} (hce : s.bus.ce = true)
    (hvpp : s.bus.vpp = false) (hm : s.chip.model = .fixedRead seq) (hn : s.chip.answered + n ≤ seq.length) :
    (afterReadTurn^[n] s).tx = s.tx ++ (seq.drop s.chip.answered).take n ∧
      (afterReadTurn^[n] s).crc = ((seq.drop s.chip.answered).take n).foldl (· ^^^ ·) s.crc := by
  induction n generalizing s with
  | zero => simp
  | succ n ih =>
    have hlt : s.chip.answered < seq.length := by omega
    obtain ⟨htx, hcrc, hans⟩ := afterReadTurn_fixedRead hce hvpp hm (List.getElem?_eq_getElem hlt)
    obtain ⟨htx', hcrc'⟩ := ih (s := afterReadTurn s) (by simpa using hce) (by simpa using hvpp) (by simpa using hm)
      (by omega)
    rw [Function.iterate_succ_apply, htx', hcrc', htx, hcrc, hans, List.drop_eq_getElem_cons hlt]
    simp only [List.take_succ_cons, List.foldl_cons, List.append_assoc, List.singleton_append, and_self]

/-- Settles O35: the chip counts from its selection at the start of the command, so the loop streams from byte 0 on. -/
theorem bulkReadOnFixedReadChip : Obligations.BulkReadOnFixedReadChip := by
  intro s seq hroom hm hlen
  refine ⟨afterRead s, exec_read hroom, ?_⟩
  obtain ⟨htx, hcrc⟩ := iterate_afterReadTurn_fixedRead (n := s.transferLength.toNat) (s := readLoopEntry s) rfl rfl hm
    (by simpa [readLoopEntry, Chip.select] using hlen)
  change (readLoopExit s).tx ++ [(readLoopExit s).crc] = _
  rw [readLoopExit, htx, hcrc]
  rfl

end Sys2Proof.Claims
end

section
/-! SUPPORT. The encodings, there and back: the command byte, the 16-bit operand, the blocks of a Bulk Write, a whole
command, and the address ports (spec 30_encoding R90 to R95, R100 to R102). -/

namespace Sys2Proof.Claims

open Sys2Proof.Machine

/-! ### The command byte -/

theorem commandByte (i : Instr) : Laws.CommandByte.Statement i := by
  cases i with
  | setAddr => exact Laws.CommandByte.setAddr
  | setLen => exact Laws.CommandByte.setLen
  | write => exact Laws.CommandByte.write
  | read => exact Laws.CommandByte.read
  | read1 => exact Laws.CommandByte.read1
  | reinit => exact Laws.CommandByte.reinit
  | diag1 => exact Laws.CommandByte.diag1
  | diag2 => exact Laws.CommandByte.diag2
  | xnop => exact Laws.CommandByte.xnop
  | ignored op => exact Laws.CommandByte.ignored op

theorem decodeByte_opByte {i : Instr} (h : i.wf = true) : decodeByte i.opByte = i := by
  obtain ⟨_, hdecode, _⟩ := commandByte i h
  exact hdecode

/-- Settles O1: each byte is compared with the nine named ones. -/
theorem commandBytesDecode : Obligations.CommandBytesDecode := by
  unfold Obligations.CommandBytesDecode
  decide

/-- Settles O2: the decoder takes the one byte of the command, and that byte decodes to it. -/
theorem decodeOfEncode : Obligations.DecodeOfEncode := by
  intro i rest h
  change Decoded.command (decodeByte i.opByte) i.opByte rest = _
  rw [decodeByte_opByte h]

/-! ### The 16-bit operand -/

theorem assembleWord_wordBytes (w : Word) : assembleWord (w.extractLsb' 0 8) (w.extractLsb' 8 8) = w := by
  apply BitVec.eq_of_toNat_eq
  rw [toNat_assembleWord]
  have := w.isLt
  simp only [BitVec.extractLsb'_toNat, Nat.shiftRight_eq_div_pow]
  omega

/-- Settles O8: the operand as a number, and the two bytes that a value is sent as. -/
theorem operandAssembly : Obligations.OperandAssembly :=
  ⟨fun lo hi => by rw [toNat_assembleWord]; omega, fun w => ⟨_, _, rfl, assembleWord_wordBytes w⟩⟩

/-! ### The address ports -/

theorem toNat_hiPort (a : Word) : (hiPort a).toNat = 4 * (a.toNat / 256 % 64) := by
  simp only [hiPort, Config.addrHiShift, BitVec.toNat_shiftLeft, BitVec.extractLsb'_toNat, Nat.shiftLeft_eq,
    Nat.shiftRight_eq_div_pow]
  omega

theorem toNat_portsAddress (lo : LoField) (hi : HiPort) :
    (portsAddress lo hi).toNat = 256 * (hi.toNat / 4) + lo.toNat := by
  have := lo.isLt
  have := hi.isLt
  simp only [portsAddress, Config.addrHiShift, Config.addrLoBits, BitVec.toNat_add, BitVec.toNat_shiftLeft,
    BitVec.toNat_setWidth, BitVec.toNat_ushiftRight, Nat.shiftLeft_eq, Nat.shiftRight_eq_div_pow]
  omega

/-- What the two ports give back is the address modulo 16384: bits 15 and 14 are lost (decision D4). -/
theorem toNat_portsAddress_fields (a : Word) : (portsAddress (addrLoField a) (hiPort a)).toNat = a.toNat % 16384 := by
  rw [toNat_portsAddress, toNat_addrLoField, toNat_hiPort]
  omega

theorem hiPort_addrHiField (a : Word) : (hiPort a).extractLsb' 2 6 = addrHiField a := by
  apply BitVec.eq_of_toNat_eq
  rw [BitVec.extractLsb'_toNat, toNat_hiPort, toNat_addrHiField, Nat.shiftRight_eq_div_pow]
  omega

/-- Settles O6: the ports as numbers. -/
theorem addressPortsRoundTrip : Obligations.AddressPortsRoundTrip := by
  refine fun a => ⟨toNat_portsAddress_fields a, fun ha => ?_, hiPort_addrHiField a⟩
  apply BitVec.eq_of_toNat_eq
  rw [toNat_portsAddress_fields]
  omega

/-! ### The blocks of a Bulk Write -/

/-- How the blocks of a Bulk Write with bytes to go can begin (R91, R94, R201): with a block of `min(512, n)` bytes that
is aborted at the first point, aborted at the second one, or complete. -/
theorem blocksFit_cons {n : Nat} {b : WriteBlock} {bs : List WriteBlock} :
    blocksFit n (b :: bs) = true ↔ n ≠ 0 ∧ b.data.length = min 512 n ∧
      ((b.cont1 = Config.abort ∧ b.cont2 = none ∧ bs = []) ∨
        (b.cont1 ≠ Config.abort ∧ b.cont2 = some Config.abort ∧ bs = []) ∨
        (b.cont1 ≠ Config.abort ∧ ∃ c, b.cont2 = some c ∧ c ≠ Config.abort ∧ blocksFit (n - min 512 n) bs = true)) := by
  obtain ⟨data, c1, c2⟩ := b
  cases c2 with
  | none => simp [blocksFit, Config.blockMax, and_assoc]
  | some c => by_cases hc : c = Config.abort <;> simp [blocksFit, Config.blockMax, hc, and_assoc]

/-- One block and what follows it, split off the stream. -/
theorem writeBlock_bytes_append (b : WriteBlock) (rest : List Byte) :
    b.bytes ++ rest = b.data ++ (b.cont1 :: (b.cont2.toList ++ rest)) := by
  simp [WriteBlock.bytes]

theorem takeBlocks_of_blocksFit {fuel n : Nat} {bs : List WriteBlock} (rest : List Byte) (h : blocksFit n bs = true)
    (hfuel : n ≤ fuel) : takeBlocks fuel n (bs.flatMap WriteBlock.bytes ++ rest) = some (bs, rest) := by
  induction bs generalizing fuel n with
  | nil =>
    obtain rfl : n = 0 := by simpa [blocksFit] using h
    simp [takeBlocks]
  | cons b bs ih =>
    obtain ⟨hn, hlen, hcont⟩ := blocksFit_cons.mp h
    obtain ⟨m, rfl⟩ := Nat.exists_eq_succ_of_ne_zero hn
    obtain ⟨fuel, rfl⟩ := Nat.exists_eq_succ_of_ne_zero (by omega : fuel ≠ 0)
    obtain ⟨data, c1, c2⟩ := b
    rw [List.flatMap_cons, List.append_assoc, writeBlock_bytes_append]
    obtain ⟨rfl, rfl, rfl⟩ | ⟨hc1, rfl, rfl⟩ | ⟨hc1, c, rfl, hc, hbs⟩ := hcont
    · simp [takeBlocks, Config.blockMax, ← hlen]
    · simp [takeBlocks, Config.blockMax, ← hlen, hc1]
    · have hmore := ih (fuel := fuel) hbs (by omega)
      rw [← hlen] at hmore
      simp [takeBlocks, Config.blockMax, ← hlen, hc1, hc, hmore]

/-- Settles O4: the command byte says how to go on; the operand of `s` and `l` and the blocks of `d` are split off as
they were sent. -/
theorem frameDecodeOfEncode : Obligations.FrameDecodeOfEncode := by
  intro len f rest h
  have hop : f.instr.wf = true := by
    cases f
    case ignored op => exact h
    all_goals rfl
  have hdecode := decodeByte_opByte hop
  simp only [Frame.encode, List.cons_append, takeFrame, hdecode]
  cases f with
  | setAddr imm => simp [Frame.instr, Frame.operandBytes, wordBytes, assembleWord_wordBytes]
  | setLen imm => simp [Frame.instr, Frame.operandBytes, wordBytes, assembleWord_wordBytes]
  | write blocks => simp [Frame.instr, Frame.operandBytes, takeBlocks_of_blocksFit rest h le_rfl]
  | read | read1 | reinit | diag1 | diag2 | xnop | ignored => rfl

/-! ### The length of a Bulk Write -/

theorem length_writeBlock_bytes {b : WriteBlock} {c : Byte} (h : b.cont2 = some c) :
    b.bytes.length = b.data.length + 2 := by
  simp [WriteBlock.bytes, h]

/-- Settles O5: a block that is not aborted is `min(512, n)` data bytes and two continuation bytes, and the blocks after
it fit what is left. -/
theorem writeFrameLength : Obligations.WriteFrameLength := by
  intro n bs h hno
  induction bs generalizing n with
  | nil =>
    obtain rfl : n = 0 := by simpa [blocksFit] using h
    exact ⟨rfl, rfl⟩
  | cons b bs ih =>
    obtain ⟨hn, hlen, hcont⟩ := blocksFit_cons.mp h
    obtain ⟨⟨hc1, c, hc2, hc⟩, hno'⟩ := List.forall_mem_cons.mp hno
    obtain ⟨hab, _⟩ | ⟨_, hab, _⟩ | ⟨_, _, _, _, hbs⟩ := hcont
    · exact absurd hab hc1
    · exact absurd (Option.some.inj (hc2.symm.trans hab)) hc
    · obtain ⟨hblocks, hbytes⟩ := ih _ hbs hno'
      rw [List.flatMap_cons, List.length_append, List.length_cons, length_writeBlock_bytes hc2, hblocks, hbytes, hlen]
      omega

end Sys2Proof.Claims
end

section
/-! SUPPORT. Stretches of pseudocode by what they do: a stretch takes the state to another one within a bound on its
lines, whatever comes after it; stretches compose (spec 10_state R40; log entry 2). -/

namespace Sys2Proof.Claims

open Sys2Proof.Machine

/-! ### Reaching a state within a bound -/

/-- At most `n` lines, every one of which moves, lead from `s` to `t`. -/
def Reaches (n : Nat) (s t : State) : Prop := ∃ k ≤ n, advances k s = some t

theorem reaches_of_advances {n : Nat} {s t : State} (h : advances n s = some t) : Reaches n s t := ⟨n, le_rfl, h⟩

theorem reaches_of_advance {s t : State} (h : advance s = .moved t) : Reaches 1 s t :=
  reaches_of_advances (advances_succ 0 h)

theorem Reaches.trans {m n : Nat} {s t u : State} (h : Reaches m s t) (h' : Reaches n t u) : Reaches (m + n) s u := by
  obtain ⟨j, hj, ha⟩ := h
  obtain ⟨k, hk, hb⟩ := h'
  exact ⟨j + k, Nat.add_le_add hj hk, advances_trans ha hb⟩

theorem Reaches.mono {m n : Nat} {s t : State} (h : Reaches m s t) (hmn : m ≤ n) : Reaches n s t := by
  obtain ⟨k, hk, ha⟩ := h
  exact ⟨k, hk.trans hmn, ha⟩

/-! ### What a stretch of code does -/

/-- The lines `code` take `s` to `t` in at most `n` lines, whatever is still to run after them. -/
def Does (code : List Act) (n : Nat) (s t : State) : Prop :=
  ∀ rest, Reaches n { s with todo := code ++ rest } { t with todo := rest }

theorem Does.append {code code' : List Act} {m n : Nat} {s t u : State} (h : Does code m s t) (h' : Does code' n t u) :
    Does (code ++ code') (m + n) s u := fun rest => by
  rw [List.append_assoc]
  exact (h (code' ++ rest)).trans (h' rest)

theorem Does.mono {code : List Act} {m n : Nat} {s t : State} (h : Does code m s t) (hmn : m ≤ n) : Does code n s t :=
  fun rest => (h rest).mono hmn

/-- A command whose lines do something within the step's bound completes. -/
theorem exec_of_does {i : Instr} {n : Nat} {s t : State} (h : Does (commandCode i) n s t) (hn : n ≤ Config.stepBudget) :
    exec i s = .next { t with todo := [] } := by
  obtain ⟨k, hk, ha⟩ := h []
  rw [List.append_nil] at ha
  rw [exec_eq]
  exact runCommand_completes ha rfl (hk.trans hn)

/-! ### Lines that run whatever the state is -/

/-- The lines that neither wait for the link, nor ask for a direction of the bus, nor choose what comes next. -/
def isStraight : Act → Bool
  | .driveData _ | .sampleData _ | .recv _ | .send _ | .attempt _ | .untilVerified _ | .callReadOneByte
  | .callWriteOneByte | .whileWrite | .forReceive | .forWrite | .whileRead => false
  | _ => true

/-- The state after a line that moves. -/
def effect (s : State) (a : Act) : State :=
  match perform a s with
  | .moved t => t
  | .blocked => s
  | .fault _ => s

theorem perform_straight {a : Act} (h : isStraight a = true) (s : State) (rest : List Act) :
    perform a { s with todo := rest } = .moved { effect s a with todo := rest } := by
  cases a <;> first | (cases h; done) | rfl

theorem straight_does {code : List Act} (h : code.all isStraight = true) (s : State) :
    Does code code.length s (code.foldl effect s) := by
  induction code generalizing s with
  | nil => exact fun rest => ⟨0, le_rfl, rfl⟩
  | cons a code ih =>
    obtain ⟨ha, hcode⟩ := Bool.and_eq_true_iff.mp h
    have hline : Does [a] 1 s (effect s a) := fun rest => reaches_of_advance (perform_straight ha s rest)
    exact (hline.append (ih hcode (effect s a))).mono (Nat.add_comm _ _).le

/-! ### The data bus -/

theorem drive_does (d : Byte) {s : State} (hd : s.bus.dir = .output) : Does [.driveData d] 1 s (driveData d s) :=
  fun rest => reaches_of_advance (perform_driveData_output (s := { s with todo := rest }) d hd)

theorem sample_does (r : SampleReg) {s : State} (hd : s.bus.dir = .input) : Does [.sampleData r] 1 s (sampleInto r s) :=
  fun rest => by
    rw [← sampleInto_withTodo]
    exact reaches_of_advance (perform_sampleData_input (s := { s with todo := rest }) r hd)

/-! ### The link -/

/-- The state after `LinkSend(v)` on a link that is ready (20_memory R72). -/
def sent (v : SendVal) (s : State) : State :=
  { s with tx := s.tx ++ [sendByte v s], txRoom := s.txRoom.map (· - 1), trace := s.trace ++ [.tx (sendByte v s)] }

theorem send_does (v : SendVal) {s : State} (h : s.txRoom ≠ some 0) : Does [.send v] 1 s (sent v s) := fun rest => by
  refine reaches_of_advance ((advance_send_ready (s := { s with todo := [.send v] ++ rest }) rfl h).trans ?_)
  cases v <;> rfl

theorem roomFor_of_txRoom_eq {s t : State} {k : Nat} (ht : t.txRoom = s.txRoom) (h : roomFor s k) : roomFor t k :=
  fun r hr => h r (ht ▸ hr)

theorem roomFor_sent {v : SendVal} {s : State} {k : Nat} (h : roomFor s (k + 1)) : roomFor (sent v s) k := by
  intro r hr
  obtain ⟨q, hq, rfl⟩ := Option.map_eq_some_iff.mp hr
  exact Nat.le_sub_of_add_le (h q hq)

/-- The state after the byte `b` has been taken off `rx` at position `p` (20_memory R71). -/
def received (p : RecvPos) (s : State) (b : Byte) : State :=
  receive p b { s with rx := s.rx.tail, trace := s.trace ++ [.rx b] }

theorem advance_recv {p : RecvPos} {s : State} {b : Byte} {more : List Byte} {rest : List Act}
    (ht : s.todo = .recv p :: rest) (h : s.rx = b :: more) :
    advance s = .moved (received p { s with todo := rest } b) := by
  rw [advance_cons ht, perform_recv_byte p (s := { s with todo := rest }) h]
  simp [received, h]

/-- Only the byte 0xFF at a continuation point breaks out of the lines to come (30_encoding R96). -/
theorem received_withTodo {p : RecvPos} {b : Byte} (h : b ≠ Config.abort ∨ p ≠ .wCont1 ∧ p ≠ .wCont2) (s : State)
    (rest : List Act) : received p { s with todo := rest } b = { received p s b with todo := rest } := by
  cases p
  case wCont1 | wCont2 =>
    have hgo : abortRequested b = false := by simpa [abortRequested] using h
    simp [received, receive, hgo]
  all_goals rfl

theorem recv_does {p : RecvPos} {s : State} {b : Byte} {more : List Byte} (h : s.rx = b :: more)
    (hgo : b ≠ Config.abort ∨ p ≠ .wCont1 ∧ p ≠ .wCont2) : Does [.recv p] 1 s (received p s b) := fun rest => by
  rw [← received_withTodo hgo]
  exact reaches_of_advance (advance_recv (s := { s with todo := [.recv p] ++ rest }) rfl h)

/-- The byte 0xFF at a continuation point leaves the common exit as what is still to run (60_exceptions R235). -/
theorem recv_abort_reaches {p : RecvPos} {s : State} {more : List Byte} {rest : List Act}
    (h : s.rx = Config.abort :: more) (hp : p = .wCont1 ∨ p = .wCont2) :
    Reaches 1 { s with todo := .recv p :: rest } { received p s Config.abort with todo := writeExit } := by
  refine reaches_of_advance ((advance_recv (s := { s with todo := .recv p :: rest }) rfl h).trans ?_)
  rcases hp with rfl | rfl <;> rfl

end Sys2Proof.Claims
end

section
/-! SUPPORT. A Bulk Write as a function of the state: one attempt, one Write-one-byte, the two phases of a block, the
blocks, the whole command; and that it runs to its end within the step's bound, whatever the chip answers (spec 41_byte_ops
R151 to R153; 43_transfer_engine R200 to R208). -/

namespace Sys2Proof.Claims

open Sys2Proof.Machine

/-! ### One Write-one-byte -/

/-- The state in which an attempt takes its sample (41_byte_ops R152). -/
def readyToVerify (d : Byte) (s : State) : State :=
  wait Config.tVerify (oeAssert (busToInput (pgmDeassert (wait Config.tPgm (pgmAssert (wait Config.tDataSettle
    (driveData d s)))))))

/-- The state at the test after an attempt (41_byte_ops R152). -/
def afterVerify (d : Byte) (s : State) : State :=
  busToOutput (oeDeassert (sampleInto .verified (readyToVerify d s)))

theorem verify_does (d : Byte) {s : State} (hd : s.bus.dir = .output) :
    Does ((attemptCode d).take 11) 11 s (afterVerify d s) := by
  have hpulse : Does [.wait Config.tDataSettle, .pgmAssert, .wait Config.tPgm, .pgmDeassert, .busToInput, .oeAssert,
      .wait Config.tVerify] 7 (driveData d s) (readyToVerify d s) := straight_does rfl _
  have hleave : Does [.oeDeassert, .busToOutput] 2 (sampleInto .verified (readyToVerify d s)) (afterVerify d s) :=
    straight_does rfl _
  exact (drive_does d hd).append (hpulse.append ((sample_does .verified rfl).append hleave))

/-- The state after one attempt, counted (41_byte_ops R152). -/
def afterAttempt (d : Byte) (s : State) : State := { afterVerify d s with attempt := (afterVerify d s).attempt + 1 }

theorem attempt_reaches (d : Byte) {s : State} (hd : s.bus.dir = .output) (rest : List Act) :
    Reaches 13 { s with todo := .attempt d :: rest }
      { afterAttempt d s with todo := if attemptsOver d (afterAttempt d s) then rest else .attempt d :: rest } := by
  have htest : advance { afterVerify d s with todo := .untilVerified d :: rest } = .moved
      { afterAttempt d s with todo := if attemptsOver d (afterAttempt d s) then rest else .attempt d :: rest } := by
    cases hover : attemptsOver d (afterAttempt d s)
    · exact congrArg Advance.moved (if_neg (ne_true_of_eq_false hover))
    · exact congrArg Advance.moved (if_pos hover)
  have hcall : advance { s with todo := .attempt d :: rest } = .moved { s with todo := attemptCode d ++ rest } := rfl
  have hverify := verify_does d hd (.untilVerified d :: rest)
  exact (reaches_of_advance hcall).trans (hverify.trans (reaches_of_advance htest))

@[simp] theorem afterAttempt_leaves (d : Byte) (s : State) :
    (afterAttempt d s).baseAddress = s.baseAddress ∧ (afterAttempt d s).transferLength = s.transferLength ∧
    (afterAttempt d s).progress = s.progress ∧ (afterAttempt d s).blockSize = s.blockSize ∧
    (afterAttempt d s).i = s.i ∧ (afterAttempt d s).rx = s.rx ∧ (afterAttempt d s).txRoom = s.txRoom := by
  simp [afterAttempt, afterVerify, readyToVerify]

@[simp] theorem afterAttempt_writes (d : Byte) (s : State) :
    (afterAttempt d s).attempt = s.attempt + 1 ∧ (afterAttempt d s).bus.dir = .output := by
  simp [afterAttempt, afterVerify, readyToVerify]

/-- The state after at most `n` more attempts, as many as the test of R153 asks for. -/
def afterAttempts (d : Byte) : Nat → State → State
  | 0, s => s
  | n + 1, s => if attemptsOver d (afterAttempt d s) then afterAttempt d s else afterAttempts d n (afterAttempt d s)

theorem attempts_does (d : Byte) {n : Nat} {s : State} (hd : s.bus.dir = .output)
    (hn : s.attempt + (n + 1) = Config.maxAttempts) :
    Does [.attempt d] (13 * (n + 1)) s (afterAttempts d (n + 1) s) := by
  induction n generalizing s with
  | zero =>
    intro rest
    have hover : attemptsOver d (afterAttempt d s) = true := by simp [attemptsOver, hn]
    have hlast := attempt_reaches d hd rest
    rw [if_pos hover] at hlast
    rw [afterAttempts, if_pos hover]
    exact hlast
  | succ n ih =>
    intro rest
    have hfirst := attempt_reaches d hd rest
    rw [afterAttempts]
    cases hover : attemptsOver d (afterAttempt d s)
    · rw [hover] at hfirst
      have hmore := ih (s := afterAttempt d s) (by simp) (by simp; omega) rest
      exact (hfirst.trans hmore).mono (by omega)
    · rw [hover] at hfirst
      exact hfirst.mono (by omega)

@[simp] theorem afterAttempts_leaves (d : Byte) (n : Nat) (s : State) :
    (afterAttempts d n s).baseAddress = s.baseAddress ∧ (afterAttempts d n s).transferLength = s.transferLength ∧
    (afterAttempts d n s).progress = s.progress ∧ (afterAttempts d n s).blockSize = s.blockSize ∧
    (afterAttempts d n s).i = s.i ∧ (afterAttempts d n s).rx = s.rx ∧ (afterAttempts d n s).txRoom = s.txRoom := by
  induction n generalizing s with
  | zero => simp [afterAttempts]
  | succ n ih =>
    rw [afterAttempts]
    split <;> simp [ih]

theorem afterAttempts_dir (d : Byte) (n : Nat) {s : State} (hd : s.bus.dir = .output) :
    (afterAttempts d n s).bus.dir = .output := by
  induction n generalizing s with
  | zero => exact hd
  | succ n ih =>
    rw [afterAttempts]
    split
    · simp
    · exact ih (by simp)

/-- The state after a Write-one-byte (41_byte_ops R151 to R153). -/
def afterWriteOneByte (a : Word) (d : Byte) (s : State) : State :=
  afterAttempts d Config.maxAttempts { wait Config.tAddrSettle (setAddress a s) with attempt := 0 }

theorem writeOneByte_does (a : Word) (d : Byte) {s : State} (hd : s.bus.dir = .output) :
    Does (writeOneByteCode a d) 263 s (afterWriteOneByte a d s) := by
  have hentry : Does [.setAddress a, .wait Config.tAddrSettle, .clearAttempt] 3 s
      { wait Config.tAddrSettle (setAddress a s) with attempt := 0 } := straight_does rfl _
  exact hentry.append (attempts_does d (n := 19) hd rfl)

/-! ### The write phase of a block -/

/-- The state after one turn of the write phase: the byte that `i` selects is written, folded and counted
(43_transfer_engine R204). -/
def afterWriteTurn (s : State) : State :=
  let u := afterWriteOneByte (writeAddress s) (stagedByte s) s
  { u with crcOut := u.crcOut ^^^ u.verifiedValue, i := u.i + 1 }

@[simp] theorem afterWriteTurn_leaves (s : State) :
    (afterWriteTurn s).baseAddress = s.baseAddress ∧ (afterWriteTurn s).transferLength = s.transferLength ∧
    (afterWriteTurn s).progress = s.progress ∧ (afterWriteTurn s).blockSize = s.blockSize ∧
    (afterWriteTurn s).rx = s.rx ∧ (afterWriteTurn s).txRoom = s.txRoom := by
  simp [afterWriteTurn, afterWriteOneByte]

theorem afterWriteTurn_writes {s : State} (hd : s.bus.dir = .output) :
    (afterWriteTurn s).i = s.i + 1 ∧ (afterWriteTurn s).bus.dir = .output :=
  ⟨by simp [afterWriteTurn, afterWriteOneByte], afterAttempts_dir _ _ hd⟩

theorem writeTurn_reaches {s : State} (hd : s.bus.dir = .output) (hb : blockRemains s = true) (rest : List Act) :
    Reaches 266 { s with todo := .forWrite :: rest } { afterWriteTurn s with todo := .forWrite :: rest } := by
  have htest : advance { s with todo := .forWrite :: rest } =
      .moved { s with todo := .callWriteOneByte :: .foldVerified :: .forWrite :: rest } :=
    congrArg Advance.moved (if_pos hb)
  have hcall : advance { s with todo := .callWriteOneByte :: .foldVerified :: .forWrite :: rest } =
      .moved { s with
        todo := writeOneByteCode (writeAddress s) (stagedByte s) ++ .foldVerified :: .forWrite :: rest } := rfl
  have hfold : advance { afterWriteOneByte (writeAddress s) (stagedByte s) s with
      todo := .foldVerified :: .forWrite :: rest } = .moved { afterWriteTurn s with todo := .forWrite :: rest } := rfl
  exact (((reaches_of_advance htest).trans (reaches_of_advance hcall)).trans
    (writeOneByte_does _ _ hd _)).trans (reaches_of_advance hfold)

theorem iterate_afterWriteTurn_leaves (n : Nat) (s : State) :
    (afterWriteTurn^[n] s).transferLength = s.transferLength ∧ (afterWriteTurn^[n] s).progress = s.progress ∧
    (afterWriteTurn^[n] s).blockSize = s.blockSize ∧ (afterWriteTurn^[n] s).rx = s.rx ∧
    (afterWriteTurn^[n] s).txRoom = s.txRoom := by
  induction n generalizing s with
  | zero => simp
  | succ n ih => simp [Function.iterate_succ_apply, ih]

theorem iterate_afterWriteTurn_dir (n : Nat) {s : State} (hd : s.bus.dir = .output) :
    (afterWriteTurn^[n] s).bus.dir = .output := by
  induction n generalizing s with
  | zero => exact hd
  | succ n ih => exact ih (afterWriteTurn_writes hd).2

theorem roomFor_iterate_afterWriteTurn {n k : Nat} {s : State} (h : roomFor s k) :
    roomFor (afterWriteTurn^[n] s) k := by
  obtain ⟨_, _, _, _, hroom⟩ := iterate_afterWriteTurn_leaves n s
  exact roomFor_of_txRoom_eq hroom h

/-- Counting `i` up by one below the block size. -/
theorem toNat_i_succ {s : State} {n : Nat} (h : s.i.toNat + (n + 1) = s.blockSize.toNat) :
    (s.i + 1).toNat + n = s.blockSize.toNat := by
  have := s.blockSize.isLt
  have hone : (1 : Len).toNat = 1 := rfl
  rw [BitVec.toNat_add, hone]
  omega

theorem forWrite_does {n : Nat} {s : State} (hd : s.bus.dir = .output) (hn : s.i.toNat + n = s.blockSize.toNat) :
    Does [.forWrite] (266 * n + 1) s (afterWriteTurn^[n] s) := by
  intro rest
  induction n generalizing s with
  | zero =>
    have hdone : blockRemains s = false := by simp [blockRemains, ← hn]
    exact reaches_of_advance (congrArg Advance.moved (if_neg (ne_true_of_eq_false hdone)))
  | succ n ih =>
    have hb : blockRemains s = true := by simp only [blockRemains, decide_eq_true_eq]; omega
    obtain ⟨hi, hd'⟩ := afterWriteTurn_writes hd
    have hmore := ih hd' (by simpa [hi] using toNat_i_succ hn)
    exact ((writeTurn_reaches hd hb rest).trans hmore).mono (by omega)

/-! ### The receive phase of a block -/

@[simp] theorem received_leaves (p : RecvPos) (s : State) (b : Byte) :
    (received p s b).blockSize = s.blockSize ∧ (received p s b).txRoom = s.txRoom ∧
    (received p s b).bus = s.bus ∧ (received p s b).rx = s.rx.tail := by
  simp [received]

/-- At the three positions of a Bulk Write the session registers stay. -/
theorem received_write_leaves {p : RecvPos} (hp : p = .wData ∨ p = .wCont1 ∨ p = .wCont2) (s : State) (b : Byte) :
    (received p s b).transferLength = s.transferLength ∧ (received p s b).progress = s.progress := by
  rcases hp with rfl | rfl | rfl
  · exact ⟨rfl, rfl⟩
  · simp only [received, receive]
    split <;> exact ⟨rfl, rfl⟩
  · simp only [received, receive]
    split <;> exact ⟨rfl, rfl⟩

theorem foldl_received_leaves (data : List Byte) (s : State) :
    (data.foldl (received .wData) s).transferLength = s.transferLength ∧
    (data.foldl (received .wData) s).progress = s.progress ∧
    (data.foldl (received .wData) s).blockSize = s.blockSize ∧
    (data.foldl (received .wData) s).txRoom = s.txRoom ∧ (data.foldl (received .wData) s).bus = s.bus ∧
    (data.foldl (received .wData) s).rx = s.rx.drop data.length := by
  induction data generalizing s with
  | nil => simp
  | cons d ds ih => simp [ih, received_write_leaves]

theorem roomFor_foldl_received {data : List Byte} {s : State} {k : Nat} (h : roomFor s k) :
    roomFor (data.foldl (received .wData) s) k := by
  obtain ⟨_, _, _, hroom, _, _⟩ := foldl_received_leaves data s
  exact roomFor_of_txRoom_eq hroom h

theorem forReceive_does {data more : List Byte} {s : State} (hrx : s.rx = data ++ more)
    (hn : s.i.toNat + data.length = s.blockSize.toNat) :
    Does [.forReceive] (2 * data.length + 1) s (data.foldl (received .wData) s) := by
  intro rest
  induction data generalizing s with
  | nil =>
    have hdone : blockRemains s = false := by simp [blockRemains, ← hn]
    exact reaches_of_advance (congrArg Advance.moved (if_neg (ne_true_of_eq_false hdone)))
  | cons d ds ih =>
    rw [List.length_cons] at hn
    have hb : blockRemains s = true := by simp only [blockRemains, decide_eq_true_eq]; omega
    have htest : advance { s with todo := .forReceive :: rest } =
        .moved { s with todo := [.recv .wData] ++ .forReceive :: rest } :=
      congrArg Advance.moved (if_pos hb)
    have hrecv := recv_does (p := .wData) hrx (.inr ⟨nofun, nofun⟩) (.forReceive :: rest)
    have hmore := ih (s := received .wData s d) (by simp [hrx]) (toNat_i_succ hn)
    exact (((reaches_of_advance htest).trans hrecv).trans hmore).mono (by simp; omega)

/-! ### One block -/

/-- The state at the first continuation point of a block (43_transfer_engine R201 to R203). The checksum of the block
starts from 0 (decision D15). -/
def afterReceivePhase (data : List Byte) (s : State) : State :=
  sent .crcIn (sent .ack (data.foldl (received .wData) { s with blockSize := nextBlockSize s, crcIn := 0, i := 0 }))

/-- The state at the second continuation point of a block (43_transfer_engine R204, R205). -/
def afterWritePhase (s : State) : State :=
  sent .crcOut (sent .ack (afterWriteTurn^[s.blockSize.toNat] { s with crcOut := 0, i := 0 }))

theorem receivePhase_does {data more : List Byte} {s : State} {k : Nat} (hrx : s.rx = data ++ more)
    (hlen : data.length = (nextBlockSize s).toNat) (hroom : roomFor s (k + 2)) :
    Does [.beginReceive, .forReceive, .send .ack, .send .crcIn] (2 * data.length + 4)
      { s with blockSize := nextBlockSize s } (afterReceivePhase data s) := by
  have hbegin : Does [.beginReceive] 1 { s with blockSize := nextBlockSize s }
      { s with blockSize := nextBlockSize s, crcIn := 0, i := 0 } := straight_does rfl _
  have hstage := forReceive_does (s := { s with blockSize := nextBlockSize s, crcIn := 0, i := 0 }) hrx
    ((Nat.zero_add _).trans hlen)
  have hroom' : roomFor (data.foldl (received .wData) { s with blockSize := nextBlockSize s, crcIn := 0, i := 0 })
      (k + 2) := roomFor_foldl_received hroom
  exact ((hbegin.append hstage).append ((send_does .ack (txRoom_ne_zero hroom')).append
    (send_does .crcIn (txRoom_ne_zero (roomFor_sent hroom'))))).mono (by omega)

theorem afterReceivePhase_leaves (data : List Byte) (s : State) :
    (afterReceivePhase data s).transferLength = s.transferLength ∧ (afterReceivePhase data s).progress = s.progress ∧
    (afterReceivePhase data s).bus = s.bus ∧ (afterReceivePhase data s).blockSize = nextBlockSize s ∧
    (afterReceivePhase data s).rx = s.rx.drop data.length := by
  obtain ⟨hlen, hprog, hsize, _, hbus, hrx⟩ :=
    foldl_received_leaves data { s with blockSize := nextBlockSize s, crcIn := 0, i := 0 }
  exact ⟨hlen, hprog, hbus, hsize, hrx⟩

theorem roomFor_afterReceivePhase {data : List Byte} {s : State} {k : Nat} (h : roomFor s (k + 2)) :
    roomFor (afterReceivePhase data s) k :=
  roomFor_sent (roomFor_sent (roomFor_foldl_received
    (s := { s with blockSize := nextBlockSize s, crcIn := 0, i := 0 }) h))

theorem writePhase_does {s : State} {k : Nat} (hd : s.bus.dir = .output) (hroom : roomFor s (k + 2)) :
    Does [.beginWrite, .forWrite, .send .ack, .send .crcOut] (266 * s.blockSize.toNat + 4) s (afterWritePhase s) := by
  have hbegin : Does [.beginWrite] 1 s { s with crcOut := 0, i := 0 } := straight_does rfl _
  have hwrite := forWrite_does (n := s.blockSize.toNat) (s := { s with crcOut := 0, i := 0 }) hd (Nat.zero_add _)
  have hroom' : roomFor (afterWriteTurn^[s.blockSize.toNat] { s with crcOut := 0, i := 0 }) (k + 2) :=
    roomFor_iterate_afterWriteTurn hroom
  exact ((hbegin.append hwrite).append ((send_does .ack (txRoom_ne_zero hroom')).append
    (send_does .crcOut (txRoom_ne_zero (roomFor_sent hroom'))))).mono (by omega)

theorem afterWritePhase_leaves (s : State) :
    (afterWritePhase s).transferLength = s.transferLength ∧ (afterWritePhase s).progress = s.progress ∧
    (afterWritePhase s).blockSize = s.blockSize ∧ (afterWritePhase s).rx = s.rx := by
  obtain ⟨hlen, hprog, hsize, hrx, _⟩ :=
    iterate_afterWriteTurn_leaves s.blockSize.toNat { s with crcOut := 0, i := 0 }
  exact ⟨hlen, hprog, hsize, hrx⟩

theorem afterWritePhase_dir {s : State} (hd : s.bus.dir = .output) : (afterWritePhase s).bus.dir = .output :=
  iterate_afterWriteTurn_dir _ hd

theorem roomFor_afterWritePhase {s : State} {k : Nat} (h : roomFor s (k + 2)) : roomFor (afterWritePhase s) k :=
  roomFor_sent (roomFor_sent (roomFor_iterate_afterWriteTurn (s := { s with crcOut := 0, i := 0 }) h))

/-- The state at the first continuation point of a block, its byte taken (43_transfer_engine R203). -/
def afterFirstCont (s : State) (b : WriteBlock) : State := received .wCont1 (afterReceivePhase b.data s) b.cont1

/-- The state after a block: at the common exit if it was aborted, else at the next loop test (43_transfer_engine R203
to R206). -/
def afterBlock (s : State) (b : WriteBlock) : State :=
  match b.cont2 with
  | none => afterFirstCont s b
  | some c =>
    let u := received .wCont2 (afterWritePhase (afterFirstCont s b)) c
    if c = Config.abort then u else { u with progress := u.progress + u.blockSize }

theorem afterFirstCont_leaves (s : State) (b : WriteBlock) :
    (afterFirstCont s b).transferLength = s.transferLength ∧ (afterFirstCont s b).progress = s.progress ∧
    (afterFirstCont s b).bus = s.bus ∧ (afterFirstCont s b).blockSize = nextBlockSize s ∧
    (afterFirstCont s b).rx = s.rx.drop (b.data.length + 1) := by
  obtain ⟨hlen, hprog⟩ := received_write_leaves (.inr (.inl rfl)) (afterReceivePhase b.data s) b.cont1
  obtain ⟨hlen', hprog', hbus, hsize, hrx⟩ := afterReceivePhase_leaves b.data s
  simp [afterFirstCont, hlen, hprog, hlen', hprog', hbus, hsize, hrx]

theorem afterBlock_rx (s : State) (b : WriteBlock) : (afterBlock s b).rx = s.rx.drop b.bytes.length := by
  obtain ⟨data, c1, c2⟩ := b
  obtain ⟨_, _, _, _, hrx⟩ := afterFirstCont_leaves s ⟨data, c1, c2⟩
  cases c2 with
  | none => simp [afterBlock, hrx, WriteBlock.bytes]
  | some c =>
    obtain ⟨_, _, _, hrx'⟩ := afterWritePhase_leaves (afterFirstCont s ⟨data, c1, some c⟩)
    have hdrop : (received .wCont2 (afterWritePhase (afterFirstCont s ⟨data, c1, some c⟩)) c).rx =
        s.rx.drop (data.length + 2) := by simp [hrx, hrx']
    simp only [afterBlock]
    split <;> simpa [WriteBlock.bytes] using hdrop

theorem foldl_afterBlock_rx (bs : List WriteBlock) (s : State) :
    (bs.foldl afterBlock s).rx = s.rx.drop (bs.flatMap WriteBlock.bytes).length := by
  induction bs generalizing s with
  | nil => simp
  | cons b bs ih => simp [ih, afterBlock_rx]

theorem roomFor_afterFirstCont {s : State} {b : WriteBlock} {k : Nat} (h : roomFor s (k + 2)) :
    roomFor (afterFirstCont s b) k := by
  obtain ⟨_, hroom, _, _⟩ := received_leaves .wCont1 (afterReceivePhase b.data s) b.cont1
  exact roomFor_of_txRoom_eq hroom (roomFor_afterReceivePhase h)

/-- What a block that was not aborted leaves for the next loop test. -/
theorem afterBlock_completed {s : State} {b : WriteBlock} {c : Byte} (hc2 : b.cont2 = some c) (hc : c ≠ Config.abort) :
    (afterBlock s b).transferLength = s.transferLength ∧
      (afterBlock s b).progress = s.progress + nextBlockSize s ∧
      (s.bus.dir = .output → (afterBlock s b).bus.dir = .output) ∧
      ∀ k, roomFor s (k + 4) → roomFor (afterBlock s b) k := by
  obtain ⟨hlen, hprog, hbus, hsize, _⟩ := afterFirstCont_leaves s b
  obtain ⟨hlen', hprog', hsize', _⟩ := afterWritePhase_leaves (afterFirstCont s b)
  obtain ⟨hlen'', hprog''⟩ := received_write_leaves (.inr (.inr rfl)) (afterWritePhase (afterFirstCont s b)) c
  obtain ⟨hsize'', hroom, hbus'', _⟩ := received_leaves .wCont2 (afterWritePhase (afterFirstCont s b)) c
  simp only [afterBlock, hc2, if_neg hc]
  refine ⟨?_, ?_, fun hd => ?_, fun k hk => ?_⟩
  · rw [hlen'', hlen', hlen]
  · rw [hprog'', hsize'', hprog', hsize', hprog, hsize]
  · rw [hbus'']
    exact afterWritePhase_dir (by rw [hbus, hd])
  · exact roomFor_of_txRoom_eq hroom (roomFor_afterWritePhase (roomFor_afterFirstCont hk))

/-! ### The lines of one block -/

/-- At the loop test of a Bulk Write, with the block `b` next on the stream and room for what the block sends. -/
structure BlockNext (s : State) (b : WriteBlock) : Prop where
  remains : bytesRemain s = true
  size : b.data.length = (nextBlockSize s).toNat
  stream : ∃ more, s.rx = b.bytes ++ more
  output : s.bus.dir = .output
  room : roomFor s 4

/-- A block from the loop test to its first continuation point (43_transfer_engine R201 to R203). -/
theorem BlockNext.reaches_firstCont {s : State} {b : WriteBlock} (h : BlockNext s b) (rest : List Act) :
    Reaches (2 * b.data.length + 5) { s with todo := .whileWrite :: rest }
        { afterReceivePhase b.data s with todo := .recv .wCont1 :: writeBody.drop 5 ++ rest } ∧
      ∃ more, (afterReceivePhase b.data s).rx = b.cont1 :: more := by
  obtain ⟨more, hrx⟩ := h.stream
  rw [writeBlock_bytes_append] at hrx
  obtain ⟨_, _, _, _, hrx'⟩ := afterReceivePhase_leaves b.data s
  rw [hrx, List.drop_left] at hrx'
  have htest : advance { s with todo := .whileWrite :: rest } =
      .moved { s with blockSize := nextBlockSize s, todo := writeBody ++ rest } :=
    congrArg Advance.moved (if_pos h.remains)
  have hphase := receivePhase_does hrx h.size h.room (writeBody.drop 4 ++ rest)
  exact ⟨((reaches_of_advance htest).trans hphase).mono (by omega), _, hrx'⟩

/-- A block aborted at the first continuation point ends at the common exit (43_transfer_engine R203). -/
theorem BlockNext.reaches_exit_first {s : State} {b : WriteBlock} (h : BlockNext s b) (rest : List Act)
    (hc1 : b.cont1 = Config.abort) (hc2 : b.cont2 = none) :
    Reaches (2 * b.data.length + 6) { s with todo := .whileWrite :: rest }
      { afterBlock s b with todo := writeExit } := by
  obtain ⟨hfirst, more, hrx⟩ := h.reaches_firstCont rest
  have hblock : afterBlock s b = received .wCont1 (afterReceivePhase b.data s) Config.abort := by
    simp [afterBlock, hc2, afterFirstCont, hc1]
  rw [hblock]
  exact hfirst.trans (recv_abort_reaches (hc1 ▸ hrx) (.inl rfl))

/-- A block that goes on at the first continuation point, up to the second one (43_transfer_engine R204, R205). -/
theorem BlockNext.reaches_secondCont {s : State} {b : WriteBlock} {c : Byte} (h : BlockNext s b) (rest : List Act)
    (hc1 : b.cont1 ≠ Config.abort) (hc2 : b.cont2 = some c) :
    Reaches (268 * b.data.length + 10) { s with todo := .whileWrite :: rest }
        { afterWritePhase (afterFirstCont s b) with todo := .recv .wCont2 :: .advanceBlock :: .whileWrite :: rest } ∧
      ∃ more, (afterWritePhase (afterFirstCont s b)).rx = c :: more := by
  obtain ⟨hfirst, _, hrx⟩ := h.reaches_firstCont rest
  obtain ⟨_, _, hbus, hsize, hrx'⟩ := afterFirstCont_leaves s b
  obtain ⟨_, _, _, hrx''⟩ := afterWritePhase_leaves (afterFirstCont s b)
  have hgo := recv_does (p := .wCont1) hrx (.inl hc1) (writeBody.drop 5 ++ rest)
  have hphase := writePhase_does (s := afterFirstCont s b) (k := 0) (by rw [hbus, h.output])
    (roomFor_afterFirstCont h.room) (.recv .wCont2 :: .advanceBlock :: .whileWrite :: rest)
  have hcount : (afterFirstCont s b).blockSize.toNat = b.data.length := by rw [hsize, h.size]
  obtain ⟨more, hstream⟩ := h.stream
  have hall := (hfirst.trans hgo).trans hphase
  refine ⟨hall.mono (by omega), more, ?_⟩
  simp [hrx'', hrx', hstream, WriteBlock.bytes, hc2]

/-- A block aborted at the second continuation point ends at the common exit (43_transfer_engine R205). -/
theorem BlockNext.reaches_exit_second {s : State} {b : WriteBlock} (h : BlockNext s b) (rest : List Act)
    (hc1 : b.cont1 ≠ Config.abort) (hc2 : b.cont2 = some Config.abort) :
    Reaches (268 * b.data.length + 11) { s with todo := .whileWrite :: rest }
      { afterBlock s b with todo := writeExit } := by
  obtain ⟨hsecond, more, hrx⟩ := h.reaches_secondCont rest hc1 hc2
  have hblock : afterBlock s b = received .wCont2 (afterWritePhase (afterFirstCont s b)) Config.abort := by
    simp [afterBlock, hc2]
  rw [hblock]
  exact hsecond.trans (recv_abort_reaches hrx (.inr rfl))

/-- A block that is not aborted ends at the next loop test (43_transfer_engine R206). -/
theorem BlockNext.reaches_next {s : State} {b : WriteBlock} {c : Byte} (h : BlockNext s b) (rest : List Act)
    (hc1 : b.cont1 ≠ Config.abort) (hc2 : b.cont2 = some c) (hc : c ≠ Config.abort) :
    Reaches (268 * b.data.length + 12) { s with todo := .whileWrite :: rest }
      { afterBlock s b with todo := .whileWrite :: rest } := by
  obtain ⟨hsecond, more, hrx⟩ := h.reaches_secondCont rest hc1 hc2
  have hgo := recv_does (p := .wCont2) hrx (.inl hc) (.advanceBlock :: .whileWrite :: rest)
  have hblock : afterBlock s b = effect (received .wCont2 (afterWritePhase (afterFirstCont s b)) c) .advanceBlock := by
    simp [afterBlock, hc2, hc, effect, perform]
  rw [hblock]
  have hadvance := straight_does (code := [.advanceBlock]) rfl
    (received .wCont2 (afterWritePhase (afterFirstCont s b)) c) (.whileWrite :: rest)
  exact (hsecond.trans hgo).trans hadvance

/-! ### The whole command -/

/-- The blocks of a Bulk Write, from the loop test to the common exit, on any chip (43_transfer_engine R208). -/
theorem writeLoop_reaches {bs : List WriteBlock} {rest : List Byte} {s : State}
    (hfit : blocksFit (s.transferLength.toNat - s.progress.toNat) bs = true)
    (hle : s.progress.toNat ≤ s.transferLength.toNat) (hrx : s.rx = bs.flatMap WriteBlock.bytes ++ rest)
    (hd : s.bus.dir = .output) (hroom : roomFor s (4 * bs.length)) :
    Reaches (280 * (s.transferLength.toNat - s.progress.toNat) + 1) { s with todo := .whileWrite :: writeExit }
      { bs.foldl afterBlock s with todo := writeExit } := by
  induction bs generalizing s with
  | nil =>
    have hn : s.transferLength.toNat - s.progress.toNat = 0 := by simpa [blocksFit] using hfit
    have hdone : bytesRemain s = false := by simp only [bytesRemain, decide_eq_false_iff_not]; omega
    have htest : advance { s with todo := .whileWrite :: writeExit } = .moved { s with todo := writeExit } :=
      congrArg Advance.moved (if_neg (ne_true_of_eq_false hdone))
    exact (reaches_of_advance htest).mono (by omega)
  | cons b bs ih =>
    obtain ⟨hn, hlen, hcont⟩ := blocksFit_cons.mp hfit
    have hremains : bytesRemain s = true := by simp only [bytesRemain, decide_eq_true_eq]; omega
    have hsize : (nextBlockSize s).toNat = min 512 (s.transferLength.toNat - s.progress.toNat) :=
      toNat_nextBlockSize hremains
    rw [List.length_cons, Nat.mul_succ] at hroom
    rw [List.flatMap_cons, List.append_assoc] at hrx
    have hnext : BlockNext s b :=
      ⟨hremains, hlen.trans hsize.symm, ⟨_, hrx⟩, hd, fun r hr => le_of_add_le_right (hroom r hr)⟩
    obtain ⟨hc1, hc2, rfl⟩ | ⟨hc1, hc2, rfl⟩ | ⟨hc1, c, hc2, hc, hfit'⟩ := hcont
    · exact (hnext.reaches_exit_first writeExit hc1 hc2).mono (by omega)
    · exact (hnext.reaches_exit_second writeExit hc1 hc2).mono (by omega)
    · obtain ⟨hlen', hprog', hdir', hroom'⟩ := afterBlock_completed (s := s) hc2 hc
      have hprog : (afterBlock s b).progress.toNat = s.progress.toNat + (nextBlockSize s).toNat := by
        have := s.transferLength.isLt
        rw [hprog', BitVec.toNat_add]
        omega
      have hmore := ih (s := afterBlock s b) (by rwa [hlen', hprog, hsize, ← Nat.sub_sub]) (by rw [hlen', hprog]; omega)
        (by rw [afterBlock_rx, hrx, List.drop_left]) (hdir' hd) (hroom' _ hroom)
      have hleft : (afterBlock s b).transferLength.toNat = s.transferLength.toNat := by rw [hlen']
      have hall := (hnext.reaches_next writeExit hc1 hc2 hc).trans hmore
      exact hall.mono (by omega)

/-- The state at the first loop test of a Bulk Write (43_transfer_engine R200). -/
def writeLoopEntry (s : State) : State :=
  { oeDeassert (chipEnable (enterWriteMode (sent .ack s))) with progress := 0 }

/-- The state after a Bulk Write of the given blocks (43_transfer_engine R207, R208). -/
def afterWrite (bs : List WriteBlock) (s : State) : State :=
  { enterReadMode (chipDisable (bs.foldl afterBlock (writeLoopEntry s))) with todo := [] }

/-- With its blocks on the stream and room for its bytes, a Bulk Write of any length, to any chip, runs to its end. -/
theorem exec_write {s : State} {bs : List WriteBlock} {rest : List Byte}
    (hfit : blocksFit s.transferLength.toNat bs = true) (hrx : s.rx = bs.flatMap WriteBlock.bytes ++ rest)
    (hroom : roomFor s (4 * bs.length + 1)) : exec .write s = .next (afterWrite bs s) := by
  have hentry : Does [.enterWriteMode, .chipEnable, .oeDeassert, .clearProgress] 4 (sent .ack s) (writeLoopEntry s) :=
    straight_does rfl _
  have hstart := (send_does .ack (txRoom_ne_zero hroom)).append hentry (.whileWrite :: writeExit)
  have hloop := writeLoop_reaches (s := writeLoopEntry s) hfit (Nat.zero_le _) hrx rfl (roomFor_sent (v := .ack) hroom)
  have hexit : Does writeExit 2 (bs.foldl afterBlock (writeLoopEntry s))
      (enterReadMode (chipDisable (bs.foldl afterBlock (writeLoopEntry s)))) := straight_does rfl _
  obtain ⟨k, hk, hall⟩ := (hstart.trans hloop).trans (hexit [])
  have hbudget : k ≤ Config.stepBudget := by
    have : (writeLoopEntry s).transferLength.toNat < 65536 := (writeLoopEntry s).transferLength.isLt
    simp only [Config.stepBudget]
    omega
  rw [exec_eq]
  exact runCommand_completes hall rfl hbudget

theorem afterWrite_rx (bs : List WriteBlock) (s : State) :
    (afterWrite bs s).rx = s.rx.drop (bs.flatMap WriteBlock.bytes).length :=
  foldl_afterBlock_rx bs (writeLoopEntry s)

end Sys2Proof.Claims
end

section
/-! SUPPORT. Whole commands and half commands on the link: every command that fits takes exactly its own bytes and ends
in `IDLE`; half an operand leaves the command waiting (spec 30_encoding R90, R94, R95; 20_memory R71; 42_session_commands
R170). -/

namespace Sys2Proof.Claims

open Sys2Proof.Machine

/-! ### What commands leave of the link -/

/-- A link that stays ready is ready after every command. -/
theorem exec_txRoom_none {i : Instr} {s t : State} (h : exec i s = .next t) (hs : s.txRoom = none) :
    t.txRoom = none := by
  refine exec_keeps (P := fun u => u.txRoom = none) (fun a u v _ hu hp => ?_) (fun _ _ hu => hu) h hs
  cases hw : writesTxRoom a
  case false => rw [perform_txRoom hp hw, hu]
  case true =>
    cases a
    case send v =>
      obtain ⟨_, rfl⟩ := perform_send hp
      simp [hu]
    all_goals cases hw

/-- Seven of the ten commands take no byte after their command byte (30_encoding R91). -/
theorem exec_rx {i : Instr} {s t : State} (h : exec i s = .next t) (hs : i ≠ .setAddr) (hl : i ≠ .setLen)
    (hd : i ≠ .write) : t.rx = s.rx := by
  have hno : ∀ a, commandLine i a = true → writesRx a = false := by
    intro a ha
    cases a
    case recv p =>
      cases i
      case setAddr => exact absurd rfl hs
      case setLen => exact absurd rfl hl
      case write => exact absurd rfl hd
      all_goals cases ha
    all_goals rfl
  exact exec_keeps (P := fun u => u.rx = s.rx) (fun a u v ha hu hp => (perform_rx hp (hno a ha)).trans hu)
    (fun _ _ hu => hu) h rfl

/-! ### The commands without a loop -/

/-- A command whose lines run whatever the state is completes and takes no byte. -/
theorem exec_of_straight {i : Instr} {s : State} {rest : List Byte} (h : (commandCode i).all isStraight = true)
    (hrx : s.rx = rest) : ∃ t, exec i s = .next t ∧ t.todo = [] ∧ t.rx = rest := by
  have hshort : (commandCode i).length ≤ Config.stepBudget := by
    cases i
    case ignored op => exact Nat.zero_le _
    all_goals decide
  have hexec := exec_of_does (straight_does h s) hshort
  refine ⟨_, hexec, rfl, (exec_rx hexec ?_ ?_ ?_).trans hrx⟩ <;> rintro rfl <;> cases h

/-- The high byte of an operand and the acknowledgment (30_encoding R95). -/
theorem highByte_does {q : RecvPos} {s : State} {hi : Byte} {rest : List Byte} (hq : q ≠ .wCont1 ∧ q ≠ .wCont2)
    (hrx : s.rx = hi :: rest) (hroom : roomFor s 1) :
    Does [.recv q, .send .ack] 2 s (sent .ack (received q s hi)) := by
  obtain ⟨_, hleave, _, _⟩ := received_leaves q s hi
  exact (recv_does hrx (.inr hq)).append (send_does .ack (txRoom_ne_zero (roomFor_of_txRoom_eq hleave hroom)))

/-- An operand and the acknowledgment (30_encoding R95). -/
theorem operand_does {p q : RecvPos} {s : State} {lo hi : Byte} {rest : List Byte} (hp : p ≠ .wCont1 ∧ p ≠ .wCont2)
    (hq : q ≠ .wCont1 ∧ q ≠ .wCont2) (hrx : s.rx = lo :: hi :: rest) (hroom : roomFor s 1) :
    Does [.recv p, .recv q, .send .ack] 3 s (sent .ack (received q (received p s lo) hi)) := by
  obtain ⟨_, hleave, _, hrx'⟩ := received_leaves p s lo
  rw [hrx, List.tail_cons] at hrx'
  exact (recv_does hrx (.inr hp)).append (highByte_does hq hrx' (roomFor_of_txRoom_eq hleave hroom))

theorem readOneByte_does {s : State} (hd : s.bus.dir = .input) : Does [.callReadOneByte] 7 s (afterReadOneByte s) :=
  fun rest => by
    have hlines := readOneByte_advances (s := { s with todo := [.callReadOneByte] ++ rest }) rfl hd
    rw [afterReadOneByte_withTodo] at hlines
    exact reaches_of_advances hlines

/-- The state after the byte of a `+` has been sent (42_session_commands R174). -/
def sentRead1 (s : State) : State := sent .value (afterReadOneByte (chipEnable (enterReadMode s)))

/-- On a link with room for its byte, a `+` runs to its end (42_session_commands R174). -/
theorem exec_read1 {s : State} (hroom : roomFor s 1) :
    exec .read1 s =
      .next { chipDisable { sentRead1 s with progress := (sentRead1 s).progress + 1 } with todo := [] } := by
  have hentry : Does [.enterReadMode, .chipEnable] 2 s (chipEnable (enterReadMode s)) := straight_does rfl s
  have hread := readOneByte_does (s := chipEnable (enterReadMode s)) rfl
  have hroom' : roomFor (afterReadOneByte (chipEnable (enterReadMode s))) 1 :=
    roomFor_of_txRoom_eq (afterReadOneByte_txRoom _) hroom
  have hsend := send_does .value (txRoom_ne_zero hroom')
  have hexit : Does [.bumpProgress, .chipDisable] 2 (sentRead1 s)
      (chipDisable { sentRead1 s with progress := (sentRead1 s).progress + 1 }) := straight_does rfl _
  exact exec_of_does (i := .read1) (hentry.append (hread.append (hsend.append hexit))) (by decide)

/-! ### Whole commands -/

/-- The host bytes that belong to a command of a fitting frame are taken, and the command is over, on a link that stays
ready. -/
theorem exec_frame {s : State} {f : Frame} {rest : List Byte} (hfit : f.fits s.transferLength = true)
    (hrx : s.rx = f.operandBytes ++ rest) (hroom : ∀ k, roomFor s k) :
    ∃ t, exec f.instr s = .next t ∧ t.todo = [] ∧ t.rx = rest := by
  cases f with
  | setAddr imm =>
    have hdo := operand_does (p := .sLo) (q := .sHi) ⟨nofun, nofun⟩ ⟨nofun, nofun⟩ hrx (hroom 1)
    exact ⟨_, exec_of_does (i := .setAddr) hdo (by decide), rfl, by simp [sent, hrx, Frame.operandBytes, wordBytes]⟩
  | setLen imm =>
    have hdo := operand_does (p := .lLo) (q := .lHi) ⟨nofun, nofun⟩ ⟨nofun, nofun⟩ hrx (hroom 1)
    exact ⟨_, exec_of_does (i := .setLen) hdo (by decide), rfl, by simp [sent, hrx, Frame.operandBytes, wordBytes]⟩
  | write blocks =>
    refine ⟨_, exec_write hfit hrx (hroom _), rfl, ?_⟩
    rw [afterWrite_rx, hrx]
    exact List.drop_left
  | read =>
    have hexec := exec_read (hroom _)
    exact ⟨_, hexec, rfl, (exec_rx hexec nofun nofun nofun).trans hrx⟩
  | read1 =>
    have hexec := exec_read1 (hroom 1)
    exact ⟨_, hexec, rfl, (exec_rx hexec nofun nofun nofun).trans hrx⟩
  | reinit | diag1 | diag2 | xnop | ignored => exact exec_of_straight rfl hrx

/-- Settles O40: each of the ten commands completes on its own bytes; for `d` the bound is the step's budget. -/
theorem commandConsumesItsFrame : Obligations.CommandConsumesItsFrame := by
  intro s f rest hfit hroom hrx
  obtain ⟨t, ht, htodo, hrest⟩ := exec_frame hfit hrx fun k r hr => by simp [hroom] at hr
  exact ⟨t, ht, by simp [State.seq, htodo], hrest, exec_txRoom_none ht hroom⟩

/-! ### Half an operand -/

/-- With only the low byte there, a command with an operand takes it and waits for the high one. -/
theorem exec_lowByte {i : Instr} {p q : RecvPos} {s : State} {lo : Byte}
    (hcode : commandCode i = [.recv p, .recv q, .send .ack]) (hp : p ≠ .wCont1 ∧ p ≠ .wCont2) (hrx : s.rx = [lo]) :
    exec i s = .next { received p s lo with todo := [.recv q, .send .ack] } := by
  obtain ⟨k, hk, hlow⟩ := recv_does hrx (.inr hp) [.recv q, .send .ack]
  have hwait : advance { received p s lo with todo := [.recv q, .send .ack] } = .blocked :=
    (advance_blocked_iff _).mpr (.inr (.inl ⟨⟨q, _, rfl⟩, by simp [hrx]⟩))
  rw [exec_eq, hcode]
  exact run_ends hlow hwait (hk.trans (by decide))

/-- A step inside a command whose lines do something within the step's bound completes it. -/
theorem step_of_does {code : List Act} {n : Nat} {s t : State} (h : Does code n s t) (hr : s.resetIn = false)
    (ht : s.todo = code) (hne : code ≠ []) (hn : n ≤ Config.stepBudget) : step s = .next { t with todo := [] } := by
  obtain ⟨k, hk, ha⟩ := h []
  rw [List.append_nil, ← ht] at ha
  rw [step_midway hr (ht ▸ hne)]
  exact run_ends ha (advance_nil rfl) (hk.trans hn)

/-- Settles O28: the low byte goes to `op_lo` only; the line that takes the high byte writes the register, and the
acknowledgment ends the command. -/
theorem halfOperandWaits : Obligations.HalfOperandWaits := by
  intro s lo hi hrx hroom hr
  refine ⟨⟨_, exec_lowByte (i := .setAddr) rfl ⟨nofun, nofun⟩ hrx, rfl, ⟨rfl, rfl, rfl⟩, rfl, ?addrHigh⟩,
    ⟨_, exec_lowByte (i := .setLen) rfl ⟨nofun, nofun⟩ hrx, rfl, ⟨rfl, rfl, rfl⟩, rfl, ?lenHigh⟩⟩
  case addrHigh =>
    have hdo := highByte_does (q := .sHi) (hi := hi)
      (s := { received .sLo s lo with todo := [.recv .sHi, .send .ack], rx := [hi] }) ⟨nofun, nofun⟩ rfl hroom
    exact ⟨_, step_of_does hdo hr rfl nofun (by decide), rfl, rfl, rfl, rfl, rfl⟩
  case lenHigh =>
    have hdo := highByte_does (q := .lHi) (hi := hi)
      (s := { received .lLo s lo with todo := [.recv .lHi, .send .ack], rx := [hi] }) ⟨nofun, nofun⟩ rfl hroom
    exact ⟨_, step_of_does hdo hr rfl nofun (by decide), rfl, rfl, rfl, rfl, rfl⟩

end Sys2Proof.Claims
end

section
/-! SUPPORT. The direction of the data bus along the lines still to run, and the two contract violations that no step reaches
(spec 40_bus_driver R120, R124, R125). -/

namespace Sys2Proof.Claims

open Sys2Proof.Machine

/-! ### The direction after a line -/

/-- A line that leaves the bus is checked to leave its direction. -/
theorem dirAfter_of_writesBus_false {a : Act} {d e : Dir} (ha : writesBus a = false) (h : dirAfter a d = some e) :
    e = d := by
  cases a <;> simp only [dirAfter, Option.ite_none_right_eq_some, Option.some.injEq] at h
  case sampleData | callReadOneByte | whileRead | attempt | untilVerified | callWriteOneByte | forWrite | whileWrite =>
    obtain ⟨_, rfl⟩ := h
    rfl
  case enterWriteMode | enterReadMode | busToInput | busToOutput | applyPattern | driveData => cases ha
  all_goals exact h.symm

/-- A line leaves the bus in the direction that the check of the lines says. -/
theorem perform_dir {a : Act} {s t : State} {d : Dir} (h : perform a s = .moved t)
    (hd : dirAfter a s.bus.dir = some d) : t.bus.dir = d := by
  cases hw : writesBus a
  case false => rw [perform_bus h hw, dirAfter_of_writesBus_false hw hd]
  case true =>
    cases a
    case driveData b =>
      obtain ⟨hout, rfl⟩ := perform_driveData h
      simpa [dirAfter, hout] using hd
    case reinitAddress =>
      cases h
      rw [(reinitAddress_writes s).1]
      split <;> exact Option.some.inj hd
    case setAddress | enterWriteMode | enterReadMode | busToInput | busToOutput | chipEnable | chipDisable | oeAssert
        | oeDeassert | pgmAssert | pgmDeassert | applyPattern =>
      cases h
      exact Option.some.inj hd
    all_goals cases hw

/-! ### The lines that a line stands for -/

/-- The lines that a call or a loop line puts before those still to run; no line puts any others there. -/
def calledCode (a : Act) (s : State) : List Act :=
  match a with
  | .attempt data => attemptCode data
  | .untilVerified data => [.attempt data]
  | .callReadOneByte => readOneByteCode (readAddress s)
  | .callWriteOneByte => writeOneByteCode (writeAddress s) (stagedByte s)
  | .whileWrite => writeBody
  | .forReceive => [.recv .wData, .forReceive]
  | .forWrite => [.callWriteOneByte, .foldVerified, .forWrite]
  | .whileRead => readBody
  | _ => []

/-- After a line the lines still to run are as they were, or its own come before them, or a Bulk Write breaks to its exit. -/
theorem perform_todo_eq {a : Act} {s t : State} (h : perform a s = .moved t) :
    t.todo = s.todo ∨ t.todo = calledCode a s ++ s.todo ∨ t.todo = writeExit := by
  cases a
  case recv p =>
    obtain ⟨b, rest, _, rfl⟩ := perform_recv h
    cases p
    case wCont1 | wCont2 =>
      simp only [receive]
      split
      · exact .inr (.inr rfl)
      · exact .inl rfl
    all_goals exact .inl rfl
  case send v => obtain ⟨_, rfl⟩ := perform_send h; exact .inl rfl
  case driveData b => obtain ⟨_, rfl⟩ := perform_driveData h; exact .inl rfl
  case sampleData r => obtain ⟨_, rfl⟩ := perform_sampleData h; exact .inl (by simp)
  case attempt | callReadOneByte | callWriteOneByte => cases h; exact .inr (.inl rfl)
  case untilVerified =>
    cases h
    split
    · exact .inl rfl
    · exact .inr (.inl rfl)
  case whileWrite | whileRead | forReceive | forWrite =>
    cases h
    split
    · exact .inr (.inl rfl)
    · exact .inl rfl
  all_goals cases h; exact .inl rfl

/-- The lines that a line stands for are allowed at the direction it leaves, and leave that direction. -/
theorem dirAfterAll_calledCode {a : Act} {d e : Dir} (h : dirAfter a d = some e) (s : State) :
    dirAfterAll (calledCode a s) e = some e := by
  cases a
  case callReadOneByte | whileRead | attempt | untilVerified | callWriteOneByte | forWrite | whileWrite =>
    obtain ⟨rfl, hd⟩ := Option.ite_none_right_eq_some.mp h
    cases hd
    rfl
  all_goals rfl

/-! ### The lines still to run -/

theorem dirAfterAll_append (code rest : List Act) (d : Dir) :
    dirAfterAll (code ++ rest) d = (dirAfterAll code d).bind (dirAfterAll rest) := by
  induction code generalizing d with
  | nil => rfl
  | cons a code ih => simp [dirAfterAll, Option.bind_assoc, ih]

theorem directionSafe_cons {s : State} {a : Act} {rest : List Act} (ht : s.todo = a :: rest) :
    s.directionSafe = true ↔ ∃ d, dirAfter a s.bus.dir = some d ∧ (dirAfterAll rest d).isSome := by
  simp [State.directionSafe, ht, dirAfterAll, Option.isSome_bind, Option.any_eq_true]

theorem directionSafe_of_idle {s : State} (ht : s.todo = []) : s.directionSafe = true := by
  rw [State.directionSafe, ht]
  rfl

/-- A command's lines are safe whatever the direction it finds: each sets the direction before a line that needs one. -/
theorem directionSafe_command (i : Instr) (s : State) :
    State.directionSafe { s with todo := commandCode i } = true := by
  cases i <;> rfl

/-- A line that moves keeps the check: the lines it puts there leave the direction that the rest is checked for, and the exit
of a Bulk Write is allowed at any direction. -/
theorem directionSafe_advance {s t : State} (hs : s.directionSafe = true) (h : advance s = .moved t) :
    t.directionSafe = true := by
  obtain ⟨a, rest, ht, hp⟩ := advance_moved h
  obtain ⟨d, hd, hrest⟩ := (directionSafe_cons ht).mp hs
  have hdir : t.bus.dir = d := perform_dir hp hd
  rw [State.directionSafe, hdir]
  rcases perform_todo_eq hp with ht' | ht' | ht' <;> rw [ht']
  · exact hrest
  · rw [dirAfterAll_append, dirAfterAll_calledCode hd]
    exact hrest
  · rfl

/-! ### No fault -/

/-- A line that faults is one that the check does not allow at the present direction. -/
theorem dirAfter_of_fault {a : Act} {s : State} {f : Fault} (h : perform a s = .fault f) :
    dirAfter a s.bus.dir = none := by
  cases a
  case recv p => rcases linkRecv_cases s with ⟨_, hl⟩ | ⟨_, _, _, hl⟩ <;> simp [perform, hl] at h
  case send v => rcases linkSend_cases (sendByte v s) s with ⟨_, hl⟩ | ⟨_, hl⟩ <;> simp [perform, hl] at h
  case driveData b => cases hd : s.bus.dir <;> simp [perform, hd, dirAfter] at h ⊢
  case sampleData r => cases hd : s.bus.dir <;> simp [perform, hd, dirAfter] at h ⊢
  all_goals cases h

theorem advance_ne_fault {s : State} (hs : s.directionSafe = true) (f : Fault) : advance s ≠ .fault f := by
  intro h
  cases ht : s.todo with
  | nil => simp [advance_nil ht] at h
  | cons a rest =>
    rw [advance_cons ht] at h
    obtain ⟨d, hd, _⟩ := (directionSafe_cons ht).mp hs
    exact absurd (dirAfter_of_fault h) (by simp [hd])

theorem run_directionSafe (n : Nat) {s : State} (hs : s.directionSafe = true) :
    ∃ t, run n s = .next t ∧ t.directionSafe = true := by
  induction n generalizing s with
  | zero => exact ⟨s, rfl, hs⟩
  | succ n ih =>
    cases ha : advance s with
    | moved t => exact run_moved (n := n) ha ▸ ih (directionSafe_advance hs ha)
    | blocked => exact ⟨s, run_blocked ha, hs⟩
    | fault f => exact absurd ha (advance_ne_fault hs f)

/-- Settles O50: no line still to run faults, and each keeps the check; reset ends in `IDLE`, and a command taken in `IDLE` is
safe from any direction. -/
theorem noContractViolation : Obligations.NoContractViolation := by
  intro s hs
  cases hr : s.resetIn
  case true => exact ⟨_, step_asserted hr, directionSafe_of_idle rfl⟩
  case false =>
    by_cases ht : s.todo = []
    · rcases fetch_cases s with ⟨_, hf⟩ | ⟨b, rest, _, hf⟩
      · exact ⟨s, step_starved hr ht hf, hs⟩
      · rw [step_fetched hr ht hf, exec_eq, runCommand]
        exact run_directionSafe _ (directionSafe_command _ _)
    · rw [step_midway hr ht]
      exact run_directionSafe _ hs

end Sys2Proof.Claims
end

section
/-! SUPPORT. The micro-operations of the Bus Driver as ticks, what they and the other lines leave unchanged, and the time of a
wait (spec 40_bus_driver R121 to R124, R134, R135; 70_reset_and_hazards R272). -/

namespace Sys2Proof.Claims

open Sys2Proof.Machine

/-! ### One line as a tick -/

theorem tick_of_perform {s t : State} {a : Act} {rest : List Act} (hr : s.resetIn = false) (ht : s.todo = a :: rest)
    (h : perform a { s with todo := rest } = .moved t) : tick s = .next t :=
  tick_of_moved hr ((advance_cons ht).trans h)

theorem tick_of_perform_fault {s : State} {a : Act} {rest : List Act} {f : Fault} (hr : s.resetIn = false)
    (ht : s.todo = a :: rest) (h : perform a { s with todo := rest } = .fault f) : tick s = .fault f :=
  tick_fault hr ((advance_cons ht).trans h)

/-- Settles O19: each switch is one line that always moves. -/
theorem modeSwitches : Obligations.ModeSwitches := fun _ _ hr =>
  ⟨fun ht => tick_of_perform hr ht rfl, fun ht => tick_of_perform hr ht rfl⟩

/-! ### The data bus in the wrong direction -/

theorem perform_driveData_input (b : Byte) {s : State} (h : s.bus.dir = .input) :
    perform (.driveData b) s = .fault .driveWhileInput := by
  simp [perform, h]

theorem perform_sampleData_output (r : SampleReg) {s : State} (h : s.bus.dir = .output) :
    perform (.sampleData r) s = .fault .sampleWhileOutput := by
  simp [perform, h]

/-- Settles O18: the direction decides whether a line that drives or samples moves or faults. -/
theorem wrongDirectionFaults : Obligations.WrongDirectionFaults := by
  intro s rest hr
  refine ⟨fun b ht => ⟨fun hd => ?drives, fun hd => ?drivesInput⟩, fun r ht hd => ?samplesOutput⟩
  case drives => exact tick_of_perform hr ht (perform_driveData_output (s := { s with todo := rest }) b hd)
  case drivesInput =>
    exact tick_of_perform_fault hr ht (perform_driveData_input (s := { s with todo := rest }) b hd)
  case samplesOutput =>
    exact tick_of_perform_fault hr ht (perform_sampleData_output (s := { s with todo := rest }) r hd)

/-! ### The address -/

theorem chipAddr_setAddress (a : Word) (s : State) : Bus.chipAddr (setAddress a s).bus = chipAddrOf a :=
  chipAddr_of_fields rfl rfl

/-- The chip space repeats every 0x4000 logical addresses (20_memory R61). -/
theorem chipAddrOf_add_mul (a k : Word) : chipAddrOf (a + 0x4000 * k) = chipAddrOf a := by
  apply BitVec.eq_of_toNat_eq
  rw [toNat_chipAddrOf, toNat_chipAddrOf, BitVec.toNat_add, BitVec.toNat_mul]
  change (a.toNat + 16384 * k.toNat % 65536) % 65536 % 16384 = a.toNat % 16384
  omega

/-- Settles O7: the two fields carry the low 14 bits of the address. -/
theorem setAddressSelectsChipByte : Obligations.SetAddressSelectsChipByte := by
  intro s rest a k
  refine ⟨fun hr ht => tick_of_perform hr ht rfl, ?_, ?_⟩
  · rw [chipAddr_setAddress, toNat_chipAddrOf]
  · rw [chipAddr_setAddress, chipAddr_setAddress, chipAddrOf_add_mul]

/-! ### Frames -/

theorem writesBus_of_isBusLine_false {a : Act} (h : isBusLine a = false) : writesBus a = false := by
  cases a <;> first | rfl | cases h

/-- Settles O15: the fetch leaves the bus, and so does every line that is no bus line. -/
theorem onlyBusLinesChangeTheBus : Obligations.OnlyBusLinesChangeTheBus := by
  intro s t hr h hno
  rcases tick_next h with ⟨hr', _⟩ | ⟨_, _, _, _, _, rfl⟩ | ⟨_, ha⟩ | ⟨_, _, rfl⟩
  · rw [hr] at hr'
    cases hr'
  · rfl
  · obtain ⟨a, rest, ht, hp⟩ := advance_moved ha
    exact perform_bus (s := { s with todo := rest }) hp (writesBus_of_isBusLine_false (hno a rest ht))
  · rfl

/-- All that a bus line can change: the bus, the chip and its open answers, the sampled byte and the trace. -/
theorem perform_busLine {a : Act} {s t : State} (ha : isBusLine a = true) (h : perform a s = .moved t) :
    ∃ u : State, t = { s with
      bus := u.bus, chip := u.chip, answers := u.answers, draws := u.draws, verifiedValue := u.verifiedValue
      value := u.value, trace := u.trace } := by
  refine ⟨t, ?_⟩
  cases a
  case driveData b => obtain ⟨_, rfl⟩ := perform_driveData h; rfl
  case sampleData r =>
    obtain ⟨_, rfl⟩ := perform_sampleData h
    obtain ⟨k, as, n, hs⟩ := busValue_eq s
    cases r <;> simp [sampleInto, hs]
  case setAddress | enterWriteMode | enterReadMode | busToInput | busToOutput | chipEnable | chipDisable | oeAssert
      | oeDeassert | pgmAssert | pgmDeassert | reinitAddress | applyPattern => cases h; rfl
  all_goals cases ha

/-- A tick at a bus line runs it: no bus line waits for the link. -/
theorem tick_busLine {s t : State} {a : Act} {rest : List Act} (hr : s.resetIn = false) (ht : s.todo = a :: rest)
    (ha : isBusLine a = true) (h : tick s = .next t) : perform a { s with todo := rest } = .moved t := by
  cases hp : perform a { s with todo := rest } with
  | moved u =>
    rw [tick_of_perform hr ht hp, Host.Outcome.next.injEq] at h
    rw [h]
  | blocked =>
    rcases (perform_blocked_iff a _).mp hp with ⟨⟨p, rfl⟩, _⟩ | ⟨⟨v, rfl⟩, _⟩ <;> cases ha
  | fault f =>
    rw [tick_of_perform_fault hr ht hp] at h
    cases h

/-- Settles O16: what a bus line can change is none of these. -/
theorem busLinesLeaveTheSession : Obligations.BusLinesLeaveTheSession := by
  intro s t a rest hr ht ha h
  obtain ⟨u, rfl⟩ := perform_busLine ha (tick_busLine hr ht ha h)
  exact ⟨rfl, ⟨rfl, rfl, rfl⟩, rfl, rfl, rfl, rfl, rfl, rfl, rfl, rfl, rfl, rfl, rfl, rfl⟩

/-! ### Time -/

theorem delaySum_append (es fs : List Event) : delaySum (es ++ fs) = delaySum es + delaySum fs := by
  simp [delaySum]

theorem elapsed_wait (us : Nat) (s : State) : (wait us s).elapsed = s.elapsed + us := by
  rw [State.elapsed, wait_writes, delaySum_append]
  rfl

/-- The counted cycles last at least as long as the wait (decision D2). -/
theorem le_waitCycles_mul (us : Nat) {tClk : ℝ} (h : 0 < tClk) : us ≤ waitCycles us tClk * tClk :=
  (div_le_iff₀ h).mp (Nat.le_ceil _)

/-- The counted cycles last less than one period longer than the wait. -/
theorem waitCycles_mul_lt (us : Nat) {tClk : ℝ} (h : 0 < tClk) : waitCycles us tClk * tClk < us + tClk := by
  have hceil : (waitCycles us tClk : ℝ) < us / tClk + 1 := Nat.ceil_lt_add_one (by positivity)
  calc waitCycles us tClk * tClk < (us / tClk + 1) * tClk := mul_lt_mul_of_pos_right hceil h
    _ = us + tClk := by rw [add_mul, one_mul, div_mul_cancel₀ _ h.ne']

/-- Settles O60: a wait is its event, and the counter is the ceiling of the quotient. -/
theorem waitsAreNeverShortened : Obligations.WaitsAreNeverShortened := by
  refine ⟨fun s us rest hr ht => ?_, fun us tClk h => ⟨le_waitCycles_mul us h, waitCycles_mul_lt us h⟩⟩
  exact ⟨wait us { s with todo := rest }, tick_of_perform hr ht rfl, rfl, elapsed_wait us { s with todo := rest }⟩

end Sys2Proof.Claims
end

section
/-! SUPPORT. The two byte operations as ticks, in terms of the samples they take: the trace, the lines and the count of
an attempt and of a Write-one-byte; which samples end one; what an `IdealChip` and a `NeverVerifyChip` make of it; and
the Read-one-byte (spec 41_byte_ops R150 to R156; 20_memory R65). -/

namespace Sys2Proof.Claims

open Sys2Proof.Machine

/-! ### Code as ticks -/

/-- Outside reset, lines that do something do it in some number of ticks. -/
theorem ticks_of_does {code rest : List Act} {n : Nat} {s t : State} (h : Does code n s t) (hr : s.resetIn = false)
    (ht : s.todo = code ++ rest) : ∃ k, ticks k s = .next { t with todo := rest } := by
  obtain ⟨k, _, ha⟩ := h rest
  rw [← ht] at ha
  exact ⟨k, ticks_of_advances hr ha⟩

theorem elapsed_of_trace {s t : State} {es : List Event} (h : t.trace = s.trace ++ es) :
    t.elapsed = s.elapsed + delaySum es := by
  rw [State.elapsed, h, delaySum_append, State.elapsed]

theorem lines_eq_iff {b : Bus} {l : Lines} :
    Bus.lines b = l ↔ b.dir = l.dir ∧ b.vpp = l.vpp ∧ b.ce = l.ce ∧ b.oe = l.oe ∧ b.pgm = l.pgm := by
  obtain ⟨dir, vpp, ce, oe, pgm⟩ := l
  simp [Bus.lines]

/-! ### One attempt -/

theorem readyToVerify_bus (d : Byte) (s : State) :
    (readyToVerify d s).bus = { s.bus with dout := d, pgm := false, dir := .input, oe := true } := by
  simp [readyToVerify]

/-- At the write lines the strobe of an attempt is a program pulse with the attempt's data. -/
theorem readyToVerify_chip (d : Byte) {s : State} (hl : Bus.lines s.bus = writeLines) :
    (readyToVerify d s).chip = s.chip.pulse (Bus.chipAddr s.bus).toNat d := by
  obtain ⟨hdir, hvpp, hce, hoe, _⟩ := lines_eq_iff.mp hl
  simp [readyToVerify, Bus.pulseArmed, Bus.chipAddr, hdir, hvpp, hce, hoe, writeLines]

/-- An attempt samples once, what is on the bus after the pulse. -/
theorem afterAttempt_verifiedValue (d : Byte) (s : State) :
    (afterAttempt d s).verifiedValue = (readyToVerify d s).busValue.1 := by
  simp [afterAttempt, afterVerify, sampleInto_writes]

theorem afterAttempt_trace (d : Byte) (s : State) :
    (afterAttempt d s).trace = s.trace ++ attemptTrace d (afterAttempt d s).verifiedValue := by
  rw [afterAttempt_verifiedValue]
  simp [afterAttempt, afterVerify, sampleInto_writes, readyToVerify, attemptTrace, Config.tDataSettle, Config.tPgm,
    Config.tVerify]

theorem afterAttempt_bus (d : Byte) (s : State) :
    (afterAttempt d s).bus = { s.bus with dout := d, pgm := false, dir := .output, oe := false } := by
  simp [afterAttempt, afterVerify, readyToVerify_bus]

/-- An attempt leaves the write lines as it found them, with its data on the bus. -/
theorem afterAttempt_bus_of_writeLines (d : Byte) {s : State} (hl : Bus.lines s.bus = writeLines) :
    (afterAttempt d s).bus = { s.bus with dout := d } := by
  obtain ⟨hdir, _, _, hoe, hpgm⟩ := lines_eq_iff.mp hl
  simp only [writeLines] at hdir hoe hpgm
  simp [afterAttempt_bus, ← hdir, ← hoe, hpgm.trans hoe.symm]

theorem afterAttempt_tx (d : Byte) (s : State) : (afterAttempt d s).tx = s.tx := by
  simp [afterAttempt, afterVerify, readyToVerify]

theorem afterAttempt_chip (d : Byte) (s : State) :
    (afterAttempt d s).chip.cells = (readyToVerify d s).chip.cells ∧
      (afterAttempt d s).chip.unsettled = (readyToVerify d s).chip.unsettled ∧
      (afterAttempt d s).chip.model = (readyToVerify d s).chip.model := by
  simp [afterAttempt, afterVerify]

/-! ### The samples of the attempts -/

/-- The samples of at most `n` more attempts, as many as the test of R153 asks for, the first one first. -/
def attemptSamples (d : Byte) : Nat → State → List Byte
  | 0, _ => []
  | n + 1, s =>
    (afterAttempt d s).verifiedValue ::
      if attemptsOver d (afterAttempt d s) then [] else attemptSamples d n (afterAttempt d s)

/-- The attempts leave a trace and a count of their samples. -/
theorem afterAttempts_records (d : Byte) (n : Nat) (s : State) :
    (afterAttempts d n s).trace = s.trace ++ (attemptSamples d n s).flatMap (attemptTrace d) ∧
      (afterAttempts d n s).attempt = s.attempt + (attemptSamples d n s).length := by
  induction n generalizing s with
  | zero => simp [afterAttempts, attemptSamples]
  | succ n ih =>
    rw [afterAttempts, attemptSamples]
    split
    · simp [afterAttempt_trace]
    · simp [ih, afterAttempt_trace, Nat.add_assoc, Nat.add_comm 1]

theorem attemptSamples_succ_ne_nil (d : Byte) (n : Nat) (s : State) : attemptSamples d (n + 1) s ≠ [] := nofun

theorem returned_cons (v : Byte) {vs : List Byte} (h : vs ≠ []) : returned (v :: vs) = returned vs := by
  obtain ⟨w, ws, rfl⟩ := List.exists_cons_of_ne_nil h
  simp [returned]

/-- The register holds the last sample. -/
theorem afterAttempts_verifiedValue (d : Byte) (n : Nat) (s : State) :
    (afterAttempts d (n + 1) s).verifiedValue = returned (attemptSamples d (n + 1) s) := by
  induction n generalizing s with
  | zero => simp [afterAttempts, attemptSamples, returned]
  | succ n ih =>
    rw [afterAttempts, attemptSamples]
    split
    · rfl
    · rw [ih, returned_cons _ (attemptSamples_succ_ne_nil d n _)]

theorem afterAttempts_bus (d : Byte) (n : Nat) (s : State) :
    (afterAttempts d (n + 1) s).bus = (afterAttempt d s).bus := by
  induction n generalizing s with
  | zero => simp [afterAttempts]
  | succ n ih =>
    rw [afterAttempts]
    split
    · rfl
    · rw [ih, afterAttempt_bus, afterAttempt_bus]

theorem afterAttempts_tx (d : Byte) (n : Nat) (s : State) : (afterAttempts d n s).tx = s.tx := by
  induction n generalizing s with
  | zero => rfl
  | succ n ih =>
    rw [afterAttempts]
    split
    · exact afterAttempt_tx d s
    · rw [ih, afterAttempt_tx]

/-! ### Which samples end a Write-one-byte -/

/-- `attemptsFit` with `m` attempts for the 20 (41_byte_ops R153). -/
def attemptsFitWithin (m : Nat) (d : Byte) (vs : List Byte) : Prop :=
  vs ≠ [] ∧ vs.length ≤ m ∧ (∀ v ∈ vs.dropLast, v ≠ d) ∧ (vs.getLast? = some d ∨ vs.length = m)

theorem attemptsFitWithin_last {m : Nat} {d v : Byte} (h : v = d ∨ m = 0) : attemptsFitWithin (m + 1) d [v] := by
  refine ⟨nofun, by simp, nofun, h.imp (congrArg some) fun hm => by simp [hm]⟩

theorem attemptsFitWithin_cons {m : Nat} {d v : Byte} {vs : List Byte} (hv : v ≠ d) (h : attemptsFitWithin m d vs) :
    attemptsFitWithin (m + 1) d (v :: vs) := by
  obtain ⟨hne, hlen, hdrop, hlast⟩ := h
  refine ⟨nofun, Nat.succ_le_succ hlen, ?_, ?_⟩
  · rw [List.dropLast_cons_of_ne_nil hne]
    exact List.forall_mem_cons.mpr ⟨hv, hdrop⟩
  · rw [List.getLast?_cons_of_ne_nil hne]
    exact hlast.imp_right (congrArg (· + 1))

theorem attemptsOver_iff (d : Byte) (s : State) :
    attemptsOver d s = true ↔ s.verifiedValue = d ∨ s.attempt = Config.maxAttempts := by
  simp [attemptsOver]

/-- With `n + 1` attempts left of the 20, the test after each of them cuts the samples where they fit. -/
theorem attemptSamples_fit (d : Byte) {n : Nat} {s : State} (hn : s.attempt + (n + 1) = Config.maxAttempts) :
    attemptsFitWithin (n + 1) d (attemptSamples d (n + 1) s) := by
  induction n generalizing s with
  | zero => simpa [attemptSamples] using attemptsFitWithin_last (m := 0) (.inr rfl)
  | succ n ih =>
    have hlater : (afterAttempt d s).attempt + (n + 1) = Config.maxAttempts := by
      rw [(afterAttempt_writes d s).1]
      omega
    rw [attemptSamples]
    split
    next hover =>
      have hmatch := ((attemptsOver_iff d _).mp hover).resolve_right (by omega)
      exact attemptsFitWithin_last (.inl hmatch)
    next hover =>
      have hmiss : (afterAttempt d s).verifiedValue ≠ d := fun h => hover ((attemptsOver_iff d _).mpr (.inl h))
      exact attemptsFitWithin_cons hmiss (ih hlater)

/-! ### A whole Write-one-byte -/

/-- The state at the first attempt of a Write-one-byte (41_byte_ops R151). -/
def writeByteEntry (a : Word) (s : State) : State := { wait Config.tAddrSettle (setAddress a s) with attempt := 0 }

/-- The samples of a Write-one-byte (41_byte_ops R152, R153). -/
def writeByteSamples (a : Word) (d : Byte) (s : State) : List Byte :=
  attemptSamples d Config.maxAttempts (writeByteEntry a s)

theorem writeByteSamples_fit (a : Word) (d : Byte) (s : State) : attemptsFit d (writeByteSamples a d s) :=
  attemptSamples_fit (n := 19) d rfl

theorem afterWriteOneByte_trace (a : Word) (d : Byte) (s : State) :
    (afterWriteOneByte a d s).trace = s.trace ++ writeByteTrace a d (writeByteSamples a d s) := by
  obtain ⟨htrace, _⟩ := afterAttempts_records d Config.maxAttempts (writeByteEntry a s)
  refine htrace.trans ?_
  simp [writeByteEntry, writeByteSamples, writeByteTrace, addrEvent, Config.tAddrSettle]

theorem afterWriteOneByte_attempt (a : Word) (d : Byte) (s : State) :
    (afterWriteOneByte a d s).attempt = (writeByteSamples a d s).length := by
  obtain ⟨_, hcount⟩ := afterAttempts_records d Config.maxAttempts (writeByteEntry a s)
  exact hcount.trans (Nat.zero_add _)

theorem afterWriteOneByte_verifiedValue (a : Word) (d : Byte) (s : State) :
    (afterWriteOneByte a d s).verifiedValue = returned (writeByteSamples a d s) :=
  afterAttempts_verifiedValue d 19 (writeByteEntry a s)

theorem writeByteEntry_chipAddr (a : Word) (s : State) : Bus.chipAddr (writeByteEntry a s).bus = chipAddrOf a :=
  chipAddr_setAddress a s

/-- A Write-one-byte leaves the write lines as it found them, with its address and its data on them. -/
theorem afterWriteOneByte_bus (a : Word) (d : Byte) {s : State} (hl : Bus.lines s.bus = writeLines) :
    (afterWriteOneByte a d s).bus =
      { s.bus with addrLo := addrLoField a, addrHi6 := addrHiField a, dout := d } :=
  (afterAttempts_bus d 19 (writeByteEntry a s)).trans (afterAttempt_bus_of_writeLines d hl)

theorem afterWriteOneByte_leaves (a : Word) (d : Byte) (s : State) :
    sameSession s (afterWriteOneByte a d s) ∧ (afterWriteOneByte a d s).rx = s.rx ∧
      (afterWriteOneByte a d s).tx = s.tx := by
  obtain ⟨hbase, hlen, hprog, _, _, hrx, _⟩ := afterAttempts_leaves d Config.maxAttempts (writeByteEntry a s)
  exact ⟨⟨hbase, hlen, hprog⟩, hrx, afterAttempts_tx d Config.maxAttempts (writeByteEntry a s)⟩

/-- From the write lines, a Write-one-byte runs to its end. -/
theorem writeOneByte_ticks {a : Word} {d : Byte} {s : State} {rest : List Act} (hr : s.resetIn = false)
    (hl : Bus.lines s.bus = writeLines) (ht : s.todo = writeOneByteCode a d ++ rest) :
    ∃ n, ticks n s = .next { afterWriteOneByte a d s with todo := rest } := by
  obtain ⟨hdir, _⟩ := lines_eq_iff.mp hl
  exact ticks_of_does (writeOneByte_does a d hdir) hr ht

/-- Settles O22: the attempts leave their samples in the trace, and the test after each ends them where
they fit. -/
theorem writeOneByteAttempts : Obligations.WriteOneByteAttempts := by
  intro s a d rest hr hl ht
  obtain ⟨n, hn⟩ := writeOneByte_ticks hr hl ht
  have hbus := afterWriteOneByte_bus a d hl
  obtain ⟨hsession, hrx, htx⟩ := afterWriteOneByte_leaves a d s
  refine ⟨n, _, writeByteSamples a d s, hn, rfl, writeByteSamples_fit a d s, afterWriteOneByte_trace a d s,
    afterWriteOneByte_verifiedValue a d s, afterWriteOneByte_attempt a d s, (congrArg Bus.lines hbus).trans hl,
    congrArg Bus.dout hbus, congrArg Bus.addrLo hbus, congrArg Bus.addrHi6 hbus, hsession, hrx, htx⟩

/-! ### The time of a Write-one-byte -/

theorem delaySum_flatMap_attemptTrace (d : Byte) (vs : List Byte) :
    delaySum (vs.flatMap (attemptTrace d)) = 106 * vs.length := by
  induction vs with
  | nil => rfl
  | cons v vs ih =>
    have hone : delaySum (attemptTrace d v) = 106 := rfl
    rw [List.flatMap_cons, delaySum_append, ih, hone, List.length_cons]
    omega

/-- 10 microseconds for the address and 106 for each attempt (41_byte_ops R154). -/
theorem delaySum_writeByteTrace (a : Word) (d : Byte) (vs : List Byte) :
    delaySum (writeByteTrace a d vs) = 10 + 106 * vs.length := by
  rw [writeByteTrace, delaySum_append, delaySum_flatMap_attemptTrace]
  rfl

/-! ### An `IdealChip` -/

/-- An enabled chip with its outputs on drives the bus (20_memory R63). -/
theorem busValue_of_chip_drives {s : State} (hce : s.bus.ce = true) (hoe : s.bus.oe = true) :
    s.busValue = s.chipAnswer := by
  simp [State.busValue, hce, hoe]

/-- The pulse has stored and settled the cell, and the verify reads it back. -/
theorem afterAttempt_verifiedValue_ideal (d : Byte) {s : State} (hl : Bus.lines s.bus = writeLines)
    (hm : s.chip.model = .ideal) : (afterAttempt d s).verifiedValue = d := by
  obtain ⟨_, _, hce, _, _⟩ := lines_eq_iff.mp hl
  have hbus := readyToVerify_bus d s
  have hchip := readyToVerify_chip d hl
  have haddr : Bus.chipAddr (readyToVerify d s).bus = Bus.chipAddr s.bus := by rw [hbus]; rfl
  have hideal : (readyToVerify d s).chip.model = .ideal := by simpa [hchip] using hm
  have hsettled : (Bus.chipAddr (readyToVerify d s).bus).toNat ∉ (readyToVerify d s).chip.unsettled := by
    rw [haddr, hchip, (Chip.pulse_ideal s.chip _ _ d hm).2]
    simp
  rw [afterAttempt_verifiedValue, busValue_of_chip_drives (by rw [hbus]; exact hce) (by rw [hbus]),
    chipAnswer_ideal _ hideal hsettled, haddr, hchip, Chip.cell_pulse _ _ _ hm]

/-- The first attempt verifies, and there is no other. -/
theorem writeOneByte_ideal (a : Word) (d : Byte) {s : State} (hl : Bus.lines s.bus = writeLines)
    (hm : s.chip.model = .ideal) :
    writeByteSamples a d s = [d] ∧ afterWriteOneByte a d s = afterAttempt d (writeByteEntry a s) := by
  have hvalue := afterAttempt_verifiedValue_ideal d (s := writeByteEntry a s) hl hm
  have hover : attemptsOver d (afterAttempt d (writeByteEntry a s)) = true := (attemptsOver_iff d _).mpr (.inl hvalue)
  constructor
  · rw [writeByteSamples, Config.maxAttempts, attemptSamples, if_pos hover, hvalue]
  · exact if_pos hover

/-- Settles O23: the one attempt's pulse stores the byte in the cell at the address that was set. -/
theorem writeOneByteOnIdealChip : Obligations.WriteOneByteOnIdealChip := by
  intro s a d rest hr hl hm ht
  obtain ⟨n, hn⟩ := writeOneByte_ticks hr hl ht
  obtain ⟨hsamples, hafter⟩ := writeOneByte_ideal a d hl hm
  have htrace := afterWriteOneByte_trace a d s
  have hvalue := afterWriteOneByte_verifiedValue a d s
  rw [hsamples] at htrace hvalue
  refine ⟨n, _, hn, rfl, htrace, ?time, hvalue, fun k => ?cells⟩
  case time =>
    have helapsed := elapsed_of_trace htrace
    rwa [delaySum_writeByteTrace] at helapsed
  case cells =>
    obtain ⟨hcells, hopen, _⟩ := afterAttempt_chip d (writeByteEntry a s)
    dsimp only
    rw [hafter, hcells, hopen, readyToVerify_chip d (s := writeByteEntry a s) hl, writeByteEntry_chipAddr]
    exact Chip.pulse_ideal s.chip _ k d hm

/-! ### A `NeverVerifyChip` -/

theorem differFrom_ne (d b : Byte) : differFrom d b ≠ d := by
  unfold differFrom
  split
  next h => subst h; bv_omega
  next h => exact h

/-- The verify after a pulse answers anything but the pulse's data. -/
theorem afterAttempt_verifiedValue_neverVerify (d : Byte) {s : State} (hl : Bus.lines s.bus = writeLines)
    (hm : s.chip.model = .neverVerify) : (afterAttempt d s).verifiedValue ≠ d := by
  obtain ⟨_, hvpp, hce, _, _⟩ := lines_eq_iff.mp hl
  have hbus := readyToVerify_bus d s
  have hchip := readyToVerify_chip d hl
  have hvpp' : (readyToVerify d s).bus.vpp = true := by rw [hbus]; exact hvpp
  rw [afterAttempt_verifiedValue, busValue_of_chip_drives (by rw [hbus]; exact hce) (by rw [hbus])]
  simp [State.chipAnswer, hvpp', hchip, hm, differFrom_ne]

theorem attemptSamples_neverVerify (d : Byte) (n : Nat) {s : State} (hl : Bus.lines s.bus = writeLines)
    (hm : s.chip.model = .neverVerify) : ∀ v ∈ attemptSamples d n s, v ≠ d := by
  induction n generalizing s with
  | zero => nofun
  | succ n ih =>
    have hfirst := afterAttempt_verifiedValue_neverVerify d hl hm
    rw [attemptSamples]
    split
    · simpa using hfirst
    · have hl' : Bus.lines (afterAttempt d s).bus = writeLines := by
        rw [afterAttempt_bus_of_writeLines d hl]
        exact hl
      have hm' : (afterAttempt d s).chip.model = .neverVerify := by
        obtain ⟨_, _, hmodel⟩ := afterAttempt_chip d s
        rw [hmodel, readyToVerify_chip d hl]
        simpa using hm
      exact List.forall_mem_cons.mpr ⟨hfirst, ih hl' hm'⟩

theorem returned_mem {vs : List Byte} (h : vs ≠ []) : returned vs ∈ vs := by
  rw [returned, List.getLast?_eq_getLast_of_ne_nil h]
  exact List.getLast_mem h

/-- Settles O24: no sample is the data, so the attempts end only at the 20th. -/
theorem writeOneByteExhausts : Obligations.WriteOneByteExhausts := by
  intro s a d rest hr hl hm ht
  obtain ⟨n, hn⟩ := writeOneByte_ticks hr hl ht
  have hmiss : ∀ v ∈ writeByteSamples a d s, v ≠ d :=
    attemptSamples_neverVerify d Config.maxAttempts (s := writeByteEntry a s) hl hm
  obtain ⟨hne, _, _, hlast⟩ := writeByteSamples_fit a d s
  have hlen : (writeByteSamples a d s).length = 20 :=
    hlast.resolve_left fun h => hmiss d (List.mem_of_getLast? h) rfl
  have htrace := afterWriteOneByte_trace a d s
  have hvalue := afterWriteOneByte_verifiedValue a d s
  have helapsed := elapsed_of_trace htrace
  rw [delaySum_writeByteTrace, hlen] at helapsed
  exact ⟨n, _, _, hn, rfl, hlen, hmiss, htrace, helapsed, hvalue, hvalue ▸ hmiss _ (returned_mem hne)⟩

/-! ### Read-one-byte -/

theorem afterReadOneByte_trace (s : State) :
    (afterReadOneByte s).trace =
      s.trace ++ readByteTrace (s.baseAddress + s.progress) (afterReadOneByte s).value := by
  simp [afterReadOneByte, sampleInto_writes, readyToSample, readByteTrace, addrEvent, readAddress, Config.tReadAccess,
    Config.tReadRecover]

theorem afterReadOneByte_bus (s : State) :
    (afterReadOneByte s).bus = { s.bus with
      addrLo := addrLoField (readAddress s), addrHi6 := addrHiField (readAddress s), oe := false } := by
  simp [afterReadOneByte]

theorem afterReadOneByte_lines {s : State} (hl : Bus.lines s.bus = readLines) :
    Bus.lines (afterReadOneByte s).bus = readLines := by
  obtain ⟨hdir, hvpp, hce, _, hpgm⟩ := lines_eq_iff.mp hl
  rw [afterReadOneByte_bus]
  exact lines_eq_iff.mpr ⟨hdir, hvpp, hce, rfl, hpgm⟩

theorem afterReadOneByte_chipAddr (s : State) :
    Bus.chipAddr (afterReadOneByte s).bus = chipAddrOf (s.baseAddress + s.progress) := by
  rw [afterReadOneByte_bus]
  exact chipAddr_of_fields rfl rfl

theorem afterReadOneByte_leaves (s : State) :
    sameSession s (afterReadOneByte s) ∧ (afterReadOneByte s).rx = s.rx ∧ (afterReadOneByte s).tx = s.tx := by
  simp [sameSession, afterReadOneByte, readyToSample]

/-- An enabled `IdealChip` answers the settled cell at the address that was set. -/
theorem afterReadOneByte_value_ideal {s : State} (hce : s.bus.ce = true) (hm : s.chip.model = .ideal)
    (hu : (chipAddrOf (readAddress s)).toNat ∉ s.chip.unsettled) :
    (afterReadOneByte s).value = s.chip.cell (chipAddrOf (readAddress s)).toNat := by
  have haddr : Bus.chipAddr (readyToSample s).bus = chipAddrOf (readAddress s) := chipAddr_setAddress _ s
  have hvalue : (afterReadOneByte s).value = (readyToSample s).busValue.1 := by
    simp [afterReadOneByte, sampleInto_writes]
  rw [hvalue, busValue_of_chip_drives (s := readyToSample s) hce rfl,
    chipAnswer_ideal (readyToSample s) hm (by rwa [haddr]), haddr]
  rfl

/-- Settles O25: the one sample is taken at the address set, with the outputs on, and the lines go back. -/
theorem readOneByteSamplesOnce : Obligations.ReadOneByteSamplesOnce := by
  intro s rest hr hl ht
  obtain ⟨hdir, _, hce, _, _⟩ := lines_eq_iff.mp hl
  obtain ⟨n, hn⟩ := ticks_of_does (readOneByte_does hdir) hr ht
  have htrace := afterReadOneByte_trace s
  obtain ⟨hsession, hrx, htx⟩ := afterReadOneByte_leaves s
  exact ⟨n, _, hn, rfl, htrace, elapsed_of_trace htrace, afterReadOneByte_lines hl, afterReadOneByte_chipAddr s,
    hsession, hrx, htx, afterReadOneByte_value_ideal hce⟩

end Sys2Proof.Claims
end

section
/-! SUPPORT. The session commands and the dispatcher: what each of them does, as one equation, and which registers a
command can ever write (spec 42_session_commands R170 to R182). -/

namespace Sys2Proof.Claims

open Sys2Proof.Machine

/-! ### The dispatcher -/

/-- The fetch, with a byte there (R170). -/
theorem fetch_byte {s : State} {op : Byte} {rest : List Byte} (h : s.rx = op :: rest) :
    fetch s = some (decodeByte op, { s with rx := rest, trace := s.trace ++ [.rx op] }) := by
  simp [fetch, linkRecv, h]

theorem decode_eq_command {bytes rest : List Byte} {i : Instr} {op : Byte} (h : decode bytes = .command i op rest) :
    bytes = op :: rest ∧ i = decodeByte op := by
  cases bytes with
  | nil => cases h
  | cons b bs => cases h; exact ⟨rfl, rfl⟩

/-- In `IDLE` a step takes the command byte and runs its command (R170). -/
theorem step_command {s : State} {op : Byte} {rest : List Byte} (hr : s.resetIn = false) (ht : s.todo = [])
    (hrx : s.rx = op :: rest) :
    step s = exec (decodeByte op) { s with rx := rest, trace := s.trace ++ [.rx op] } :=
  step_fetched hr ht (fetch_byte hrx)

/-- The byte's command is well formed and has that byte: a named byte is its own command's, any other an ignored one's
(R171, R180). -/
theorem decodeByte_wf_opByte (op : Byte) : (decodeByte op).wf = true ∧ (decodeByte op).opByte = op := by
  have hnamed : ∀ b ∈ namedBytes, (decodeByte b).wf = true ∧ (decodeByte b).opByte = b := by decide
  by_cases hop : op ∈ namedBytes
  · exact hnamed op hop
  · have hwf : (Instr.ignored op).wf = true := by simpa [Instr.wf] using hop
    have hdecode : decodeByte op = .ignored op := decodeByte_opByte hwf
    rw [hdecode]
    exact ⟨hwf, rfl⟩

/-- Settles O3: a command is well formed only if its byte decodes to it, and the tick that takes the byte decodes it. -/
theorem everyByteIsACommand : Obligations.EveryByteIsACommand := by
  intro op
  obtain ⟨hwf, hbyte⟩ := decodeByte_wf_opByte op
  refine ⟨⟨hwf, hbyte, fun i hi hop => ?unique⟩, fun s rest hr ht hrx => tick_fetched hr ht (fetch_byte hrx)⟩
  case unique => rw [← hop, decodeByte_opByte hi]

/-- Settles O9: the bytes that decode to a command begin with its command byte. -/
theorem stepRunsDecodedCommand : Obligations.StepRunsDecodedCommand := by
  intro s i op rest hr ht hdecode
  obtain ⟨hrx, rfl⟩ := decode_eq_command hdecode
  exact step_command hr ht hrx

/-! ### The commands with an operand -/

/-- With no byte there, a command with an operand waits at its first line (20_memory R71). -/
theorem exec_noByte {i : Instr} {p : RecvPos} {rest : List Act} {s : State} (hcode : commandCode i = .recv p :: rest)
    (hrx : s.rx = []) : exec i s = .next { s with todo := .recv p :: rest } := by
  have hwait : advance { s with todo := .recv p :: rest } = .blocked :=
    (advance_blocked_iff _).mpr (.inr (.inl ⟨⟨p, rest, rfl⟩, hrx⟩))
  rw [exec_eq, hcode]
  exact run_blocked hwait

/-- With both bytes of the operand there and room for the acknowledgment, the command completes (R172, R173). -/
theorem exec_operand {i : Instr} {p q : RecvPos} {s : State} {lo hi : Byte} {rest : List Byte}
    (hcode : commandCode i = [.recv p, .recv q, .send .ack]) (hp : p ≠ .wCont1 ∧ p ≠ .wCont2)
    (hq : q ≠ .wCont1 ∧ q ≠ .wCont2) (hrx : s.rx = lo :: hi :: rest) (hroom : roomFor s 1) :
    exec i s = .next { sent .ack (received q (received p s lo) hi) with todo := [] } :=
  exec_of_does (n := 3) (by rw [hcode]; exact operand_does hp hq hrx hroom) (by decide)

/-- Settles O26: two receives and a send, as far as the bytes of the host go. -/
theorem setAddrCompletes : Obligations.SetAddrCompletes := by
  refine fun s => ⟨fun lo hi rest hrx hroom => ?both, exec_noByte rfl, fun lo hrx => ?low⟩
  case both =>
    rw [exec_operand (p := .sLo) (q := .sHi) rfl ⟨nofun, nofun⟩ ⟨nofun, nofun⟩ hrx hroom]
    simp [sent, received, receive, hrx, assembleWord, sendByte, Config.ack]
  case low =>
    rw [exec_lowByte (p := .sLo) (q := .sHi) rfl ⟨nofun, nofun⟩ hrx]
    simp [received, receive, hrx]

/-- Settles O27: two receives and a send, as far as the bytes of the host go. -/
theorem setLenCompletes : Obligations.SetLenCompletes := by
  refine fun s => ⟨fun lo hi rest hrx hroom => ?both, exec_noByte rfl, fun lo hrx => ?low⟩
  case both =>
    rw [exec_operand (p := .lLo) (q := .lHi) rfl ⟨nofun, nofun⟩ ⟨nofun, nofun⟩ hrx hroom]
    simp [sent, received, receive, hrx, assembleWord, sendByte, Config.ack]
  case low =>
    rw [exec_lowByte (p := .lLo) (q := .lHi) rfl ⟨nofun, nofun⟩ hrx]
    simp [received, receive, hrx]

/-! ### The commands that run whatever the state is -/

/-- A command whose lines neither wait nor branch: its effect is that of its lines, one after the other. -/
theorem exec_straight {i : Instr} (h : (commandCode i).all isStraight = true)
    (hshort : (commandCode i).length ≤ Config.stepBudget) (s : State) :
    exec i s = .next { (commandCode i).foldl effect s with todo := [] } :=
  exec_of_does (straight_does h s) hshort

theorem exec_reinit (s : State) :
    exec .reinit s = .next { reinitAddress { chipDisable s with baseAddress := 0, progress := 0 } with todo := [] } :=
  exec_straight (i := .reinit) rfl (by decide) s

/-- Settles O30: of the four lines of `0`, only the last asks for the open parameter. -/
theorem reinitCompletes : Obligations.ReinitCompletes := by
  intro s
  rw [exec_reinit]
  cases hd : Config.reinitDrivesAddress <;>
    simp [reinitAddress, setAddress, chipDisable, hd, addrLoField, addrHiField]

theorem exec_diag1 (s : State) : exec .diag1 s = .next { applyPattern Config.diag1Pattern s with todo := [] } :=
  exec_straight (i := .diag1) rfl (by decide) s

theorem exec_diag2 (s : State) : exec .diag2 s = .next { applyPattern Config.diag2Pattern s with todo := [] } :=
  exec_straight (i := .diag2) rfl (by decide) s

theorem chipAfterPattern_afterPattern (p : Bus) (c : Chip) : chipAfterPattern p c (c.afterPattern p) :=
  ⟨fun hp => if_pos hp, fun hp => if_neg (ne_true_of_eq_false hp), rfl⟩

/-- Settles O31: each of the two commands is its pattern and nothing else. -/
theorem diagnosticsComplete : Obligations.DiagnosticsComplete := fun s =>
  ⟨_, _, exec_diag1 s, rfl, chipAfterPattern_afterPattern _ _, exec_diag2 s, rfl, chipAfterPattern_afterPattern _ _⟩

theorem exec_xnop (s : State) : exec .xnop s = .next { s with todo := [] } :=
  exec_straight (i := .xnop) rfl (Nat.zero_le _) s

theorem exec_ignored (op : Byte) (s : State) : exec (.ignored op) s = .next { s with todo := [] } :=
  exec_straight (i := .ignored op) rfl (Nat.zero_le _) s

/-- Settles O32: neither command has a line, so a step does no more than take its byte. -/
theorem noOpsChangeNothing : Obligations.NoOpsChangeNothing := by
  refine fun s => ⟨exec_xnop s, fun op => exec_ignored op s, fun op rest hr ht hrx hop => ?_⟩
  rw [step_command hr ht hrx]
  rcases hop with hop | hop
  · rw [hop, exec_xnop, ← ht]
  · rw [hop, exec_ignored, ← ht]

/-! ### READ1 -/

/-- Settles O29: the byte is the sample of the Read-one-byte, taken with the chip selected in read mode, and it is still
in `value` when it is sent. -/
theorem read1Completes : Obligations.Read1Completes := by
  intro s hroom
  have htrace := afterReadOneByte_trace (chipEnable (enterReadMode s))
  have hbus := afterReadOneByte_bus (chipEnable (enterReadMode s))
  obtain ⟨⟨hbase, hlen, hprog⟩, hrx, htx⟩ := afterReadOneByte_leaves (chipEnable (enterReadMode s))
  refine ⟨_, (afterReadOneByte (chipEnable (enterReadMode s))).value, exec_read1 hroom, rfl, rfl, ?tx, ?rx, ?trace,
    ?base, ?len, ?prog, ?bus, afterReadOneByte_value_ideal (s := chipEnable (enterReadMode s)) rfl⟩
  case tx => simp [sentRead1, sent, sendByte, htx]
  case rx => simp [sentRead1, sent, hrx]
  case trace => simp [sentRead1, sent, sendByte, htrace]
  case base => simp [sentRead1, sent, hbase]
  case len => simp [sentRead1, sent, hlen]
  case prog => simp [sentRead1, sent, hprog]
  case bus => simp [sentRead1, sent, hbus, readAddress]

/-! ### Which registers a command writes -/

/-- A field that no line of a command writes is, wherever the command stops, as it was. -/
theorem exec_leaves {α : Type} {field : State → α} {writes : Act → Bool}
    (hperform : ∀ {a s t}, perform a s = .moved t → writes a = false → field t = field s)
    (htodo : ∀ (s : State) todo, field { s with todo := todo } = field s) {i : Instr} {s t : State}
    (hi : ∀ a, commandLine i a = true → writes a = false) (h : exec i s = .next t) : field t = field s :=
  exec_keeps (P := fun u => field u = field s) (fun a _ _ ha hu hp => (hperform hp (hi a ha)).trans hu)
    (fun u todo hu => (htodo u todo).trans hu) h rfl

/-- `s` and `0` write `base_address`, and no other command (R181). -/
theorem writesBaseAddress_of_commandLine {i : Instr} (hs : i ≠ .setAddr) (h0 : i ≠ .reinit) (a : Act)
    (h : commandLine i a = true) : writesBaseAddress a = false := by
  cases a
  case clearBase =>
    cases i
    case reinit => exact absurd rfl h0
    all_goals cases h
  case recv p =>
    cases p
    case sHi =>
      cases i
      case setAddr => exact absurd rfl hs
      all_goals cases h
    all_goals rfl
  all_goals rfl

/-- `l` writes `transfer_length`, and no other command (R181). -/
theorem writesTransferLength_of_commandLine {i : Instr} (hl : i ≠ .setLen) (a : Act) (h : commandLine i a = true) :
    writesTransferLength a = false := by
  cases a
  case recv p =>
    cases p
    case lHi =>
      cases i
      case setLen => exact absurd rfl hl
      all_goals cases h
    all_goals rfl
  all_goals rfl

/-- `l`, the diagnostic commands and those without effect do not write `progress` (R181). -/
theorem writesProgress_of_commandLine {i : Instr}
    (hi : i = .setLen ∨ i = .diag1 ∨ i = .diag2 ∨ i = .xnop ∨ ∃ op, i = .ignored op) (a : Act)
    (h : commandLine i a = true) : writesProgress a = false := by
  have hlen : ∀ b ∈ setLenCode, writesProgress b = false := by decide
  obtain rfl | rfl | rfl | rfl | ⟨op, rfl⟩ := hi
  · exact hlen a (List.contains_iff_mem.mp h)
  · rw [List.mem_singleton.mp (List.contains_iff_mem.mp h : a ∈ diag1Code)]
    rfl
  · rw [List.mem_singleton.mp (List.contains_iff_mem.mp h : a ∈ diag2Code)]
    rfl
  · cases h
  · cases h

/-- Settles O42: the register stays where no line of the command writes it. -/
theorem sessionRegisterFrame : Obligations.SessionRegisterFrame := fun _ _ _ h =>
  ⟨fun hs h0 => exec_leaves perform_baseAddress (fun _ _ => rfl) (writesBaseAddress_of_commandLine hs h0) h,
    fun hl => exec_leaves perform_transferLength (fun _ _ => rfl) (writesTransferLength_of_commandLine hl) h,
    fun hi => exec_leaves perform_progress (fun _ _ => rfl) (writesProgress_of_commandLine hi) h⟩

/-! ### What the session commands leave -/

/-- The lines of `s` and `l` (R172, R173). -/
def operandLine : Act → Bool
  | .recv .sLo | .recv .sHi | .recv .lLo | .recv .lHi | .send .ack => true
  | _ => false

/-- `t` differs from `s` at most in the session registers, `op_lo`, the link, the sequencer position and the trace. -/
def sameButSession (s t : State) : Prop :=
  t = { s with
    baseAddress := t.baseAddress, transferLength := t.transferLength, progress := t.progress, opLo := t.opLo
    todo := t.todo, rx := t.rx, tx := t.tx, txRoom := t.txRoom, trace := t.trace }

theorem sameButSession.trans {s t u : State} (h : sameButSession s t) (h' : sameButSession t u) :
    sameButSession s u := by
  unfold sameButSession at h'
  rw [h] at h'
  exact h'

theorem perform_operandLine {a : Act} {s t : State} (ha : operandLine a = true) (h : perform a s = .moved t) :
    sameButSession s t := by
  cases a
  case recv p =>
    obtain ⟨b, rest, _, rfl⟩ := perform_recv h
    cases p
    case sLo | sHi | lLo | lHi => rfl
    all_goals cases ha
  case send v =>
    obtain ⟨_, rfl⟩ := perform_send h
    rfl
  all_goals cases ha

theorem exec_sameButSession {i : Instr} {s t : State}
    (hi : i = .setAddr ∨ i = .setLen ∨ i = .xnop ∨ ∃ op, i = .ignored op) (h : exec i s = .next t) :
    sameButSession s t := by
  have haddr : ∀ a ∈ setAddrCode, operandLine a = true := by decide
  have hlen : ∀ a ∈ setLenCode, operandLine a = true := by decide
  have hlines : ∀ a, commandLine i a = true → operandLine a = true := by
    intro a ha
    obtain rfl | rfl | rfl | ⟨op, rfl⟩ := hi
    · exact haddr a (List.contains_iff_mem.mp ha)
    · exact hlen a (List.contains_iff_mem.mp ha)
    · cases ha
    · cases ha
  exact exec_keeps (P := sameButSession s) (fun a _ _ ha hu hp => hu.trans (perform_operandLine (hlines a ha) hp))
    (fun _ _ hu => hu.trans rfl) h rfl

/-- Settles O43: the lines of `s` and `l` write neither the bus, the chip nor a register of the transfers, `x` and the
unnamed bytes have no line, and `0` is its four lines. -/
theorem sessionCommandFrame : Obligations.SessionCommandFrame := by
  intro i s t h
  refine ⟨fun hi => ?session, fun hi => ?reinit⟩
  case session =>
    rw [exec_sameButSession hi h]
    exact ⟨rfl, ⟨rfl, rfl, rfl, rfl⟩, ⟨rfl, rfl, rfl, rfl, rfl, rfl, rfl, rfl⟩, rfl, rfl⟩
  case reinit =>
    rw [hi, exec_reinit, Host.Outcome.next.injEq] at h
    subst h
    cases hd : Config.reinitDrivesAddress <;> simp [sameEnvironment, sameBlockRegisters, hd]

/-! ### The bus in `IDLE` -/

theorem todo_of_idle {s : State} (h : s.seq = .idle) : s.todo = [] := by
  unfold State.seq at h
  split at h
  · assumption
  · rename_i p _ _
    cases p <;> cases h
  all_goals cases h

/-- Settles O54: with no line still to run, the check asks that the present lines be the idle ones. -/
theorem idleBusIsReadMode : Obligations.IdleBusIsReadMode := by
  intro s hs hidle
  obtain ⟨_, hlines⟩ := (busDisciplined_iff s).mp hs
  rw [todo_of_idle hidle] at hlines
  exact lines_eq_iff.mp (Option.some.inj hlines)

end Sys2Proof.Claims
end

section
/-! SUPPORT. Which registers of the transfers a read and a Bulk Write leave (spec 43_transfer_engine R208, R212;
42_session_commands R174). -/

namespace Sys2Proof.Claims

open Sys2Proof.Machine

/-! ### Reads -/

/-- No line of a read writes a register of a Bulk Write, its buffer or `op_lo`. -/
theorem readLine_writes {a : Act} (h : readLine a = true) :
    writesBlockSize a = false ∧ writesCrcIn a = false ∧ writesCrcOut a = false ∧ writesI a = false ∧
      writesAttempt a = false ∧ writesVerifiedValue a = false ∧ writesCont a = false ∧ writesBlock a = false ∧
      writesOpLo a = false := by
  cases a
  case sampleData r =>
    cases r
    case verified => cases h
    case value => decide
  case recv | whileWrite | beginReceive | beginWrite | foldVerified | clearAttempt | untilVerified => cases h
  all_goals exact ⟨rfl, rfl, rfl, rfl, rfl, rfl, rfl, rfl, rfl⟩

theorem sameBlockRegisters.trans {s t u : State} (h : sameBlockRegisters s t) (h' : sameBlockRegisters t u) :
    sameBlockRegisters s u := by
  obtain ⟨hsize, hin, hout, hi, hattempt, hverified, hcont, hblock⟩ := h
  unfold sameBlockRegisters at h'
  rwa [hsize, hin, hout, hi, hattempt, hverified, hcont, hblock] at h'

theorem perform_readLine_leaves {a : Act} {s t : State} (ha : readLine a = true) (h : perform a s = .moved t) :
    sameBlockRegisters s t ∧ t.opLo = s.opLo := by
  obtain ⟨hsize, hin, hout, hi, hattempt, hverified, hcont, hblock, hop⟩ := readLine_writes ha
  exact ⟨⟨perform_blockSize h hsize, perform_crcIn h hin, perform_crcOut h hout, perform_i h hi,
    perform_attempt h hattempt, perform_verifiedValue h hverified, perform_cont h hcont, perform_block h hblock⟩,
    perform_opLo h hop⟩

/-- A read leaves the registers and the buffer of a Bulk Write, and `op_lo`. -/
theorem exec_read_leaves {i : Instr} {s t : State} (hi : i = .read ∨ i = .read1) (h : exec i s = .next t) :
    sameBlockRegisters s t ∧ t.opLo = s.opLo := by
  refine exec_keeps (P := fun u => sameBlockRegisters s u ∧ u.opLo = s.opLo) (fun a u v ha hu hp => ?_)
    (fun _ _ hu => hu) h ⟨⟨rfl, rfl, rfl, rfl, rfl, rfl, rfl, rfl⟩, rfl⟩
  obtain ⟨hblock, hop⟩ := perform_readLine_leaves (readLine_of_commandLine hi ha) hp
  exact ⟨hu.1.trans hblock, hop.trans hu.2⟩

/-- The two lines of a Bulk Read that write its checksum are none of a `+`. -/
theorem writesCrc_of_read1Line {a : Act} (h : commandLine .read1 a = true) : writesCrc a = false := by
  cases a
  case clearCrc | foldCrc => cases h
  all_goals rfl

/-! ### Bulk Writes -/

/-- No line of a Bulk Write writes `crc`, `value` or `op_lo`. -/
theorem writeLine_writes {a : Act} (h : commandLine .write a = true) :
    writesCrc a = false ∧ writesValue a = false ∧ writesOpLo a = false := by
  cases a
  case recv p =>
    cases p
    case sLo | lLo => cases h
    all_goals exact ⟨rfl, rfl, rfl⟩
  case sampleData r =>
    cases r
    case value => cases h
    case verified => exact ⟨rfl, rfl, rfl⟩
  case clearCrc | foldCrc => cases h
  all_goals exact ⟨rfl, rfl, rfl⟩

/-- Settles O44: a register stays where no line of the command writes it. -/
theorem transferRegisterFrame : Obligations.TransferRegisterFrame := by
  refine fun i s t h => ⟨fun hi => exec_read_leaves hi h, ?read1, ?write⟩
  case read1 =>
    rintro rfl
    exact exec_leaves perform_crc (fun _ _ => rfl) (fun _ => writesCrc_of_read1Line) h
  case write =>
    rintro rfl
    exact ⟨exec_leaves perform_crc (fun _ _ => rfl) (fun a ha => (writeLine_writes ha).1) h,
      exec_leaves perform_value (fun _ _ => rfl) (fun a ha => (writeLine_writes ha).2.1) h,
      exec_leaves perform_opLo (fun _ _ => rfl) (fun a ha => (writeLine_writes ha).2.2) h⟩

end Sys2Proof.Claims
end

section
/-! SUPPORT. A Bulk Read in terms of the bytes it samples: its trace and its checksum, the lines it leaves, its time; and
what it streams from an `IdealChip` (spec 43_transfer_engine R211 to R214; 20_memory R65). -/

namespace Sys2Proof.Claims

open Sys2Proof.Machine

/-! ### What a trace says of the link -/

/-- The bytes that a command has sent are those of its trace. -/
theorem exec_tx_of_trace {i : Instr} {s t : State} {es : List Event} (h : exec i s = .next t)
    (htrace : t.trace = s.trace ++ es) : t.tx = s.tx ++ sentBytes es := by
  obtain ⟨fs, hfs, htx, _, _⟩ := traceAccountsForCommand i s t h
  rwa [List.append_cancel_left (htrace.symm.trans hfs)]

theorem sentBytes_readLoopTrace (a : Word) (vs : List Byte) : sentBytes (readLoopTrace a vs) = vs := by
  induction vs generalizing a with
  | nil => rfl
  | cons v vs ih =>
    rw [readLoopTrace, sentBytes_append]
    exact congrArg (v :: ·) (ih (a + 1))

theorem sentBytes_bulkReadTrace (a : Word) (vs : List Byte) : sentBytes (bulkReadTrace a vs) = vs ++ [xorAll vs] := by
  rw [bulkReadTrace, sentBytes_append, sentBytes_append, sentBytes_readLoopTrace]
  rfl

/-! ### The time of a Bulk Read -/

theorem delaySum_readLoopTrace (a : Word) (vs : List Byte) : delaySum (readLoopTrace a vs) = 4 * vs.length := by
  induction vs generalizing a with
  | nil => rfl
  | cons v vs ih =>
    have hone : delaySum (readByteTrace a v) = 4 := rfl
    have htail : delaySum (.tx v :: readLoopTrace (a + 1) vs) = 4 * vs.length := (Nat.zero_add _).trans (ih (a + 1))
    rw [readLoopTrace, delaySum_append, hone, htail, List.length_cons]
    omega

/-- Only the bytes take time, 4 microseconds each (43_transfer_engine R214). -/
theorem delaySum_bulkReadTrace (a : Word) (vs : List Byte) : delaySum (bulkReadTrace a vs) = 4 * vs.length := by
  rw [bulkReadTrace, delaySum_append, delaySum_append, delaySum_readLoopTrace]
  exact Nat.zero_add _

/-! ### The samples of the loop -/

/-- The address of the `n`-th byte from the next address on (10_state R41). -/
theorem add_one_add_ofNat (a : Word) (n : Nat) : a + 1 + BitVec.ofNat 16 n = a + BitVec.ofNat 16 (n + 1) := by
  rw [BitVec.ofNat_add, BitVec.add_assoc, BitVec.add_comm 1]
  rfl

/-- The bytes that `n` turns of the loop of a Bulk Read sample, the first one first. -/
def readSamples : Nat → State → List Byte
  | 0, _ => []
  | n + 1, s => (afterReadOneByte s).value :: readSamples n (afterReadTurn s)

theorem length_readSamples (n : Nat) (s : State) : (readSamples n s).length = n := by
  induction n generalizing s with
  | zero => rfl
  | succ n ih => exact congrArg (· + 1) (ih (afterReadTurn s))

/-- A turn reads the byte at the present address, sends it, and goes on to the next address. -/
theorem afterReadTurn_records (s : State) :
    (afterReadTurn s).trace =
        s.trace ++ (readByteTrace (readAddress s) (afterReadOneByte s).value ++ [.tx (afterReadOneByte s).value]) ∧
      (afterReadTurn s).crc = s.crc ^^^ (afterReadOneByte s).value ∧
      readAddress (afterReadTurn s) = readAddress s + 1 := by
  obtain ⟨⟨hbase, _, hprog⟩, _⟩ := afterReadOneByte_leaves s
  have hcrc : (afterReadOneByte s).crc = s.crc := by simp [afterReadOneByte]
  refine ⟨?_, ?_, ?_⟩
  · simp [afterReadTurn, sendReadByte, afterReadOneByte_trace, readAddress]
  · simp [afterReadTurn, sendReadByte, hcrc]
  · simp [afterReadTurn, sendReadByte, readAddress, hbase, hprog, BitVec.add_assoc]

theorem iterate_afterReadTurn_records (n : Nat) (s : State) :
    (afterReadTurn^[n] s).trace = s.trace ++ readLoopTrace (readAddress s) (readSamples n s) ∧
      (afterReadTurn^[n] s).crc = (readSamples n s).foldl (· ^^^ ·) s.crc := by
  induction n generalizing s with
  | zero => simp [readSamples, readLoopTrace]
  | succ n ih =>
    obtain ⟨htrace, hcrc⟩ := ih (afterReadTurn s)
    obtain ⟨htrace', hcrc', haddr⟩ := afterReadTurn_records s
    rw [Function.iterate_succ_apply, htrace, hcrc, htrace', hcrc', haddr]
    simp [readSamples, readLoopTrace]

/-! ### The lines of the loop -/

theorem afterReadTurn_bus (s : State) :
    (afterReadTurn s).bus = { s.bus with
      addrLo := addrLoField (readAddress s), addrHi6 := addrHiField (readAddress s), oe := false } :=
  afterReadOneByte_bus s

/-- The loop leaves the lines as it found them, but for OE and the address of its last byte. -/
theorem iterate_afterReadTurn_bus (n : Nat) (s : State) :
    (afterReadTurn^[n + 1] s).bus = { s.bus with
      addrLo := addrLoField (readAddress s + BitVec.ofNat 16 n)
      addrHi6 := addrHiField (readAddress s + BitVec.ofNat 16 n), oe := false } := by
  induction n generalizing s with
  | zero => simpa using afterReadTurn_bus s
  | succ n ih =>
    obtain ⟨_, _, haddr⟩ := afterReadTurn_records s
    rw [Function.iterate_succ_apply, ih, haddr, afterReadTurn_bus, add_one_add_ofNat]

/-! ### The whole command -/

theorem idle_of_todo {s : State} (h : s.todo = []) : s.seq = .idle := by
  simp [State.seq, h]

/-- The bytes that a Bulk Read samples (43_transfer_engine R212). -/
def bulkReadSamples (s : State) : List Byte := readSamples s.transferLength.toNat (readLoopEntry s)

theorem readAddress_readLoopEntry (s : State) : readAddress (readLoopEntry s) = s.baseAddress :=
  BitVec.add_zero s.baseAddress

theorem afterRead_crc (s : State) : (afterRead s).crc = xorAll (bulkReadSamples s) :=
  (iterate_afterReadTurn_records s.transferLength.toNat (readLoopEntry s)).2

theorem afterRead_trace (s : State) :
    (afterRead s).trace = s.trace ++ bulkReadTrace s.baseAddress (bulkReadSamples s) := by
  obtain ⟨htrace, _⟩ := iterate_afterReadTurn_records s.transferLength.toNat (readLoopEntry s)
  rw [readAddress_readLoopEntry] at htrace
  have hexit : (afterRead s).trace = (readLoopExit s).trace ++ [.ce false, .tx (afterRead s).crc] := by
    simp [afterRead]
  rw [hexit, afterRead_crc, readLoopExit, htrace]
  simp [readLoopEntry, bulkReadTrace, bulkReadSamples]

/-- A Bulk Read of no bytes leaves the lines as read mode does, one of some bytes those of the last one. -/
theorem afterRead_bus (s : State) :
    (afterRead s).bus = { s.bus with vpp := false, dout := Config.dataNeutral, dir := .input, ce := false } ∧
        s.transferLength = 0 ∨
      (afterRead s).bus = { s.bus with
        addrLo := addrLoField (s.baseAddress + (s.transferLength - 1))
        addrHi6 := addrHiField (s.baseAddress + (s.transferLength - 1))
        vpp := false, dout := Config.dataNeutral, dir := .input, ce := false, oe := false } := by
  have hexit : (afterRead s).bus = { (readLoopExit s).bus with ce := false } := rfl
  rw [hexit, readLoopExit]
  cases hn : s.transferLength.toNat with
  | zero => exact .inl ⟨rfl, BitVec.eq_of_toNat_eq hn⟩
  | succ n =>
    have hlast : BitVec.ofNat 16 n = s.transferLength - 1 := by
      apply BitVec.eq_of_toNat_eq
      have hone : (1 : Len).toNat = 1 := rfl
      have := s.transferLength.isLt
      rw [BitVec.toNat_sub, hone, BitVec.toNat_ofNat]
      omega
    rw [iterate_afterReadTurn_bus, readAddress_readLoopEntry, hlast]
    exact .inr rfl

/-- Settles O33: a turn of the loop for each byte, by induction on their number. -/
theorem bulkReadRuns : Obligations.BulkReadRuns := by
  intro s hroom
  have h := exec_read hroom
  have htrace := afterRead_trace s
  have hlength : (bulkReadSamples s).length = s.transferLength.toNat := length_readSamples _ _
  obtain ⟨hbase, hlen, _⟩ := sessionRegisterFrame .read s _ h
  obtain ⟨⟨_, _, _, _, _, _, _, hblock⟩, _⟩ := exec_read_leaves (.inl rfl) h
  obtain ⟨_, _, hprog⟩ := iterate_afterReadTurn_leaves s.transferLength.toNat (readLoopEntry s)
  refine ⟨_, bulkReadSamples s, h, idle_of_todo rfl, hlength, htrace, ?tx, exec_rx h nofun nofun nofun, afterRead_crc s, ?progress,
    hbase nofun nofun, hlen nofun, hblock, ?time, ?lines⟩
  case tx => rw [exec_tx_of_trace h htrace, sentBytes_bulkReadTrace, List.append_assoc]
  case progress => exact hprog.trans (by simp [readLoopEntry])
  case time => rw [elapsed_of_trace htrace, delaySum_bulkReadTrace, hlength]
  case lines =>
    rcases afterRead_bus s with ⟨hbus, hzero⟩ | hbus <;> rw [hbus]
    · exact ⟨rfl, rfl, rfl, id, rfl, fun hne => absurd hzero hne⟩
    · exact ⟨rfl, rfl, rfl, fun _ => rfl, rfl, fun _ => ⟨rfl, rfl, rfl⟩⟩

/-! ### An `IdealChip` -/

/-- The chip's answers depend on its cells alone. -/
theorem idealBytes_congr {c c' : Chip} (h : c.cells = c'.cells) (a : Word) (n : Nat) :
    idealBytes c a n = idealBytes c' a n := by
  induction n generalizing a with
  | zero => rfl
  | succ n ih => simp only [idealBytes, Chip.cell, h, ih]

theorem afterReadTurn_chip (s : State) :
    (afterReadTurn s).chip.cells = s.chip.cells ∧ (afterReadTurn s).chip.unsettled = s.chip.unsettled := by
  simp [afterReadTurn, sendReadByte, afterReadOneByte]

/-- An enabled `IdealChip` answers its settled cells, one after the other. -/
theorem readSamples_ideal {n : Nat} {s : State} (hce : s.bus.ce = true) (hm : s.chip.model = .ideal)
    (hu : ∀ k < n, (chipAddrOf (readAddress s + BitVec.ofNat 16 k)).toNat ∉ s.chip.unsettled) :
    readSamples n s = idealBytes s.chip (readAddress s) n := by
  induction n generalizing s with
  | zero => rfl
  | succ n ih =>
    obtain ⟨_, _, haddr⟩ := afterReadTurn_records s
    obtain ⟨hcells, hopen⟩ := afterReadTurn_chip s
    have hfirst := afterReadOneByte_value_ideal hce hm (by simpa using hu 0 n.succ_pos)
    have hmore := ih (s := afterReadTurn s) (by simpa using hce) (by simpa using hm) fun k hk => by
      rw [haddr, hopen, add_one_add_ofNat]
      exact hu (k + 1) (Nat.succ_lt_succ hk)
    rw [readSamples, idealBytes, hfirst, hmore, haddr, idealBytes_congr hcells]

/-- Settles O34: each sample is the cell at its address, and no read stores. -/
theorem bulkReadOnIdealChip : Obligations.BulkReadOnIdealChip := by
  intro s hroom hm hu
  have h := exec_read hroom
  have htrace := afterRead_trace s
  have hsamples : bulkReadSamples s = idealBytes s.chip s.baseAddress s.transferLength.toNat := by
    have haddr := readAddress_readLoopEntry s
    have hcells : (readLoopEntry s).chip.cells = s.chip.cells := rfl
    rw [bulkReadSamples, readSamples_ideal (s := readLoopEntry s) rfl hm (by rwa [haddr]), haddr, idealBytes_congr hcells]
  rw [hsamples] at htrace
  refine ⟨_, h, onlyWriteStores .read s _ h nofun, htrace, ?_⟩
  rw [exec_tx_of_trace h htrace, sentBytes_bulkReadTrace, List.append_assoc]

end Sys2Proof.Claims
end

section
/-! SUPPORT. A Bulk Write in terms of the samples it takes: what the two phases of a block stage, send and write, what a
block and all the blocks leave of the trace, of `progress` and of the lines (spec 43_transfer_engine R200 to R208). -/

namespace Sys2Proof.Claims

open Sys2Proof.Machine

/-! ### The receive phase -/

/-- The `n` bytes of the Transfer Block from index `i` on (10_state R28). -/
def stagedFrom (block : Vector Byte Config.blockMax) : Len → Nat → List Byte
  | _, 0 => []
  | i, n + 1 => block.get (blockCell i) :: stagedFrom block (i + 1) n

theorem blockCell_val {i : Len} (h : i.toNat < 512) : (blockCell i).val = i.toNat := Nat.mod_eq_of_lt h

/-- The receive phase stages the data from the present index on, and leaves the cells below it. -/
theorem foldl_received_block (data : List Byte) {s : State} (h : s.i.toNat + data.length ≤ 512) :
    stagedFrom (data.foldl (received .wData) s).block s.i data.length = data ∧
      ∀ j : Fin Config.blockMax, j.val < s.i.toNat →
        (data.foldl (received .wData) s).block.get j = s.block.get j := by
  induction data generalizing s with
  | nil => exact ⟨rfl, fun _ _ => rfl⟩
  | cons d ds ih =>
    rw [List.length_cons] at h
    have hcell := blockCell_val (i := s.i) (by omega)
    have hnext : (s.i + 1).toNat = s.i.toNat + 1 := by
      have hone : (1 : Len).toNat = 1 := rfl
      rw [BitVec.toNat_add, hone]
      omega
    have hset : (received .wData s d).block = s.block.set (blockCell s.i).val d (blockCell s.i).isLt := rfl
    obtain ⟨hstaged, hbelow⟩ := ih (s := received .wData s d) (by change (s.i + 1).toNat + _ ≤ _; omega)
    have hbelow' : ∀ j : Fin Config.blockMax, j.val < s.i.toNat + 1 →
        (ds.foldl (received .wData) (received .wData s d)).block.get j =
          if j = blockCell s.i then d else s.block.get j := by
      intro j hj
      rw [hbelow j (by change _ < (s.i + 1).toNat; omega), hset]
      simp [Vector.get_eq_getElem, Vector.getElem_set, Fin.ext_iff, eq_comm]
    constructor
    · have hfirst := hbelow' (blockCell s.i) (by omega)
      rw [if_pos rfl] at hfirst
      exact congrArg₂ _ hfirst hstaged
    · intro j hj
      rw [List.foldl_cons, hbelow' j (by omega), if_neg fun e => by rw [e] at hj; omega]

theorem foldl_received_records (data : List Byte) (s : State) :
    (data.foldl (received .wData) s).trace = s.trace ++ data.map Event.rx ∧
      (data.foldl (received .wData) s).crcIn = data.foldl (· ^^^ ·) s.crcIn ∧
      (data.foldl (received .wData) s).baseAddress = s.baseAddress ∧
      (data.foldl (received .wData) s).chip = s.chip := by
  induction data generalizing s with
  | nil => simp
  | cons d ds ih =>
    obtain ⟨htrace, hcrc, hbase, hchip⟩ := ih (received .wData s d)
    rw [List.foldl_cons, htrace, hcrc, hbase, hchip]
    exact ⟨List.append_assoc _ _ _, rfl, rfl, rfl⟩

/-- A continuation byte leaves all but itself and what is still to run. -/
theorem received_cont_records {p : RecvPos} (hp : p = .wCont1 ∨ p = .wCont2) (s : State) (b : Byte) :
    (received p s b).trace = s.trace ++ [Event.rx b] ∧ (received p s b).baseAddress = s.baseAddress ∧
      (received p s b).chip = s.chip ∧ (received p s b).block = s.block := by
  rcases hp with rfl | rfl <;> simp only [received, receive] <;> split <;> exact ⟨rfl, rfl, rfl, rfl⟩

/-- The state at the first byte of the receive phase of a block (43_transfer_engine R202). -/
def receivePhaseEntry (s : State) : State := { s with blockSize := nextBlockSize s, crcIn := 0, i := 0 }

/-- What a block leaves up to the byte of its first continuation point (43_transfer_engine R202, R203). -/
theorem afterFirstCont_records (s : State) (b : WriteBlock) :
    (afterFirstCont s b).trace =
        s.trace ++ (b.data.map Event.rx ++ ([.tx 0x01, .tx (xorAll b.data), .rx b.cont1] : List Event)) ∧
      (afterFirstCont s b).baseAddress = s.baseAddress ∧ (afterFirstCont s b).chip = s.chip ∧
      (b.data.length ≤ 512 → stagedFrom (afterFirstCont s b).block 0 b.data.length = b.data) := by
  obtain ⟨htrace, hbase, hchip, hblock⟩ := received_cont_records (.inl rfl) (afterReceivePhase b.data s) b.cont1
  obtain ⟨hdata, hcrc, hbase', hchip'⟩ := foldl_received_records b.data (receivePhaseEntry s)
  have hsends : (afterReceivePhase b.data s).trace = (b.data.foldl (received .wData) (receivePhaseEntry s)).trace ++
      [.tx 0x01, .tx (b.data.foldl (received .wData) (receivePhaseEntry s)).crcIn] := List.append_assoc _ _ _
  refine ⟨?_, hbase.trans hbase', hchip.trans hchip', fun hle => ?_⟩
  · rw [afterFirstCont, htrace, hsends, hdata, hcrc]
    simp [receivePhaseEntry, xorAll]
  · obtain ⟨hstaged, _⟩ := foldl_received_block b.data (s := receivePhaseEntry s) ((Nat.zero_add _).le.trans hle)
    rw [afterFirstCont, hblock]
    exact hstaged

/-! ### The write phase -/

/-- The samples of the byte that a turn of the write phase writes (43_transfer_engine R204). -/
def turnSamples (s : State) : List Byte := writeByteSamples (writeAddress s) (stagedByte s) s

/-- The samples of `n` turns of the write phase, those of the first turn first. -/
def phaseSamples : Nat → State → List (List Byte)
  | 0, _ => []
  | n + 1, s => turnSamples s :: phaseSamples n (afterWriteTurn s)

theorem afterAttempts_leaves_block (d : Byte) (n : Nat) (s : State) :
    (afterAttempts d n s).block = s.block ∧ (afterAttempts d n s).crcOut = s.crcOut := by
  induction n generalizing s with
  | zero => exact ⟨rfl, rfl⟩
  | succ n ih =>
    have hone : (afterAttempt d s).block = s.block ∧ (afterAttempt d s).crcOut = s.crcOut := by
      simp [afterAttempt, afterVerify, readyToVerify]
    obtain ⟨hblock, hcrc⟩ := ih (afterAttempt d s)
    rw [afterAttempts]
    split
    · exact hone
    · exact ⟨hblock.trans hone.1, hcrc.trans hone.2⟩

/-- A turn writes the staged byte at the present address, folds what came back, and goes on to the next address. -/
theorem afterWriteTurn_records (s : State) :
    (afterWriteTurn s).trace = s.trace ++ writeByteTrace (writeAddress s) (stagedByte s) (turnSamples s) ∧
      (afterWriteTurn s).crcOut = s.crcOut ^^^ returned (turnSamples s) ∧ (afterWriteTurn s).block = s.block ∧
      (afterWriteTurn s).i = s.i + 1 ∧ writeAddress (afterWriteTurn s) = writeAddress s + 1 := by
  obtain ⟨hblock, hcrc⟩ := afterAttempts_leaves_block (stagedByte s) Config.maxAttempts
    (writeByteEntry (writeAddress s) s)
  have hi : (afterWriteTurn s).i = s.i + 1 := by simp [afterWriteTurn, afterWriteOneByte]
  refine ⟨afterWriteOneByte_trace _ _ s, ?_, hblock, hi, ?_⟩
  · rw [turnSamples, ← afterWriteOneByte_verifiedValue]
    exact congrArg (· ^^^ _) hcrc
  · simp [writeAddress, hi, BitVec.add_assoc]

theorem iterate_afterWriteTurn_records (n : Nat) (s : State) :
    (afterWriteTurn^[n] s).trace =
        s.trace ++ writePhaseTrace (writeAddress s) (stagedFrom s.block s.i n) (phaseSamples n s) ∧
      (afterWriteTurn^[n] s).crcOut = ((phaseSamples n s).map returned).foldl (· ^^^ ·) s.crcOut ∧
      (afterWriteTurn^[n] s).baseAddress = s.baseAddress ∧ phaseFits (stagedFrom s.block s.i n) (phaseSamples n s) := by
  induction n generalizing s with
  | zero => exact ⟨(List.append_nil _).symm, rfl, rfl, trivial⟩
  | succ n ih =>
    obtain ⟨htrace, hcrc, hbase, hfit⟩ := ih (afterWriteTurn s)
    obtain ⟨htrace', hcrc', hblock, hi, haddr⟩ := afterWriteTurn_records s
    rw [haddr, hblock, hi, htrace', List.append_assoc] at htrace
    rw [hcrc'] at hcrc
    rw [hblock, hi] at hfit
    exact ⟨htrace, hcrc, hbase.trans (by simp), writeByteSamples_fit _ _ s, hfit⟩

/-! ### The lines of the write phase -/

/-- The lines after a Write-one-byte of `d` at `a` from any lines (41_byte_ops R152). -/
def writtenBus (b : Bus) (a : Word) (d : Byte) : Bus :=
  { b with
    addrLo := addrLoField a, addrHi6 := addrHiField a, dout := d, dir := .output, oe := false, pgm := false }

theorem afterWriteTurn_bus (s : State) :
    (afterWriteTurn s).bus = writtenBus s.bus (writeAddress s) (stagedByte s) :=
  (afterAttempts_bus (stagedByte s) 19 (writeByteEntry (writeAddress s) s)).trans (afterAttempt_bus _ _)

theorem iterate_afterWriteTurn_bus (n : Nat) (s : State) :
    ∃ a d, (afterWriteTurn^[n + 1] s).bus = writtenBus s.bus a d := by
  induction n generalizing s with
  | zero => exact ⟨_, _, afterWriteTurn_bus s⟩
  | succ n ih =>
    obtain ⟨a, d, hbus⟩ := ih (afterWriteTurn s)
    exact ⟨a, d, hbus.trans (by rw [afterWriteTurn_bus]; rfl)⟩

/-! ### One block -/

theorem toNat_nextBlockSize_le (s : State) : (nextBlockSize s).toNat ≤ 512 := by
  simp only [nextBlockSize, Config.blockMax, BitVec.toNat_ofNat]
  omega

/-- The state at the first byte of the write phase of a block (43_transfer_engine R204). -/
def writePhaseEntry (s : State) (b : WriteBlock) : State := { afterFirstCont s b with crcOut := 0, i := 0 }

/-- The samples of the write phase of a block; one aborted at the first point has none (43_transfer_engine R203, R204). -/
def blockSamples (s : State) (b : WriteBlock) : List (List Byte) :=
  match b.cont2 with
  | none => []
  | some _ => phaseSamples b.data.length (writePhaseEntry s b)

/-- At the loop test of a Bulk Write, `b` has as many bytes as the next block, and at least one. -/
structure BlockSized (s : State) (b : WriteBlock) : Prop where
  size : b.data.length = (nextBlockSize s).toNat
  nonempty : b.data ≠ []

/-- The write phase of a block has a turn for each byte of the block. -/
theorem BlockSized.afterWritePhase_eq {s : State} {b : WriteBlock} (h : BlockSized s b) :
    afterWritePhase (afterFirstCont s b) =
      sent .crcOut (sent .ack (afterWriteTurn^[b.data.length] (writePhaseEntry s b))) := by
  obtain ⟨_, _, _, hsize, _⟩ := afterFirstCont_leaves s b
  have hcount : (afterFirstCont s b).blockSize.toNat = b.data.length := by rw [hsize, h.size]
  rw [← hcount]
  rfl

/-- The write phase of a block begins at the block's address, with the block's bytes staged. -/
theorem BlockSized.writePhaseEntry_records {s : State} {b : WriteBlock} (h : BlockSized s b) :
    writeAddress (writePhaseEntry s b) = s.baseAddress + s.progress ∧
      stagedFrom (writePhaseEntry s b).block (writePhaseEntry s b).i b.data.length = b.data := by
  obtain ⟨_, hbase, _, hstaged⟩ := afterFirstCont_records s b
  obtain ⟨_, hprog, _⟩ := afterFirstCont_leaves s b
  exact ⟨by simp [writeAddress, writePhaseEntry, hbase, hprog], hstaged (h.size ▸ toNat_nextBlockSize_le s)⟩

/-- What a block leaves up to the byte of its second continuation point, when there is one (43_transfer_engine R204). -/
theorem afterWritePhase_records {s : State} {b : WriteBlock} (h : BlockSized s b) :
    (afterWritePhase (afterFirstCont s b)).trace = (afterFirstCont s b).trace ++
        (writePhaseTrace (s.baseAddress + s.progress) b.data (phaseSamples b.data.length (writePhaseEntry s b)) ++
          ([.tx 0x01, .tx (xorAll ((phaseSamples b.data.length (writePhaseEntry s b)).map returned))] : List Event)) ∧
      (afterWritePhase (afterFirstCont s b)).baseAddress = s.baseAddress ∧
      phaseFits b.data (phaseSamples b.data.length (writePhaseEntry s b)) ∧
      ∃ a d, (afterWritePhase (afterFirstCont s b)).bus = writtenBus s.bus a d := by
  obtain ⟨_, hbase, _, _⟩ := afterFirstCont_records s b
  obtain ⟨_, _, hbus, _, _⟩ := afterFirstCont_leaves s b
  obtain ⟨haddr, hdata⟩ := h.writePhaseEntry_records
  obtain ⟨htrace, hcrc, hbase', hfit⟩ := iterate_afterWriteTurn_records b.data.length (writePhaseEntry s b)
  have hxor : (afterWriteTurn^[b.data.length] (writePhaseEntry s b)).crcOut =
      xorAll ((phaseSamples b.data.length (writePhaseEntry s b)).map returned) := hcrc
  rw [haddr, hdata] at htrace
  rw [hdata] at hfit
  rw [h.afterWritePhase_eq]
  refine ⟨?_, hbase'.trans hbase, hfit, ?_⟩
  · refine (List.append_assoc _ _ _).trans ?_
    rw [htrace, List.append_assoc, ← hxor]
    rfl
  · obtain ⟨n, hn⟩ := Nat.exists_eq_succ_of_ne_zero (mt List.length_eq_zero_iff.mp h.nonempty)
    rw [hn, ← hbus]
    exact iterate_afterWriteTurn_bus n (writePhaseEntry s b)

/-- The second continuation byte leaves all but the sequencer position, `cont` and `progress` (43_transfer_engine R205,
R206). -/
theorem afterBlock_of_cont2 {s : State} {b : WriteBlock} {c : Byte} (hc2 : b.cont2 = some c) :
    (afterBlock s b).trace = (afterWritePhase (afterFirstCont s b)).trace ++ [Event.rx c] ∧
      (afterBlock s b).baseAddress = (afterWritePhase (afterFirstCont s b)).baseAddress ∧
      (afterBlock s b).bus = (afterWritePhase (afterFirstCont s b)).bus ∧
      (afterBlock s b).chip = (afterWritePhase (afterFirstCont s b)).chip := by
  obtain ⟨htrace, hbase, hchip, _⟩ := received_cont_records (.inr rfl) (afterWritePhase (afterFirstCont s b)) c
  obtain ⟨_, _, hbus, _⟩ := received_leaves .wCont2 (afterWritePhase (afterFirstCont s b)) c
  simp only [afterBlock, hc2]
  split <;> exact ⟨htrace, hbase, hbus, hchip⟩

/-- The events of a block, with its samples (43_transfer_engine R202 to R205). -/
theorem afterBlock_records {s : State} {b : WriteBlock} (h : BlockSized s b) :
    (afterBlock s b).trace = s.trace ++ blockTrace (s.baseAddress + s.progress) b (blockSamples s b) ∧
      (afterBlock s b).baseAddress = s.baseAddress ∧ blocksSampled [b] [blockSamples s b] := by
  obtain ⟨htrace, hbase, _, _⟩ := afterFirstCont_records s b
  cases hc2 : b.cont2 with
  | none => simp [afterBlock, blockTrace, blockSamples, blocksSampled, hc2, htrace, hbase]
  | some c =>
    obtain ⟨htrace', hbase', hfit, _⟩ := afterWritePhase_records h
    obtain ⟨htrace'', hbase'', _, _⟩ := afterBlock_of_cont2 (s := s) hc2
    refine ⟨?_, hbase''.trans hbase', by simpa [blocksSampled, blockSamples, hc2] using hfit⟩
    simp [htrace'', htrace', htrace, blockTrace, blockSamples, hc2]

/-- A block that has not stored leaves the lines as they were, one that has leaves those of its last byte. -/
theorem afterBlock_bus {s : State} {b : WriteBlock} (h : BlockSized s b) :
    (b.cont2 = none ∧ (afterBlock s b).bus = s.bus) ∨ ∃ a d, (afterBlock s b).bus = writtenBus s.bus a d := by
  cases hc2 : b.cont2 with
  | none =>
    obtain ⟨_, _, hbus, _⟩ := afterFirstCont_leaves s b
    exact .inl ⟨rfl, by simpa [afterBlock, hc2] using hbus⟩
  | some c =>
    obtain ⟨_, _, _, a, d, hbus⟩ := afterWritePhase_records h
    obtain ⟨_, _, hbus', _⟩ := afterBlock_of_cont2 (s := s) hc2
    exact .inr ⟨a, d, hbus'.trans hbus⟩

/-- An aborted block does not count (43_transfer_engine R203, R205). -/
theorem afterBlock_progress_aborted {s : State} {b : WriteBlock} (h : b.cont2 = none ∨ b.cont2 = some Config.abort) :
    (afterBlock s b).progress = s.progress := by
  obtain ⟨_, hprog, _⟩ := afterFirstCont_leaves s b
  obtain ⟨_, hprog', _⟩ := afterWritePhase_leaves (afterFirstCont s b)
  obtain ⟨_, hprog''⟩ :=
    received_write_leaves (.inr (.inr rfl)) (afterWritePhase (afterFirstCont s b)) Config.abort
  rcases h with hc2 | hc2
  · simp [afterBlock, hc2, hprog]
  · simp [afterBlock, hc2, hprog'', hprog', hprog]

/-! ### The blocks of one command -/

/-- The blocks that `d` takes from its loop test in `s` on: every one of the size of R201, an aborted one the last. -/
inductive TakesBlocks : State → List WriteBlock → Prop where
  | done (s : State) : TakesBlocks s []
  | aborted {s : State} {b : WriteBlock} (size : BlockSized s b)
      (cont : b.cont2 = none ∨ b.cont2 = some Config.abort) : TakesBlocks s [b]
  | completed {s : State} {b : WriteBlock} {bs : List WriteBlock} {c : Byte} (size : BlockSized s b)
      (cont : b.cont2 = some c) (go : c ≠ Config.abort) (more : TakesBlocks (afterBlock s b) bs) :
      TakesBlocks s (b :: bs)

theorem takesBlocks_of_blocksFit {bs : List WriteBlock} {s : State}
    (hfit : blocksFit (s.transferLength.toNat - s.progress.toNat) bs = true)
    (hle : s.progress.toNat ≤ s.transferLength.toNat) : TakesBlocks s bs := by
  induction bs generalizing s with
  | nil => exact .done s
  | cons b bs ih =>
    obtain ⟨hn, hlen, hcont⟩ := blocksFit_cons.mp hfit
    have hremains : bytesRemain s = true := by simp only [bytesRemain, decide_eq_true_eq]; omega
    have hnext : (nextBlockSize s).toNat = min 512 (s.transferLength.toNat - s.progress.toNat) :=
      toNat_nextBlockSize hremains
    have hsize : BlockSized s b := ⟨hlen.trans hnext.symm, fun h0 => by rw [h0, List.length_nil] at hlen; omega⟩
    obtain ⟨_, hc2, rfl⟩ | ⟨_, hc2, rfl⟩ | ⟨_, c, hc2, hc, hfit'⟩ := hcont
    · exact .aborted hsize (.inl hc2)
    · exact .aborted hsize (.inr hc2)
    · obtain ⟨hlen', hprog', _, _⟩ := afterBlock_completed (s := s) hc2 hc
      have hprog : (afterBlock s b).progress.toNat = s.progress.toNat + (nextBlockSize s).toNat := by
        have := s.transferLength.isLt
        rw [hprog', BitVec.toNat_add]
        omega
      exact .completed hsize hc2 hc (ih (by rwa [hlen', hprog, hnext, ← Nat.sub_sub]) (by rw [hlen', hprog]; omega))

/-- The samples of the blocks that `d` takes from its loop test in `s` on. -/
def blocksSamples : State → List WriteBlock → List (List (List Byte))
  | _, [] => []
  | s, b :: bs => blockSamples s b :: blocksSamples (afterBlock s b) bs

/-- The number of bytes of a block, as a length. -/
theorem BlockSized.nextBlockSize_eq {s : State} {b : WriteBlock} (h : BlockSized s b) :
    nextBlockSize s = BitVec.ofNat 16 b.data.length := by
  simp [h.size]

theorem TakesBlocks.records {s : State} {bs : List WriteBlock} (h : TakesBlocks s bs) :
    (bs.foldl afterBlock s).trace =
        s.trace ++ blocksTrace (s.baseAddress + s.progress) bs (blocksSamples s bs) ∧
      blocksSampled bs (blocksSamples s bs) := by
  induction h with
  | done s => exact ⟨(List.append_nil _).symm, trivial⟩
  | aborted size =>
    obtain ⟨htrace, _, hsampled⟩ := afterBlock_records size
    exact ⟨htrace.trans (by simp [blocksTrace, blocksSamples]), hsampled⟩
  | completed size cont go _ ih =>
    obtain ⟨htrace, hbase, hsampled, _⟩ := afterBlock_records size
    obtain ⟨_, hprog, _⟩ := afterBlock_completed cont go
    obtain ⟨htrace', hsampled'⟩ := ih
    rw [hbase, hprog, size.nextBlockSize_eq, ← BitVec.add_assoc, htrace, List.append_assoc] at htrace'
    exact ⟨htrace', hsampled, hsampled'⟩

theorem completedBytes_completed {b : WriteBlock} {bs : List WriteBlock} {c : Byte} (hc2 : b.cont2 = some c)
    (hc : c ≠ Config.abort) : completedBytes (b :: bs) = b.data.length + completedBytes bs := by
  have hc' : c ≠ 255#8 := hc
  simp [completedBytes, hc2, hc']

theorem TakesBlocks.progress {s : State} {bs : List WriteBlock} (h : TakesBlocks s bs) :
    (bs.foldl afterBlock s).progress = s.progress + BitVec.ofNat 16 (completedBytes bs) := by
  induction h with
  | done s => exact (BitVec.add_zero _).symm
  | aborted size cont =>
    refine (afterBlock_progress_aborted cont).trans ?_
    rcases cont with hc2 | hc2 <;> simp [completedBytes, hc2, Config.abort]
  | completed size cont go _ ih =>
    obtain ⟨_, hprog, _⟩ := afterBlock_completed cont go
    rw [List.foldl_cons, ih, hprog, size.nextBlockSize_eq, completedBytes_completed cont go, BitVec.add_assoc,
      ← BitVec.ofNat_add]

/-- Blocks that have not stored leave the lines as they were, others leave those of the last byte. -/
theorem TakesBlocks.bus {s : State} {bs : List WriteBlock} (h : TakesBlocks s bs) :
    (storedData bs = [] ∧ (bs.foldl afterBlock s).bus = s.bus) ∨
      ∃ a d, (bs.foldl afterBlock s).bus = writtenBus s.bus a d := by
  induction h with
  | done s => exact .inl ⟨rfl, rfl⟩
  | aborted size => exact (afterBlock_bus size).imp_left fun ⟨hc2, hbus⟩ => ⟨by simp [storedData, hc2], hbus⟩
  | completed size cont _ _ ih =>
    obtain ⟨a, d, hbus⟩ := (afterBlock_bus size).resolve_left fun ⟨hc2, _⟩ => by simp [cont] at hc2
    rcases ih with ⟨_, hbus'⟩ | ⟨a', d', hbus'⟩
    · exact .inr ⟨a, d, hbus'.trans hbus⟩
    · exact .inr ⟨a', d', hbus'.trans (by rw [hbus]; rfl)⟩

/-! ### The whole command -/

/-- What the entry of a Bulk Write leaves, and what it writes (43_transfer_engine R200). -/
theorem writeLoopEntry_records (s : State) :
    (writeLoopEntry s).baseAddress = s.baseAddress ∧ (writeLoopEntry s).transferLength = s.transferLength ∧
    (writeLoopEntry s).progress = 0 ∧ (writeLoopEntry s).rx = s.rx ∧ (writeLoopEntry s).chip = s.chip.select ∧
    (writeLoopEntry s).trace =
      s.trace ++ ([.tx 0x01, .vpp true, .dir .output, .ce true, .oe false] : List Event) := by
  simp [writeLoopEntry, sent, sendByte, Config.ack]

theorem takesBlocks_writeLoopEntry {s : State} {bs : List WriteBlock} (h : blocksFit s.transferLength.toNat bs = true) :
    TakesBlocks (writeLoopEntry s) bs :=
  takesBlocks_of_blocksFit (s := writeLoopEntry s) h (Nat.zero_le _)

/-- The samples of a Bulk Write of the given blocks (43_transfer_engine R204). -/
def bulkWriteSamples (s : State) (bs : List WriteBlock) : List (List (List Byte)) := blocksSamples (writeLoopEntry s) bs

theorem afterWrite_idle (bs : List WriteBlock) (s : State) : (afterWrite bs s).seq = .idle := rfl

theorem afterWrite_trace {s : State} {bs : List WriteBlock} (h : blocksFit s.transferLength.toNat bs = true) :
    (afterWrite bs s).trace = s.trace ++ bulkWriteTrace s.baseAddress bs (bulkWriteSamples s bs) := by
  obtain ⟨htrace, _⟩ := (takesBlocks_writeLoopEntry h).records
  obtain ⟨hbase, _, hprog, _, _, hentry⟩ := writeLoopEntry_records s
  have hexit : (afterWrite bs s).trace = (bs.foldl afterBlock (writeLoopEntry s)).trace ++
      ([.ce false, .vpp false, .dout Config.dataNeutral, .dir .input] : List Event) := by
    simp [afterWrite]
  rw [hexit, htrace, hentry, hbase, hprog]
  simp [bulkWriteTrace, bulkWriteSamples]

theorem afterWrite_progress {s : State} {bs : List WriteBlock} (h : blocksFit s.transferLength.toNat bs = true) :
    (afterWrite bs s).progress = BitVec.ofNat 16 (completedBytes bs) :=
  (takesBlocks_writeLoopEntry h).progress.trans (BitVec.zero_add _)

/-- Settles O37: a turn of the loop for each block, and in it a turn of each phase for each byte. -/
theorem bulkWriteRuns : Obligations.BulkWriteRuns := by
  intro s bs rest hfit hrx hroom
  have h := exec_write hfit hrx (by rwa [Nat.add_comm])
  obtain ⟨_, hsampled⟩ := (takesBlocks_writeLoopEntry hfit).records
  obtain ⟨hbase, hlen, _⟩ := sessionRegisterFrame .write s _ h
  refine ⟨_, bulkWriteSamples s bs, h, afterWrite_idle bs s, hsampled, afterWrite_trace hfit, ?rx, afterWrite_progress hfit,
    hbase nofun nofun, hlen nofun, ?lines⟩
  case rx =>
    rw [afterWrite_rx, hrx]
    exact List.drop_left
  case lines =>
    have hexit : (afterWrite bs s).bus = { (bs.foldl afterBlock (writeLoopEntry s)).bus with
      ce := false, vpp := false, dout := Config.dataNeutral, dir := .input } := rfl
    rw [hexit]
    rcases (takesBlocks_writeLoopEntry hfit).bus with ⟨hnone, hbus⟩ | ⟨a, d, hbus⟩ <;> rw [hbus]
    · exact ⟨rfl, rfl, rfl, rfl, rfl, fun hpgm => hpgm.resolve_right fun hne => hne hnone⟩
    · exact ⟨rfl, rfl, rfl, rfl, rfl, fun _ => rfl⟩

end Sys2Proof.Claims
end

section
/-! SUPPORT. Transfers at their corners: of length 0 (spec 43_transfer_engine R209, R213), and a Bulk Write aborted before
it writes (R203; 60_exceptions R235). -/

namespace Sys2Proof.Claims

open Sys2Proof.Machine

/-- Settles O36: the general runs, with no byte and no block. -/
theorem zeroLengthTransfers : Obligations.ZeroLengthTransfers := by
  intro s hlen hroom
  have hzero : s.transferLength.toNat = 0 := congrArg BitVec.toNat hlen
  constructor
  · obtain ⟨t, vs, ht, hidle, hvs, htrace, _, hrx, _, hprog, _⟩ := bulkReadRuns s (by rwa [hzero])
    obtain rfl : vs = [] := List.length_eq_zero_iff.mp (hvs.trans hzero)
    exact ⟨t, ht, hidle, hprog.trans hlen, hrx, htrace⟩
  · have hfit : blocksFit s.transferLength.toNat [] = true := by simp [blocksFit, hzero]
    obtain ⟨t, os, ht, hidle, hsampled, htrace, hrx, hprog, _⟩ := bulkWriteRuns s [] s.rx hfit rfl hroom
    exact ⟨t, ht, hidle, hprog, hrx, htrace⟩

/-! ### An abort before the first block is written -/

theorem writeEntry_does {s : State} (hroom : s.txRoom ≠ some 0) :
    Does [.send .ack, .enterWriteMode, .chipEnable, .oeDeassert, .clearProgress] 5 s (writeLoopEntry s) :=
  (send_does .ack hroom).append (code' := [.enterWriteMode, .chipEnable, .oeDeassert, .clearProgress])
    (straight_does rfl _)

theorem writeExit_does (s : State) : Does writeExit 2 s (enterReadMode (chipDisable s)) := straight_does rfl s

/-- With room for the acknowledgment and the checksum, a block aborted at the first point ends at the common exit
(43_transfer_engine R203). -/
theorem abortedFirst_reaches {s : State} {data rest : List Byte} (hremains : bytesRemain s = true)
    (hsize : data.length = (nextBlockSize s).toNat) (hrx : s.rx = data ++ Config.abort :: rest) (hroom : roomFor s 2) :
    Reaches (2 * data.length + 6) { s with todo := .whileWrite :: writeExit }
      { afterBlock s ⟨data, Config.abort, none⟩ with todo := writeExit } := by
  have htest : advance { s with todo := .whileWrite :: writeExit } =
      .moved { s with blockSize := nextBlockSize s, todo := writeBody ++ writeExit } :=
    congrArg Advance.moved (if_pos hremains)
  obtain ⟨_, _, _, _, hrx'⟩ := afterReceivePhase_leaves data s
  rw [hrx, List.drop_left] at hrx'
  have hphase := receivePhase_does (k := 0) hrx hsize hroom (writeBody.drop 4 ++ writeExit)
  exact (((reaches_of_advance htest).trans hphase).trans (recv_abort_reaches hrx' (.inl rfl))).mono (by omega)

theorem exec_write_abortedFirst {s : State} {data rest : List Byte}
    (hfit : blocksFit s.transferLength.toNat [⟨data, Config.abort, none⟩] = true)
    (hrx : s.rx = data ++ Config.abort :: rest) (hroom : roomFor s 3) :
    exec .write s = .next (afterWrite [⟨data, Config.abort, none⟩] s) := by
  obtain ⟨hne, hlen, _⟩ := blocksFit_cons.mp hfit
  obtain ⟨_, hlength, hprog, hrx', _⟩ := writeLoopEntry_records s
  have hleft : (writeLoopEntry s).transferLength.toNat - (writeLoopEntry s).progress.toNat = s.transferLength.toNat := by
    rw [hlength, hprog]
    rfl
  have hremains : bytesRemain (writeLoopEntry s) = true := by simp only [bytesRemain, decide_eq_true_eq]; omega
  have hsize : data.length = (nextBlockSize (writeLoopEntry s)).toNat := by
    rw [toNat_nextBlockSize hremains, hleft]
    exact hlen
  have hlink : (writeLoopEntry s).txRoom = (sent .ack s).txRoom := rfl
  have hroom' := roomFor_of_txRoom_eq hlink (roomFor_sent hroom)
  have hstart := writeEntry_does (txRoom_ne_zero hroom) (.whileWrite :: writeExit)
  have hblock := abortedFirst_reaches hremains hsize (hrx'.trans hrx) hroom'
  obtain ⟨k, hk, hall⟩ := (hstart.trans hblock).trans (writeExit_does _ [])
  have hbudget : k ≤ Config.stepBudget := by
    have : data.length ≤ 512 := hlen.trans_le (min_le_left _ _)
    simp only [Config.stepBudget]
    omega
  rw [exec_eq]
  exact runCommand_completes hall rfl hbudget

/-- A block aborted at the first point leaves the chip as its selection does (60_exceptions R235). -/
theorem afterWrite_abortedFirst_chip (s : State) (data : List Byte) :
    (afterWrite [⟨data, Config.abort, none⟩] s).chip = s.chip.select := by
  obtain ⟨_, _, hchip, _⟩ := afterFirstCont_records (writeLoopEntry s) ⟨data, Config.abort, none⟩
  obtain ⟨_, _, _, _, hentry, _⟩ := writeLoopEntry_records s
  exact hchip.trans hentry

theorem bulkWriteTrace_abortedFirst (a : Word) (data : List Byte) :
    bulkWriteTrace a [⟨data, Config.abort, none⟩] [[]] =
      ([.tx 0x01, .vpp true, .dir .output, .ce true, .oe false] : List Event) ++ data.map Event.rx ++
        ([.tx 0x01, .tx (xorAll data), .rx 0xFF, .ce false, .vpp false, .dout Config.dataNeutral, .dir .input] :
          List Event) := by
  simp [bulkWriteTrace, blocksTrace, blockTrace, Config.abort]

/-- Settles O39: the block goes from its first continuation point to the exit. -/
theorem abortBeforeWritingABlock : Obligations.AbortBeforeWritingABlock := by
  intro s data rest hne hlen hrx hroom
  have hfit : blocksFit s.transferLength.toNat [⟨data, Config.abort, none⟩] = true :=
    blocksFit_cons.mpr ⟨fun h => hne (BitVec.eq_of_toNat_eq h), hlen, .inl ⟨rfl, rfl, rfl⟩⟩
  have h := exec_write_abortedFirst hfit hrx hroom
  have htrace : _ = s.trace ++ bulkWriteTrace s.baseAddress [⟨data, Config.abort, none⟩] [[]] := afterWrite_trace hfit
  rw [bulkWriteTrace_abortedFirst] at htrace
  refine ⟨_, h, afterWrite_idle _ s, ?rx, ?progress, ?tx, ?cells, htrace⟩
  case rx => simp [afterWrite_rx, hrx, WriteBlock.bytes]
  case progress =>
    rw [afterWrite_progress hfit]
    rfl
  case tx =>
    rw [exec_tx_of_trace h htrace, sentBytes_append, sentBytes_append]
    simp [sentBytes]
  case cells =>
    rw [afterWrite_abortedFirst_chip]
    exact fun _ => ⟨rfl, Iff.rfl⟩

end Sys2Proof.Claims
end

section
/-! SUPPORT. A Bulk Write to an `IdealChip`: every byte verifies at once, and the cells hold the data (spec 20_memory R65;
43_transfer_engine R208, R210). -/

namespace Sys2Proof.Claims

open Sys2Proof.Machine

/-! ### Bytes stored in order -/

theorem storeBytes_append (m : Memory) (a : Word) (ds es : List Byte) :
    storeBytes m a (ds ++ es) = storeBytes (storeBytes m a ds) (a + BitVec.ofNat 16 ds.length) es := by
  induction ds generalizing m a with
  | nil => simp [storeBytes]
  | cons d ds ih => rw [List.cons_append, storeBytes, ih, storeBytes, List.length_cons, add_one_add_ofNat]

/-- `c'` is the `IdealChip` `c` with the bytes `ds` stored at logical addresses from `a` on (20_memory R65). -/
structure Stored (c : Chip) (a : Word) (ds : List Byte) (c' : Chip) : Prop where
  ideal : c'.model = .ideal
  cells : c'.cells = storeBytes c.cells a ds
  unsettled : ∀ x : Nat, x ∈ c'.unsettled ↔
    x ∈ c.unsettled ∧ ∀ k : Nat, k < ds.length → x ≠ (chipAddrOf (a + BitVec.ofNat 16 k)).toNat

theorem Stored.nil {c : Chip} (h : c.model = .ideal) (a : Word) : Stored c a [] c := ⟨h, rfl, fun x => by simp⟩

theorem Stored.append {c c' c'' : Chip} {a : Word} {ds es : List Byte} (h : Stored c a ds c')
    (h' : Stored c' (a + BitVec.ofNat 16 ds.length) es c'') : Stored c a (ds ++ es) c'' := by
  refine ⟨h'.ideal, by rw [h'.cells, h.cells, storeBytes_append], fun x => ?_⟩
  rw [h'.unsettled, h.unsettled, and_assoc, List.length_append]
  refine and_congr_right fun _ => ⟨fun ⟨hds, hes⟩ k hk => ?_, fun hall => ⟨fun k hk => hall k (by omega), fun k hk => ?_⟩⟩
  · by_cases hlt : k < ds.length
    · exact hds k hlt
    · have := hes (k - ds.length) (by omega)
      rwa [BitVec.add_assoc, ← BitVec.ofNat_add, Nat.add_sub_cancel' (not_lt.mp hlt)] at this
  · have := hall (ds.length + k) (by omega)
    rwa [BitVec.ofNat_add, ← BitVec.add_assoc] at this

theorem Stored.pulse {c : Chip} (h : c.model = .ideal) (a : Word) (d : Byte) :
    Stored c a [d] (c.pulse (chipAddrOf a).toNat d) := by
  refine ⟨by simpa using h, by simp [Chip.pulse, h, storeBytes], fun x => ?_⟩
  rw [(Chip.pulse_ideal c _ x d h).2]
  simp

/-! ### One byte -/

/-- `s` with the program strobe off. -/
def strobeOff (s : State) : State := { s with bus := { s.bus with pgm := false } }

/-- The strobe of an attempt begins and ends whatever level it had before (41_byte_ops R152). -/
theorem afterWriteOneByte_strobeOff (a : Word) (d : Byte) (s : State) :
    writeByteSamples a d (strobeOff s) = writeByteSamples a d s ∧
      afterWriteOneByte a d (strobeOff s) = afterWriteOneByte a d s := ⟨rfl, rfl⟩

theorem lines_strobeOff {b : Bus} (h : Bus.pulseArmed b = true) : Bus.lines { b with pgm := false } = writeLines := by
  simp only [Bus.pulseArmed, Bool.and_eq_true, beq_iff_eq, Bool.not_eq_true'] at h
  obtain ⟨⟨⟨hce, hvpp⟩, hdir⟩, hoe⟩ := h
  simp [Bus.lines, writeLines, hce, hvpp, hdir, hoe]

theorem pulseArmed_writtenBus {b : Bus} (h : Bus.pulseArmed b = true) (a : Word) (d : Byte) :
    Bus.pulseArmed (writtenBus b a d) = true := by
  simp only [Bus.pulseArmed, Bool.and_eq_true, beq_iff_eq, Bool.not_eq_true'] at h ⊢
  obtain ⟨⟨⟨hce, hvpp⟩, _⟩, _⟩ := h
  exact ⟨⟨⟨hce, hvpp⟩, rfl⟩, rfl⟩

/-- The first attempt of a Write-one-byte stores the byte and verifies it. -/
theorem afterWriteOneByte_ideal (a : Word) (d : Byte) {s : State} (hb : Bus.pulseArmed s.bus = true)
    (hm : s.chip.model = .ideal) :
    writeByteSamples a d s = [d] ∧ Stored s.chip a [d] (afterWriteOneByte a d s).chip := by
  have hl : Bus.lines (strobeOff s).bus = writeLines := lines_strobeOff hb
  obtain ⟨hsamples, hafter⟩ := writeOneByte_ideal a d hl hm
  obtain ⟨hcells, hopen, hmodel⟩ := afterAttempt_chip d (writeByteEntry a (strobeOff s))
  have hsame : (writeByteEntry a (strobeOff s)).chip = s.chip := rfl
  rw [readyToVerify_chip d (s := writeByteEntry a (strobeOff s)) hl, writeByteEntry_chipAddr, hsame]
    at hcells hopen hmodel
  obtain ⟨hideal, hstored, hsettled⟩ := Stored.pulse hm a d
  obtain ⟨hsamples', hafter'⟩ := afterWriteOneByte_strobeOff a d s
  rw [← hsamples', ← hafter', hafter]
  exact ⟨hsamples, hmodel.trans hideal, hcells.trans hstored, fun x => hopen ▸ hsettled x⟩

/-! ### The write phase -/

/-- Every turn of the write phase stores its byte, and it verifies at once. -/
theorem iterate_afterWriteTurn_ideal (n : Nat) {s : State} (hb : Bus.pulseArmed s.bus = true)
    (hm : s.chip.model = .ideal) :
    phaseSamples n s = (stagedFrom s.block s.i n).map (fun d => [d]) ∧
      Stored s.chip (writeAddress s) (stagedFrom s.block s.i n) (afterWriteTurn^[n] s).chip := by
  induction n generalizing s with
  | zero => exact ⟨rfl, .nil hm _⟩
  | succ n ih =>
    obtain ⟨hsamples, hstored⟩ := afterWriteOneByte_ideal (writeAddress s) (stagedByte s) hb hm
    obtain ⟨_, _, hblock, hi, haddr⟩ := afterWriteTurn_records s
    have hb' : Bus.pulseArmed (afterWriteTurn s).bus = true := by
      rw [afterWriteTurn_bus]
      exact pulseArmed_writtenBus hb _ _
    obtain ⟨hmore, hstored'⟩ := ih hb' hstored.ideal
    rw [hblock, hi] at hmore hstored'
    rw [haddr] at hstored'
    exact ⟨congrArg₂ List.cons hsamples hmore, hstored.append hstored'⟩

/-! ### The blocks -/

/-- A block is stored if it was not aborted at the first point. -/
theorem afterBlock_ideal {s : State} {b : WriteBlock} (h : BlockSized s b) (hb : Bus.pulseArmed s.bus = true)
    (hm : s.chip.model = .ideal) :
    [blockSamples s b] = firstTimeSamples [b] ∧
      Stored s.chip (s.baseAddress + s.progress) (storedData [b]) (afterBlock s b).chip := by
  obtain ⟨_, _, hchip, _⟩ := afterFirstCont_records s b
  cases hc2 : b.cont2 with
  | none =>
    have hleft : (afterBlock s b).chip = s.chip := by simpa [afterBlock, hc2] using hchip
    rw [hleft]
    simpa [blockSamples, firstTimeSamples, storedData, hc2] using Stored.nil hm _
  | some c =>
    obtain ⟨_, _, hbus, _, _⟩ := afterFirstCont_leaves s b
    obtain ⟨_, _, _, hafter⟩ := afterBlock_of_cont2 (s := s) hc2
    obtain ⟨haddr, hdata⟩ := h.writePhaseEntry_records
    obtain ⟨hsamples, hstored⟩ := iterate_afterWriteTurn_ideal b.data.length (s := writePhaseEntry s b)
      (hbus ▸ hb) (hchip ▸ hm)
    have hentry : (writePhaseEntry s b).chip = s.chip := hchip
    have hexit : (afterBlock s b).chip = (afterWriteTurn^[b.data.length] (writePhaseEntry s b)).chip := by
      rw [hafter, h.afterWritePhase_eq]
      rfl
    rw [hdata] at hsamples hstored
    rw [haddr, hentry, ← hexit] at hstored
    simpa [blockSamples, firstTimeSamples, storedData, hc2, hsamples] using hstored

theorem firstTimeSamples_cons (b : WriteBlock) (bs : List WriteBlock) :
    firstTimeSamples (b :: bs) = firstTimeSamples [b] ++ firstTimeSamples bs := rfl

theorem pulseArmed_afterBlock {s : State} {b : WriteBlock} (h : BlockSized s b) (hb : Bus.pulseArmed s.bus = true) :
    Bus.pulseArmed (afterBlock s b).bus = true := by
  rcases afterBlock_bus h with ⟨_, hbus⟩ | ⟨a, d, hbus⟩ <;> rw [hbus]
  · exact hb
  · exact pulseArmed_writtenBus hb a d

/-- The blocks of a Bulk Write are stored one after the other. -/
theorem TakesBlocks.ideal {s : State} {bs : List WriteBlock} (h : TakesBlocks s bs)
    (hb : Bus.pulseArmed s.bus = true) (hm : s.chip.model = .ideal) :
    blocksSamples s bs = firstTimeSamples bs ∧
      Stored s.chip (s.baseAddress + s.progress) (storedData bs) (bs.foldl afterBlock s).chip := by
  induction h with
  | done s => exact ⟨rfl, .nil hm _⟩
  | aborted size => exact afterBlock_ideal size hb hm
  | @completed s b bs c size cont go _ ih =>
    obtain ⟨hsamples, hstored⟩ := afterBlock_ideal size hb hm
    obtain ⟨_, hbase, _⟩ := afterBlock_records size
    obtain ⟨_, hprog, _⟩ := afterBlock_completed cont go
    obtain ⟨hmore, hstored'⟩ := ih (pulseArmed_afterBlock size hb) hstored.ideal
    have hdata : storedData [b] = b.data := by simp [storedData, cont]
    rw [hdata] at hstored
    rw [hbase, hprog, size.nextBlockSize_eq, ← BitVec.add_assoc] at hstored'
    have hall := hstored.append hstored'
    refine ⟨by rw [firstTimeSamples_cons, ← hsamples, ← hmore]; rfl, ?_⟩
    simpa [storedData, cont] using hall

/-! ### The bytes sent -/

theorem sentBytes_writeByteTrace (a : Word) (d : Byte) (vs : List Byte) : sentBytes (writeByteTrace a d vs) = [] := by
  induction vs with
  | nil => rfl
  | cons v vs ih =>
    rw [writeByteTrace, sentBytes_append] at ih ⊢
    rw [List.flatMap_cons, sentBytes_append]
    exact ih

theorem sentBytes_writePhaseTrace (a : Word) (ds : List Byte) (vss : List (List Byte)) :
    sentBytes (writePhaseTrace a ds vss) = [] := by
  induction ds generalizing a vss with
  | nil => rfl
  | cons d ds ih =>
    cases vss with
    | nil => rfl
    | cons vs vss => rw [writePhaseTrace, sentBytes_append, sentBytes_writeByteTrace, ih, List.append_nil]

theorem sentBytes_map_rx (bs : List Byte) : sentBytes (bs.map Event.rx) = [] := by
  simp [sentBytes]

/-- A block sends its two acknowledgments and its two checksums (43_transfer_engine R203, R205). -/
theorem sentBytes_blockTrace (a : Word) {b : WriteBlock} {c : Byte} (hc2 : b.cont2 = some c) (vss : List (List Byte)) :
    sentBytes (blockTrace a b vss) = [0x01, xorAll b.data, 0x01, xorAll (vss.map returned)] := by
  simp only [blockTrace, hc2, sentBytes_append, sentBytes_map_rx, sentBytes_writePhaseTrace]
  rfl

theorem returned_firstTime (data : List Byte) : (data.map fun d => [d]).map returned = data := by
  simp [returned, Function.comp_def]

theorem sentBytes_blocksTrace (a : Word) {bs : List WriteBlock} (h : noAbort bs) :
    sentBytes (blocksTrace a bs (firstTimeSamples bs)) =
      bs.flatMap fun b => [0x01, xorAll b.data, 0x01, xorAll b.data] := by
  induction bs generalizing a with
  | nil => rfl
  | cons b bs ih =>
    obtain ⟨⟨_, c, hc2, _⟩, hno⟩ := List.forall_mem_cons.mp h
    simp only [firstTimeSamples, hc2, blocksTrace, sentBytes_append, sentBytes_blockTrace a hc2, returned_firstTime,
      ih _ hno, List.flatMap_cons]

theorem sentBytes_bulkWriteTrace (a : Word) (bs : List WriteBlock) (os : List (List (List Byte))) :
    sentBytes (bulkWriteTrace a bs os) = 0x01 :: sentBytes (blocksTrace a bs os) := by
  rw [bulkWriteTrace, sentBytes_append, sentBytes_append]
  exact List.append_nil _

/-- Without an abort, every byte of the transfer is counted (43_transfer_engine R206). -/
theorem completedBytes_of_noAbort {n : Nat} {bs : List WriteBlock} (hfit : blocksFit n bs = true) (h : noAbort bs) :
    completedBytes bs = n := by
  induction bs generalizing n with
  | nil => exact (by simpa [blocksFit] using hfit : n = 0).symm
  | cons b bs ih =>
    obtain ⟨_, hlen, hcont⟩ := blocksFit_cons.mp hfit
    obtain ⟨⟨hc1, c, hc2, hc⟩, hno⟩ := List.forall_mem_cons.mp h
    obtain ⟨hab, _⟩ | ⟨_, hab, _⟩ | ⟨_, _, _, _, hbs⟩ := hcont
    · exact absurd hab hc1
    · exact absurd (Option.some.inj (hc2.symm.trans hab)) hc
    · rw [completedBytes_completed hc2 hc, ih hbs hno, hlen]
      omega

/-- Settles O38: a pulse for each byte, each at the address after the one before. -/
theorem bulkWriteOnIdealChip : Obligations.BulkWriteOnIdealChip := by
  intro s bs rest hfit hrx hroom hm
  have h := exec_write hfit hrx (by rwa [Nat.add_comm])
  obtain ⟨hbase, _, hprog, _, hchip, _⟩ := writeLoopEntry_records s
  have hmodel : (writeLoopEntry s).chip.model = .ideal := by simpa [hchip] using hm
  obtain ⟨hsamples, hstored⟩ := (takesBlocks_writeLoopEntry hfit).ideal rfl hmodel
  have htrace : _ = s.trace ++ bulkWriteTrace s.baseAddress bs (bulkWriteSamples s bs) := afterWrite_trace hfit
  rw [bulkWriteSamples, hsamples] at htrace
  have hexit : (afterWrite bs s).chip = (bs.foldl afterBlock (writeLoopEntry s)).chip := rfl
  have hzero : s.baseAddress + 0 = s.baseAddress := BitVec.add_zero _
  rw [hbase, hprog, hchip, hzero, ← hexit] at hstored
  refine ⟨_, h, htrace, fun hno => ⟨?progress, ?tx⟩, hstored.cells, hstored.unsettled⟩
  case progress =>
    rw [afterWrite_progress hfit, completedBytes_of_noAbort hfit hno, BitVec.ofNat_toNat, BitVec.setWidth_eq]
  case tx => rw [exec_tx_of_trace h htrace, sentBytes_bulkWriteTrace, sentBytes_blocksTrace _ hno]

end Sys2Proof.Claims
end

section
/-! SUPPORT. The bounds of a transfer along the lines still to run: what a line does to the phase, and that every tick keeps
the check (spec 43_transfer_engine R201, R215; 10_state R24, R26, R28). -/

namespace Sys2Proof.Claims

open Sys2Proof.Machine

/-! ### The lines still to run -/

theorem phaseAfterAll_append (code rest : List Act) (p : Phase) :
    phaseAfterAll (code ++ rest) p = (phaseAfterAll code p).bind (phaseAfterAll rest) := by
  induction code generalizing p with
  | nil => rfl
  | cons a code ih => simp [phaseAfterAll, Option.bind_assoc, ih]

theorem transferBounded_iff (s : State) :
    s.transferBounded = true ↔ ∃ p : Phase, p.holds s = true ∧ ∃ q, phaseAfterAll s.todo p = some q := by
  simp only [State.transferBounded, List.any_eq_true, Bool.and_eq_true, Option.isSome_iff_exists]
  exact ⟨fun ⟨p, _, hp⟩ => ⟨p, hp⟩, fun ⟨p, hp⟩ => ⟨p, by cases p <;> decide, hp⟩⟩

theorem transferBounded_cons {s : State} {a : Act} {rest : List Act} (ht : s.todo = a :: rest) :
    s.transferBounded = true ↔
      ∃ p q r, Phase.holds p s = true ∧ phaseAfter a p = some q ∧ phaseAfterAll rest q = some r := by
  rw [transferBounded_iff]
  simp only [ht, phaseAfterAll, Option.bind_eq_some_iff]
  exact ⟨fun ⟨p, hp, r, q, hq, hr⟩ => ⟨p, q, r, hp, hq, hr⟩, fun ⟨p, q, r, hp, hq, hr⟩ => ⟨p, hp, r, q, hq, hr⟩⟩

/-- A command may begin whatever is known. -/
theorem transferBounded_command (i : Instr) (s : State) :
    State.transferBounded { s with todo := commandCode i } = true :=
  (transferBounded_iff _).mpr ⟨.outside, rfl, by cases i <;> exact ⟨_, rfl⟩⟩

/-! ### Lines that leave the phase as it is -/

/-- The lines that move a transfer on: those of its loops, and those that write a register of its bounds. -/
def boundsLine : Act → Bool
  | .clearProgress | .bumpProgress | .advanceBlock | .whileWrite | .whileRead | .beginReceive | .forReceive | .beginWrite
  | .forWrite | .foldVerified | .recv .wData | .recv .sHi | .recv .lHi => true
  | _ => false

/-- The phase's fact depends on the registers of the bounds alone. -/
theorem holds_congr {p : Phase} {s t : State} (hprog : t.progress = s.progress)
    (hlen : t.transferLength = s.transferLength) (hsize : t.blockSize = s.blockSize) (hi : t.i = s.i) :
    p.holds t = p.holds s := by
  cases p <;> simp only [Phase.holds, hprog, hlen, hsize, hi]

theorem perform_holds {a : Act} {s t : State} (h : perform a s = .moved t) (ha : boundsLine a = false) (p : Phase) :
    p.holds t = p.holds s := by
  have hw : writesProgress a = false ∧ writesTransferLength a = false ∧ writesBlockSize a = false ∧ writesI a = false := by
    cases a
    case recv p => cases p <;> first | (cases ha; done) | exact ⟨rfl, rfl, rfl, rfl⟩
    all_goals first | (cases ha; done) | exact ⟨rfl, rfl, rfl, rfl⟩
  obtain ⟨hprog, hlen, hsize, hi⟩ := hw
  exact holds_congr (perform_progress h hprog) (perform_transferLength h hlen) (perform_blockSize h hsize)
    (perform_i h hi)

/-- Such a line leaves the phase, and so do the lines that it stands for. -/
theorem phaseAfter_steady {a : Act} {p q : Phase} (ha : boundsLine a = false) (h : phaseAfter a p = some q) (s : State) :
    q = p ∧ phaseAfterAll (calledCode a s) p = some p := by
  cases a
  case recv pos =>
    cases pos
    case wCont1 | wCont2 =>
      obtain ⟨rfl, hq⟩ := Option.ite_none_right_eq_some.mp h
      exact ⟨(Option.some.inj hq).symm, rfl⟩
    case sLo | lLo => exact ⟨(Option.some.inj h).symm, rfl⟩
    all_goals cases ha
  case callWriteOneByte =>
    obtain ⟨rfl, hq⟩ := Option.ite_none_right_eq_some.mp h
    exact ⟨(Option.some.inj hq).symm, rfl⟩
  case clearProgress | bumpProgress | advanceBlock | whileWrite | whileRead | beginReceive | forReceive | beginWrite
      | forWrite | foldVerified => cases ha
  all_goals exact ⟨(Option.some.inj h).symm, rfl⟩

/-! ### Lines that move a transfer on -/

/-- The lines in front of those that `s` has still to run lead `t` from a phase that holds there to `q`. -/
def LeadsTo (s t : State) (q : Phase) : Prop :=
  ∃ code p, t.todo = code ++ s.todo ∧ p.holds t = true ∧ phaseAfterAll code p = some q

theorem leadsTo_of_holds {s t : State} {q : Phase} (ht : t.todo = s.todo) (hq : q.holds t = true) : LeadsTo s t q :=
  ⟨[], q, ht, hq, rfl⟩

/-- Below a length, the sum of two lengths does not wrap. -/
theorem toNat_add_of_le {x y z : Len} (h : x.toNat + y.toNat ≤ z.toNat) : (x + y).toNat = x.toNat + y.toNat := by
  have := z.isLt
  rw [BitVec.toNat_add]
  omega

/-- With bytes left, the next block fits into what is left (R201). -/
theorem nextBlock_fits {s : State} (h : bytesRemain s = true) :
    1 ≤ (nextBlockSize s).toNat ∧ (nextBlockSize s).toNat ≤ 512 ∧
      s.progress.toNat + (nextBlockSize s).toNat ≤ s.transferLength.toNat := by
  have hsize : (nextBlockSize s).toNat = min 512 (s.transferLength.toNat - s.progress.toNat) := toNat_nextBlockSize h
  simp only [bytesRemain, decide_eq_true_eq] at h
  omega

/-- The loops of the two transfers: a turn begins in the phase of its body, and the last test leaves the phase. -/
theorem perform_while_leadsTo {a : Act} {s t : State} {p q : Phase} (ha : a = .whileWrite ∨ a = .whileRead)
    (h : perform a s = .moved t) (hp : p.holds s = true) (hq : phaseAfter a p = some q) : LeadsTo s t q := by
  rcases ha with rfl | rfl <;> obtain ⟨rfl, hq⟩ := Option.ite_none_right_eq_some.mp hq <;> cases hq <;> cases h
  · cases hb : bytesRemain s
    · exact leadsTo_of_holds rfl hp
    · exact ⟨writeBody, .block, rfl, decide_eq_true (nextBlock_fits hb), rfl⟩
  · cases hb : bytesRemain s
    · exact leadsTo_of_holds rfl hp
    · exact ⟨readBody, .readByte, rfl, hb, rfl⟩

/-- The loops of a block: a turn begins at a cell of the block, and the last test leaves the phase. -/
theorem perform_for_leadsTo {a : Act} {s t : State} {p q : Phase} (ha : a = .forReceive ∨ a = .forWrite)
    (h : perform a s = .moved t) (hp : p.holds s = true) (hq : phaseAfter a p = some q) : LeadsTo s t q := by
  have hcell : p = .block → blockRemains s = true → Phase.cell.holds s = true := by
    rintro rfl hb
    simp only [Phase.holds, decide_eq_true_eq, blockRemains] at hp hb ⊢
    omega
  rcases ha with rfl | rfl <;> obtain ⟨rfl, hq⟩ := Option.ite_none_right_eq_some.mp hq <;> cases hq <;> cases h
  · cases hb : blockRemains s
    · exact leadsTo_of_holds rfl hp
    · exact ⟨[.recv .wData, .forReceive], .cell, rfl, hcell rfl hb, rfl⟩
  · cases hb : blockRemains s
    · exact leadsTo_of_holds rfl hp
    · exact ⟨[.callWriteOneByte, .foldVerified, .forWrite], .cell, rfl, hcell rfl hb, rfl⟩

/-- Within a block, the fact of a cell is that of its block. -/
theorem block_holds_of_cell {s : State} (h : Phase.cell.holds s = true) : Phase.block.holds s = true := by
  simp only [Phase.holds, decide_eq_true_eq] at h ⊢
  omega

/-- A line that moves a transfer on leads to the phase of the check. -/
theorem perform_boundsLine_leadsTo {a : Act} {s t : State} {p q : Phase} (ha : boundsLine a = true)
    (h : perform a s = .moved t) (hp : p.holds s = true) (hq : phaseAfter a p = some q) : LeadsTo s t q := by
  cases a
  case whileWrite => exact perform_while_leadsTo (.inl rfl) h hp hq
  case whileRead => exact perform_while_leadsTo (.inr rfl) h hp hq
  case forReceive => exact perform_for_leadsTo (.inl rfl) h hp hq
  case forWrite => exact perform_for_leadsTo (.inr rfl) h hp hq
  case clearProgress =>
    cases h
    cases hq
    exact leadsTo_of_holds rfl (by simp [Phase.holds])
  case bumpProgress =>
    cases p
    case outside =>
      cases h
      cases hq
      exact leadsTo_of_holds rfl rfl
    case readByte =>
      cases h
      cases hq
      have hlt : s.progress.toNat + (1 : Len).toNat ≤ s.transferLength.toNat := of_decide_eq_true hp
      exact leadsTo_of_holds rfl (decide_eq_true ((toNat_add_of_le hlt).trans_le hlt))
    all_goals cases hq
  case advanceBlock =>
    cases h
    obtain ⟨rfl, hq⟩ := Option.ite_none_right_eq_some.mp hq
    cases hq
    obtain ⟨_, _, hfits⟩ := of_decide_eq_true hp
    exact leadsTo_of_holds rfl (decide_eq_true ((toNat_add_of_le hfits).trans_le hfits))
  case beginReceive | beginWrite =>
    cases h
    obtain ⟨rfl, hq⟩ := Option.ite_none_right_eq_some.mp hq
    cases hq
    exact leadsTo_of_holds rfl hp
  case foldVerified =>
    cases h
    obtain ⟨rfl, hq⟩ := Option.ite_none_right_eq_some.mp hq
    cases hq
    exact leadsTo_of_holds rfl (block_holds_of_cell (s := s) hp)
  case recv pos =>
    obtain ⟨b, rest, _, rfl⟩ := perform_recv h
    cases pos
    case wData =>
      obtain ⟨rfl, hq⟩ := Option.ite_none_right_eq_some.mp hq
      cases hq
      exact leadsTo_of_holds rfl (block_holds_of_cell (s := s) hp)
    case sHi | lHi =>
      obtain ⟨rfl, hq⟩ := Option.ite_none_right_eq_some.mp hq
      cases hq
      exact leadsTo_of_holds rfl rfl
    all_goals cases ha
  all_goals cases ha

/-! ### Every tick -/

/-- A line leads to the phase of the check, or a Bulk Write breaks to its exit. -/
theorem perform_leadsTo {a : Act} {s t : State} {p q : Phase} (h : perform a s = .moved t) (hp : p.holds s = true)
    (hq : phaseAfter a p = some q) : t.todo = writeExit ∨ LeadsTo s t q := by
  cases ha : boundsLine a
  case false =>
    obtain ⟨rfl, hcode⟩ := phaseAfter_steady ha hq s
    have hp' : q.holds t = true := (perform_holds h ha q).trans hp
    rcases perform_todo_eq h with ht | ht | ht
    · exact .inr (leadsTo_of_holds ht hp')
    · exact .inr ⟨_, q, ht, hp', hcode⟩
    · exact .inl ht
  case true => exact .inr (perform_boundsLine_leadsTo ha h hp hq)

theorem transferBounded_advance {s t : State} (hs : s.transferBounded = true) (h : advance s = .moved t) :
    t.transferBounded = true := by
  obtain ⟨a, rest, ht, hp⟩ := advance_moved h
  obtain ⟨p, q, r, hholds, hq, hr⟩ := (transferBounded_cons ht).mp hs
  refine (transferBounded_iff t).mpr ?_
  rcases perform_leadsTo (s := { s with todo := rest }) hp hholds hq with ht' | ⟨code, p', ht', hholds', hcode⟩
  · exact ⟨.outside, rfl, .outside, by rw [ht']; rfl⟩
  · exact ⟨p', hholds', r, by rw [ht', phaseAfterAll_append, hcode]; exact hr⟩

/-- Settles O56: reset and the fetch begin outside a transfer, and a line leads from phase to phase. -/
theorem transferBoundsKept : Obligations.TransferBoundsKept := by
  intro s t hs h
  rcases tick_next h with ⟨_, rfl⟩ | ⟨_, _, b, rest, _, rfl⟩ | ⟨_, ha⟩ | ⟨_, _, rfl⟩
  · exact (transferBounded_iff _).mpr ⟨.outside, rfl, .outside, rfl⟩
  · exact transferBounded_command (decodeByte b) { s with rx := rest, trace := s.trace ++ [.rx b] }
  · exact transferBounded_advance hs ha
  · exact hs

/-! ### What the check says of the present state -/

/-- Outside a transfer, only clearing `progress` begins one, and no loop test of one may stand. -/
theorem phaseAfter_outside {a : Act} {q : Phase} (h : phaseAfter a .outside = some q) (ha : a ≠ .clearProgress) :
    q = .outside ∧ a ≠ .whileWrite ∧ a ≠ .whileRead := by
  cases hb : boundsLine a
  case false =>
    obtain ⟨hq, _⟩ := phaseAfter_steady hb h State.reset
    exact ⟨hq, fun e => by simp [e, boundsLine] at hb, fun e => by simp [e, boundsLine] at hb⟩
  case true =>
    cases a
    case clearProgress => exact absurd rfl ha
    case bumpProgress => exact ⟨(Option.some.inj h).symm, nofun, nofun⟩
    case recv pos =>
      cases pos
      case sHi | lHi => exact ⟨(Option.some.inj h).symm, nofun, nofun⟩
      case wData => cases h
      all_goals cases hb
    case advanceBlock | whileWrite | whileRead | beginReceive | forReceive | beginWrite | forWrite | foldVerified => cases h
    all_goals cases hb

theorem phaseAfterAll_outside {todo : List Act} {q : Phase} (h : phaseAfterAll todo .outside = some q)
    (hclear : .clearProgress ∉ todo) : .whileWrite ∉ todo ∧ .whileRead ∉ todo := by
  induction todo with
  | nil => exact ⟨nofun, nofun⟩
  | cons a todo ih =>
    obtain ⟨ha, hclear⟩ := not_or.mp (mt List.mem_cons.mpr hclear)
    obtain ⟨q', hq', hrest⟩ := Option.bind_eq_some_iff.mp h
    obtain ⟨rfl, hwrite, hread⟩ := phaseAfter_outside hq' (Ne.symm ha)
    obtain ⟨hwrite', hread'⟩ := ih hrest hclear
    exact ⟨by simp [hwrite.symm, hwrite'], by simp [hread.symm, hread']⟩

theorem progress_le_of_holds {p : Phase} {s : State} (h : p.holds s = true) (hp : p ≠ .outside) :
    s.progress.toNat ≤ s.transferLength.toNat := by
  cases p
  case outside => exact absurd rfl hp
  all_goals
    simp only [Phase.holds, decide_eq_true_eq] at h
    omega

/-- A cell of the block is staged or written in the phase of a cell. -/
theorem cell_holds_of_todo {s : State} {rest : List Act} (hs : s.transferBounded = true)
    (ht : s.todo = .recv .wData :: rest ∨ s.todo = .callWriteOneByte :: rest) : Phase.cell.holds s = true := by
  rcases ht with ht | ht
  all_goals
    obtain ⟨p, q, r, hp, hq, _⟩ := (transferBounded_cons ht).mp hs
    obtain ⟨rfl, _⟩ := Option.ite_none_right_eq_some.mp hq
    exact hp

/-- Settles O57: the loop of a transfer is left in a phase that bounds `progress`, and a cell is staged or written in the
phase that bounds `i`. -/
theorem progressWithinLength : Obligations.ProgressWithinLength := by
  intro s hs
  refine ⟨fun hloop => ?progress, fun rest ht => ?cell⟩
  case progress =>
    obtain ⟨p, hp, q, hq⟩ := (transferBounded_iff s).mp hs
    refine progress_le_of_holds hp ?_
    rintro rfl
    simp only [State.inTransferLoop, Bool.and_eq_true, Bool.or_eq_true, Bool.not_eq_true', List.contains_eq_mem,
      decide_eq_true_eq, decide_eq_false_iff_not] at hloop
    obtain ⟨hmem, hclear⟩ := hloop
    obtain ⟨hwrite, hread⟩ := phaseAfterAll_outside hq hclear
    exact hmem.elim hwrite hread
  case cell =>
    obtain ⟨hi, hsize, _⟩ := of_decide_eq_true (cell_holds_of_todo hs ht)
    exact ⟨hi, hsize⟩

/-! ### The size of a block -/

/-- Settles O41: the test of the loop is one line, and 512 divides what has been transferred at a block's boundary. -/
theorem blockSizeRule : Obligations.BlockSizeRule := by
  intro s rest hr ht
  constructor
  · intro hlt
    have hb : bytesRemain s = true := decide_eq_true hlt
    have hsize : (nextBlockSize s).toNat = min 512 (s.transferLength.toNat - s.progress.toNat) := toNat_nextBlockSize hb
    have htest : perform .whileWrite { s with todo := rest } =
        .moved { s with todo := writeBody ++ rest, blockSize := nextBlockSize s } := congrArg Advance.moved (if_pos hb)
    refine ⟨tick_of_perform hr ht htest, hsize, by omega, by omega, fun hboundary => ?_⟩
    split
    · omega
    · split <;> omega
  · intro hle
    have hb : ¬bytesRemain s = true := fun h => absurd (of_decide_eq_true h) (not_lt.mpr hle)
    have htest : perform .whileWrite { s with todo := rest } = .moved { s with todo := rest } :=
      congrArg Advance.moved (if_neg hb)
    exact tick_of_perform hr ht htest

end Sys2Proof.Claims
end

section
/-! SUPPORT. Where a Bulk Write stores, on every path: an address is set only for a byte of the transfer, and a program pulse
ends only with such an address on the lines (spec 43_transfer_engine R204; 20_memory R64; 10_state R41). -/

namespace Sys2Proof.Claims

open Sys2Proof.Machine

/-! ### Addresses of the transfer -/

/-- `c` is the chip address of a byte of the transfer (43_transfer_engine R204). -/
def InTransfer (base : Word) (len : Len) (c : ChipAddr) : Prop :=
  ∃ k : Nat, k < len.toNat ∧ c = chipAddrOf (base + BitVec.ofNat 16 k)

/-- Within a block, the byte that `i` selects is a byte of the transfer. -/
theorem inTransfer_writeAddress {s : State} (h : Phase.cell.holds s = true) :
    InTransfer s.baseAddress s.transferLength (chipAddrOf (writeAddress s)) := by
  obtain ⟨hi, _, hfits⟩ := of_decide_eq_true h
  refine ⟨s.progress.toNat + s.i.toNat, by omega, congrArg chipAddrOf ?_⟩
  simp [writeAddress, BitVec.ofNat_add, BitVec.add_assoc]

/-! ### The lines of a Bulk Write -/

/-- The lines that end a program pulse, or stand for lines that do. -/
def pulseLine : Act → Bool
  | .pgmDeassert | .attempt _ | .untilVerified _ => true
  | _ => false

/-- Only the call of a Write-one-byte brings a line that sets the address. -/
theorem setAddress_mem_calledCode {a : Act} {b : Word} {s : State} (ha : commandLine .write a = true)
    (h : .setAddress b ∈ calledCode a s) : a = .callWriteOneByte ∧ b = writeAddress s := by
  cases a
  case callWriteOneByte => simpa [calledCode, writeOneByteCode] using h
  case callReadOneByte | whileRead => cases ha
  all_goals simp [calledCode, attemptCode, writeBody] at h

/-- Only an attempt, and the call of a Write-one-byte behind its address, bring lines that pulse. -/
theorem pulseLine_calledCode {a : Act} (ha : pulseLine a = false) (hcall : a ≠ .callWriteOneByte) (s : State) :
    (calledCode a s).any pulseLine = false := by
  cases a
  case callWriteOneByte => exact absurd rfl hcall
  case attempt | untilVerified => cases ha
  all_goals rfl

theorem perform_chipAddr {a : Act} {s t : State} (h : perform a s = .moved t) (ha : commandLine .write a = true)
    (hne : ∀ b, a ≠ .setAddress b) : Bus.chipAddr t.bus = Bus.chipAddr s.bus := by
  cases hw : writesBus a
  case false => rw [perform_bus h hw]
  case true =>
    cases a
    case setAddress b => exact absurd rfl (hne b)
    case driveData d =>
      obtain ⟨_, rfl⟩ := perform_driveData h
      rfl
    case enterWriteMode | enterReadMode | busToInput | busToOutput | chipEnable | chipDisable | oeAssert | oeDeassert
        | pgmAssert | pgmDeassert =>
      cases h
      rfl
    case reinitAddress | applyPattern => cases ha
    all_goals cases hw

/-! ### The invariant -/

/-- A state of a Bulk Write: every address still to be set is one of the transfer, and if a pulse is ahead, the address on
the lines is one, or is set next. -/
structure PulsesInTransfer (base : Word) (len : Len) (s : State) : Prop where
  base_eq : s.baseAddress = base
  len_eq : s.transferLength = len
  bounded : s.transferBounded = true
  lines : ∀ a ∈ s.todo, commandLine .write a = true
  addresses : ∀ b, .setAddress b ∈ s.todo → InTransfer base len (chipAddrOf b)
  pulses : s.todo.any pulseLine = false ∨ (∃ b rest, s.todo = .setAddress b :: rest) ∨
    InTransfer base len (Bus.chipAddr s.bus)

theorem pulsesInTransfer_start (s : State) :
    PulsesInTransfer s.baseAddress s.transferLength { s with todo := writeCode } where
  base_eq := rfl
  len_eq := rfl
  bounded := transferBounded_command .write s
  lines := commandLine_code .write
  addresses b h := by simp [writeCode, writeExit] at h
  pulses := .inl rfl

/-- A line that puts an address on `todo` puts one of the transfer there. -/
theorem PulsesInTransfer.addresses_next {base : Word} {len : Len} {s t : State} {a : Act} {rest : List Act}
    (h : PulsesInTransfer base len s) (ht : s.todo = a :: rest) (hp : perform a { s with todo := rest } = .moved t)
    (b : Word) (hb : .setAddress b ∈ t.todo) : InTransfer base len (chipAddrOf b) := by
  have hrest : .setAddress b ∈ rest → InTransfer base len (chipAddrOf b) := fun hb =>
    h.addresses b (ht ▸ List.mem_cons_of_mem a hb)
  rcases perform_todo_eq hp with ht' | ht' | ht' <;> rw [ht'] at hb
  · exact hrest hb
  · rcases List.mem_append.mp hb with hb | hb
    · obtain ⟨rfl, rfl⟩ := setAddress_mem_calledCode (h.lines a (ht ▸ List.mem_cons_self)) hb
      rw [← h.base_eq, ← h.len_eq]
      exact inTransfer_writeAddress (cell_holds_of_todo h.bounded (.inr ht))
    · exact hrest hb
  · simp [writeExit] at hb

/-- A line that moves keeps the address of a pulse ahead one of the transfer. -/
theorem PulsesInTransfer.pulses_next {base : Word} {len : Len} {s t : State} {a : Act} {rest : List Act}
    (h : PulsesInTransfer base len s) (ht : s.todo = a :: rest) (hp : perform a { s with todo := rest } = .moved t) :
    t.todo.any pulseLine = false ∨ (∃ b rest, t.todo = .setAddress b :: rest) ∨
      InTransfer base len (Bus.chipAddr t.bus) := by
  by_cases hset : ∃ b, a = .setAddress b
  · obtain ⟨b, rfl⟩ := hset
    cases hp
    rw [chipAddr_setAddress]
    exact .inr (.inr (h.addresses b (ht ▸ List.mem_cons_self)))
  · have hne : ∀ b, a ≠ .setAddress b := fun b hb => hset ⟨b, hb⟩
    rcases h.pulses with hnone | ⟨b, rest', hb⟩ | haddr
    · rw [ht, List.any_cons, Bool.or_eq_false_iff] at hnone
      obtain ⟨ha, hnone⟩ := hnone
      by_cases hcall : a = .callWriteOneByte
      · subst hcall
        cases hp
        exact .inr (.inl ⟨_, _, rfl⟩)
      · refine .inl ?_
        rcases perform_todo_eq hp with ht' | ht' | ht' <;> rw [ht']
        · exact hnone
        · rw [List.any_append, pulseLine_calledCode ha hcall]
          exact hnone
        · rfl
    · exact absurd (List.cons.inj (ht.symm.trans hb)).1 (hne b)
    · rw [perform_chipAddr hp (h.lines a (ht ▸ List.mem_cons_self)) hne]
      exact .inr (.inr haddr)

theorem PulsesInTransfer.advance {base : Word} {len : Len} {s t : State} (h : PulsesInTransfer base len s)
    (hadv : advance s = .moved t) : PulsesInTransfer base len t := by
  obtain ⟨⟨a, rest, ht, ha, hp⟩, hlines⟩ := advance_line h.lines hadv
  have hbase := perform_baseAddress hp (writesBaseAddress_of_commandLine (i := .write) nofun nofun a ha)
  have hlen := perform_transferLength hp (writesTransferLength_of_commandLine (i := .write) nofun a ha)
  exact ⟨hbase.trans h.base_eq, hlen.trans h.len_eq, transferBounded_advance h.bounded hadv, hlines,
    h.addresses_next ht hp, h.pulses_next ht hp⟩

/-! ### The cells -/

/-- A pulse leaves every other cell. -/
theorem pulse_leaves_cell (c : Chip) {a x : Nat} (v : Byte) (h : x ≠ a) :
    (c.pulse a v).cells.read x = c.cells.read x ∧ (x ∈ (c.pulse a v).unsettled ↔ x ∈ c.unsettled) := by
  by_cases hm : c.model = .ideal
  · obtain ⟨hcells, hopen⟩ := Chip.pulse_ideal c a x v hm
    exact ⟨hcells.trans (if_neg h), hopen.trans (and_iff_left h)⟩
  · obtain ⟨hcells, hopen⟩ := Chip.pulse_other c a v hm
    rw [hcells, hopen]
    exact ⟨rfl, Iff.rfl⟩

/-- A line of a Bulk Write leaves every cell that is none of the transfer. -/
theorem PulsesInTransfer.leaves_cell {base : Word} {len : Len} {s t : State} (h : PulsesInTransfer base len s)
    (hadv : Machine.advance s = .moved t) {x : Nat} (hx : ∀ c, InTransfer base len c → x ≠ c.toNat) :
    t.chip.cells.read x = s.chip.cells.read x ∧ (x ∈ t.chip.unsettled ↔ x ∈ s.chip.unsettled) := by
  obtain ⟨a, rest, ht, hp⟩ := advance_moved hadv
  by_cases ha : a = .pgmDeassert
  · subst ha
    have haddr : InTransfer base len (Bus.chipAddr s.bus) := by
      rcases h.pulses with hnone | ⟨b, rest', hb⟩ | haddr
      · simp [ht, pulseLine] at hnone
      · simp [ht] at hb
      · exact haddr
    cases hp
    rw [(pgmDeassert_writes _).2.1]
    split
    · exact pulse_leaves_cell s.chip s.bus.dout (hx _ haddr)
    · exact ⟨rfl, Iff.rfl⟩
  · obtain ⟨hcells, hopen⟩ := perform_cells hp ha
    rw [hcells, hopen]
    exact ⟨rfl, Iff.rfl⟩

/-- Settles O46: a pulse is always at an address of the transfer, wherever the command stops. -/
theorem writeStoresOnlyInRange : Obligations.WriteStoresOnlyInRange := by
  intro s t h x hx
  rw [exec_eq] at h
  have hout : ∀ c, InTransfer s.baseAddress s.transferLength c → x ≠ c.toNat := by
    rintro c ⟨k, hk, rfl⟩
    exact hx k hk
  refine (run_keeps (P := fun u => PulsesInTransfer s.baseAddress s.transferLength u ∧
    (u.chip.cells.read x = s.chip.cells.read x ∧ (x ∈ u.chip.unsettled ↔ x ∈ s.chip.unsettled))) ?_ h
    ⟨pulsesInTransfer_start s, rfl, Iff.rfl⟩).2
  rintro u v ⟨hu, hcells, hopen⟩ hadv
  obtain ⟨hcells', hopen'⟩ := hu.leaves_cell hadv hout
  exact ⟨hu.advance hadv, hcells'.trans hcells, hopen'.trans hopen⟩

end Sys2Proof.Claims
end

section
/-! SUPPORT. Programming is the business of a Bulk Write and of the diagnostic commands: no line of another command enables
VPP, asserts the program strobe or applies a pattern (spec 60_exceptions R240; 40_bus_driver R122, R132). -/

namespace Sys2Proof.Claims

open Sys2Proof.Machine

/-- The events with which programming begins: VPP enabled, the strobe asserted, all lines set by a pattern. -/
def isProgrammingEvent : Event → Bool
  | .vpp true | .pgm true | .pattern _ => true
  | _ => false

/-- The lines with such an event. -/
def programmingLine : Act → Bool
  | .enterWriteMode | .pgmAssert | .applyPattern _ => true
  | _ => false

theorem isProgrammingEvent_of_mem_lineEvents {a : Act} {s : State} {e : Event} (ha : programmingLine a = false)
    (he : e ∈ lineEvents a s) : isProgrammingEvent e = false := by
  cases a
  case enterWriteMode | pgmAssert | applyPattern => cases ha
  case recv p =>
    obtain ⟨b, _, rfl⟩ := List.mem_map.mp he
    rfl
  case enterReadMode =>
    simp only [lineEvents, List.mem_cons, List.not_mem_nil, or_false] at he
    rcases he with rfl | rfl | rfl <;> rfl
  case reinitAddress =>
    simp only [lineEvents] at he
    split at he
    · rw [List.mem_singleton.mp he]
      rfl
    · cases he
  case setAddress | driveData | sampleData | busToInput | busToOutput | chipEnable | chipDisable | oeAssert | oeDeassert
      | pgmDeassert | wait | send =>
    rw [List.mem_singleton.mp he]
    rfl
  all_goals cases he

theorem programmingLine_of_commandLine {i : Instr} (hw : i ≠ .write) (h1 : i ≠ .diag1) (h2 : i ≠ .diag2) {a : Act}
    (h : commandLine i a = true) : programmingLine a = false := by
  cases i
  case write => exact absurd rfl hw
  case diag1 => exact absurd rfl h1
  case diag2 => exact absurd rfl h2
  all_goals
    cases a
    case enterWriteMode | pgmAssert | applyPattern => cases h
    all_goals rfl

/-- The trace has grown from that of `s` to that of `t` by events none of which begins programming. -/
def NotProgrammedSince (s t : State) : Prop :=
  ∃ es, t.trace = s.trace ++ es ∧ ∀ e ∈ es, isProgrammingEvent e = false

theorem NotProgrammedSince.refl (s : State) : NotProgrammedSince s s := ⟨[], by simp⟩

theorem NotProgrammedSince.perform {a : Act} {s t u : State} (h : NotProgrammedSince s t)
    (ha : programmingLine a = false) (hp : Machine.perform a t = .moved u) : NotProgrammedSince s u := by
  obtain ⟨es, htrace, hes⟩ := h
  obtain ⟨htrace', _⟩ := perform_accounts hp
  exact ⟨es ++ lineEvents a t, by rw [htrace', htrace, List.append_assoc],
    List.forall_mem_append.mpr ⟨hes, fun _ => isProgrammingEvent_of_mem_lineEvents ha⟩⟩

/-- Settles O47: each line of another command adds only events with which no programming begins, wherever the command
stops. -/
theorem onlyWriteRaisesVppOrPgm : Obligations.OnlyWriteRaisesVppOrPgm := by
  intro i s t h hw h1 h2
  obtain ⟨es, htrace, hes⟩ := exec_keeps (P := NotProgrammedSince s)
    (fun _ _ _ ha hu hp => hu.perform (programmingLine_of_commandLine hw h1 h2 ha) hp) (fun _ _ hu => hu) h
    (NotProgrammedSince.refl s)
  have hnone : ∀ e, isProgrammingEvent e = true → e ∉ es := fun e he hm => by
    rw [hes e hm] at he
    cases he
  exact ⟨es, htrace, hnone _ rfl, hnone _ rfl, fun _ => hnone _ rfl⟩

end Sys2Proof.Claims
end

section
/-! SUPPORT. The bus discipline along the lines still to run: what a line does to the control lines, that the lines it stands
for keep the discipline, and that every tick does (spec 10_state R38, R39; 70_reset_and_hazards R270 (b), (c), R271, R274,
R276). -/

namespace Sys2Proof.Claims

open Sys2Proof.Machine

/-! ### The guards of a line -/

theorem whenQuiet_eq_some {l l' m : Lines} :
    whenQuiet l l' = some m ↔ (l.oe = false ∧ l.pgm = false) ∧ l' = m := by
  simp [whenQuiet]

theorem whenNoPulse_eq_some {l l' m : Lines} : whenNoPulse l l' = some m ↔ l.pgm = false ∧ l' = m := by
  simp [whenNoPulse]

theorem onlyAt_eq_some {want l m : Lines} : onlyAt want l = some m ↔ l = want ∧ l = m := by
  simp [onlyAt]

/-! ### The lines after a line -/

/-- A line that leaves the bus is checked to leave its lines. -/
theorem linesAfter_of_writesBus_false {a : Act} {l l' : Lines} (ha : writesBus a = false)
    (h : linesAfter a l = some l') : l' = l := by
  cases a
  case wait => exact (Option.some.inj h).symm
  case sampleData => exact (whenNoPulse_eq_some.mp (Option.ite_none_right_eq_some.mp h).2).2.symm
  case recv p =>
    cases p
    case wData | wCont1 | wCont2 => exact (onlyAt_eq_some.mp h).2.symm
    all_goals exact (whenNoPulse_eq_some.mp h).2.symm
  case forReceive | attempt | untilVerified | callWriteOneByte | forWrite | whileWrite | callReadOneByte | whileRead =>
    exact (onlyAt_eq_some.mp h).2.symm
  case send | clearBase | clearProgress | bumpProgress | clearCrc | foldCrc | clearAttempt | beginReceive | beginWrite
      | foldVerified | advanceBlock =>
    exact (whenNoPulse_eq_some.mp h).2.symm
  all_goals cases ha

/-- A line leaves the control lines that the check says. -/
theorem perform_lines {a : Act} {s t : State} {l : Lines} (h : perform a s = .moved t)
    (hl : linesAfter a (Bus.lines s.bus) = some l) : Bus.lines t.bus = l := by
  cases hw : writesBus a
  case false => rw [perform_bus h hw, linesAfter_of_writesBus_false hw hl]
  case true =>
    cases a
    case driveData b =>
      obtain ⟨_, rfl⟩ := perform_driveData h
      exact (whenQuiet_eq_some.mp (Option.ite_none_right_eq_some.mp hl).2).2
    case reinitAddress =>
      cases h
      rw [(reinitAddress_writes s).1]
      split <;> exact (whenQuiet_eq_some.mp hl).2
    case setAddress | enterWriteMode | enterReadMode | busToInput | busToOutput | chipEnable | chipDisable =>
      cases h
      exact (whenQuiet_eq_some.mp hl).2
    case oeAssert =>
      cases h
      exact (whenQuiet_eq_some.mp (Option.ite_none_right_eq_some.mp hl).2).2
    case oeDeassert =>
      cases h
      exact (whenNoPulse_eq_some.mp hl).2
    case pgmAssert | pgmDeassert =>
      cases h
      exact Option.some.inj (Option.ite_none_right_eq_some.mp hl).2
    case applyPattern => cases hl
    all_goals cases hw

/-- With the strobe off, R38 is all that the invariants of one instant ask. -/
theorem ok_of_pgm_off {l : Lines} (hpgm : l.pgm = false) (hoe : l.dir = .output → l.oe = false) : l.ok = true := by
  cases hdir : l.dir <;> simp [Lines.ok, hpgm, hdir, hoe]

/-- A line that the check allows keeps R38 and R39. -/
theorem ok_linesAfter {a : Act} {l l' : Lines} (hok : l.ok = true) (h : linesAfter a l = some l') : l'.ok = true := by
  cases hw : writesBus a
  case false => rwa [linesAfter_of_writesBus_false hw h]
  case true =>
    cases a
    case setAddress | reinitAddress | enterWriteMode | enterReadMode | busToInput | busToOutput | chipEnable
        | chipDisable =>
      obtain ⟨⟨hoe, hpgm⟩, rfl⟩ := whenQuiet_eq_some.mp h
      exact ok_of_pgm_off hpgm fun _ => hoe
    case driveData =>
      obtain ⟨⟨hoe, hpgm⟩, rfl⟩ := whenQuiet_eq_some.mp (Option.ite_none_right_eq_some.mp h).2
      exact ok_of_pgm_off hpgm fun _ => hoe
    case oeAssert =>
      obtain ⟨⟨hdir, _⟩, h⟩ := Option.ite_none_right_eq_some.mp h
      obtain ⟨⟨_, hpgm⟩, rfl⟩ := whenQuiet_eq_some.mp h
      exact ok_of_pgm_off hpgm fun hout => absurd (hdir.symm.trans hout) nofun
    case oeDeassert =>
      obtain ⟨hpgm, rfl⟩ := whenNoPulse_eq_some.mp h
      exact ok_of_pgm_off hpgm fun _ => rfl
    case pgmAssert =>
      obtain ⟨rfl, h⟩ := Option.ite_none_right_eq_some.mp h
      cases h
      rfl
    case pgmDeassert =>
      obtain ⟨_, h⟩ := Option.ite_none_right_eq_some.mp h
      cases h
      exact ok_of_pgm_off rfl (oe_off_of_output (l := l) hok)
    case applyPattern => cases h
    all_goals cases hw

/-- The check of the control lines allows no line that the check of the direction forbids. -/
theorem dirAfter_ne_none_of_linesAfter {a : Act} {l l' : Lines} (h : linesAfter a l = some l') :
    dirAfter a l.dir ≠ none := by
  cases a
  case driveData => simp [dirAfter, (Option.ite_none_right_eq_some.mp h).1]
  case sampleData => simp [dirAfter, (linesAfter_sampleData h).1]
  case callReadOneByte | whileRead | attempt | untilVerified | callWriteOneByte | forWrite | whileWrite =>
    obtain ⟨rfl, _⟩ := onlyAt_eq_some.mp h
    nofun
  all_goals nofun

/-! ### The lines that a line stands for -/

theorem linesAfterAll_append (code rest : List Act) (l : Lines) :
    linesAfterAll (code ++ rest) l = (linesAfterAll code l).bind (linesAfterAll rest) := by
  induction code generalizing l with
  | nil => rfl
  | cons a code ih => simp [linesAfterAll, Option.bind_assoc, ih]

/-- The lines that a line stands for are allowed where it leaves the control lines, and leave them so. -/
theorem linesAfterAll_calledCode {a : Act} {l l' : Lines} (h : linesAfter a l = some l') (s : State) :
    linesAfterAll (calledCode a s) l' = some l' := by
  cases a
  case attempt | untilVerified | callReadOneByte | callWriteOneByte | whileWrite | whileRead | forReceive | forWrite =>
    obtain ⟨rfl, rfl⟩ := onlyAt_eq_some.mp h
    rfl
  all_goals rfl

/-- Only a continuation byte breaks a Bulk Write (43_transfer_engine R203, R205): after any other line the lines still to
run are as they were, or its own come before them. -/
theorem perform_todo_cases {a : Act} {s t : State} (h : perform a s = .moved t) :
    t.todo = s.todo ∨ t.todo = calledCode a s ++ s.todo ∨
      (a = .recv .wCont1 ∨ a = .recv .wCont2) ∧ t.todo = writeExit := by
  cases a
  case recv p =>
    obtain ⟨b, rest, _, rfl⟩ := perform_recv h
    cases p
    case wCont1 | wCont2 =>
      simp only [receive]
      split <;> simp
    all_goals exact .inl rfl
  case send v => obtain ⟨_, rfl⟩ := perform_send h; exact .inl rfl
  case driveData b => obtain ⟨_, rfl⟩ := perform_driveData h; exact .inl rfl
  case sampleData r => obtain ⟨_, rfl⟩ := perform_sampleData h; exact .inl (by simp)
  case untilVerified | whileWrite | whileRead | forReceive | forWrite =>
    cases h
    split <;> simp [calledCode]
  all_goals
    cases h
    simp [calledCode]

/-! ### Every tick -/

/-- A command that is no diagnostic one may begin in `IDLE`. -/
theorem busDisciplined_command {i : Instr} {s : State} (h1 : i ≠ .diag1) (h2 : i ≠ .diag2)
    (hl : Bus.lines s.bus = idleLines) : State.busDisciplined { s with todo := commandCode i } = true := by
  rw [busDisciplined_iff, hl]
  cases i
  case diag1 => exact absurd rfl h1
  case diag2 => exact absurd rfl h2
  all_goals exact ⟨rfl, rfl⟩

/-- A line that moves keeps the discipline: the lines it puts there leave the control lines that the rest is checked for, and
a Bulk Write breaks to its exit only from the write lines. -/
theorem busDisciplined_advance {s t : State} (hs : s.busDisciplined = true) (h : advance s = .moved t) :
    t.busDisciplined = true := by
  obtain ⟨a, rest, ht, hp⟩ := advance_moved h
  obtain ⟨hok, hall⟩ := (busDisciplined_iff s).mp hs
  rw [ht] at hall
  obtain ⟨l, hl, hrest⟩ := linesAfterAll_cons_eq_some.mp hall
  rw [busDisciplined_iff, perform_lines hp hl]
  refine ⟨ok_linesAfter hok hl, ?_⟩
  rcases perform_todo_cases hp with ht' | ht' | ⟨hcont, ht'⟩ <;> rw [ht']
  · exact hrest
  · rw [linesAfterAll_append, linesAfterAll_calledCode hl]
    exact hrest
  · have hwrite : l = writeLines := by
      rcases hcont with rfl | rfl <;> obtain ⟨hw, rfl⟩ := onlyAt_eq_some.mp hl <;> exact hw
    rw [hwrite]
    rfl

theorem advance_ne_fault_of_disciplined {s : State} (hs : s.busDisciplined = true) (f : Fault) :
    advance s ≠ .fault f := by
  intro h
  cases ht : s.todo with
  | nil => simp [advance_nil ht] at h
  | cons a rest =>
    rw [advance_cons ht] at h
    obtain ⟨_, hl⟩ := busDisciplined_head hs ht
    exact dirAfter_ne_none_of_linesAfter hl (dirAfter_of_fault (s := { s with todo := rest }) h)

theorem decodeByte_ne_diagnostic {op : Byte} (h1 : op ≠ Config.cmdDiag1) (h2 : op ≠ Config.cmdDiag2) :
    decodeByte op ≠ .diag1 ∧ decodeByte op ≠ .diag2 := by
  obtain ⟨_, hop⟩ := decodeByte_wf_opByte op
  exact ⟨fun h => h1 (hop.symm.trans (congrArg Instr.opByte h)), fun h => h2 (hop.symm.trans (congrArg Instr.opByte h))⟩

/-- Settles O52: reset ends on idle lines, a command that is no diagnostic one is disciplined from idle lines, and every line
keeps the check and does not fault. -/
theorem busDisciplineKept : Obligations.BusDisciplineKept := by
  intro s hs hdiag
  cases hr : s.resetIn
  case true => exact ⟨_, tick_asserted hr, busDisciplined_of_idle rfl rfl⟩
  case false =>
    by_cases ht : s.todo = []
    · rcases fetch_cases s with ⟨_, hf⟩ | ⟨b, rest, hx, hf⟩
      · exact ⟨s, tick_starved hr ht hf, hs⟩
      · obtain ⟨_, hidle⟩ := (busDisciplined_iff s).mp hs
        rw [ht] at hidle
        simp only [State.noDiagnosticNext, ht, hx, Bool.and_eq_true, bne_iff_ne] at hdiag
        obtain ⟨hop1, hop2⟩ := hdiag
        obtain ⟨h1, h2⟩ := decodeByte_ne_diagnostic hop1 hop2
        exact ⟨_, tick_fetched hr ht hf, busDisciplined_command h1 h2 (Option.some.inj hidle)⟩
    · cases ha : advance s with
      | moved t => exact ⟨t, tick_of_moved hr ha, busDisciplined_advance hs ha⟩
      | blocked => exact ⟨s, tick_blocked hr ht ha, hs⟩
      | fault f => exact absurd ha (advance_ne_fault_of_disciplined hs f)

/-! ### VPP and CE inside `d` -/

/-- Before any other line than the two that turn them on, VPP and CE are on if they are on after it. -/
theorem vpp_ce_before {a : Act} {l l' : Lines} (h : linesAfter a l = some l') (hmode : a ≠ .enterWriteMode)
    (hce : a ≠ .chipEnable) : (l'.vpp = true → l.vpp = true) ∧ (l'.ce = true → l.ce = true) := by
  cases hw : writesBus a
  case false =>
    rw [linesAfter_of_writesBus_false hw h]
    exact ⟨id, id⟩
  case true =>
    cases a
    case enterWriteMode => exact absurd rfl hmode
    case chipEnable => exact absurd rfl hce
    case setAddress | reinitAddress | busToInput | busToOutput | enterReadMode | chipDisable =>
      obtain ⟨_, rfl⟩ := whenQuiet_eq_some.mp h
      simp
    case driveData | oeAssert =>
      obtain ⟨_, rfl⟩ := whenQuiet_eq_some.mp (Option.ite_none_right_eq_some.mp h).2
      exact ⟨id, id⟩
    case oeDeassert =>
      obtain ⟨_, rfl⟩ := whenNoPulse_eq_some.mp h
      exact ⟨id, id⟩
    case pgmAssert | pgmDeassert =>
      cases (Option.ite_none_right_eq_some.mp h).2
      exact ⟨id, id⟩
    case applyPattern => cases h
    all_goals cases hw

/-- A loop test of `d` still to run asks for the write lines, and only the entry of `d` turns VPP and CE on. -/
theorem vpp_ce_of_whileWrite_ahead {todo : List Act} {l m : Lines} (h : linesAfterAll todo l = some m)
    (hloop : .whileWrite ∈ todo) (hmode : .enterWriteMode ∉ todo) (hce : .chipEnable ∉ todo) :
    l.vpp = true ∧ l.ce = true := by
  induction todo generalizing l with
  | nil => cases hloop
  | cons a todo ih =>
    obtain ⟨l', hl, hrest⟩ := linesAfterAll_cons_eq_some.mp h
    rcases List.mem_cons.mp hloop with rfl | hloop
    · obtain ⟨rfl, _⟩ := onlyAt_eq_some.mp hl
      exact ⟨rfl, rfl⟩
    · obtain ⟨ha, hmode⟩ := not_or.mp (mt List.mem_cons.mpr hmode)
      obtain ⟨ha', hce⟩ := not_or.mp (mt List.mem_cons.mpr hce)
      obtain ⟨hvpp, hsel⟩ := ih hrest hloop hmode hce
      obtain ⟨hvpp', hsel'⟩ := vpp_ce_before hl (Ne.symm ha) (Ne.symm ha')
      exact ⟨hvpp' hvpp, hsel' hsel⟩

/-- Settles O55: behind the entry of `d` no line ahead of its loop test turns VPP or CE on, and the loop test asks for both. -/
theorem writeHoldsVppAndCe : Obligations.WriteHoldsVppAndCe := by
  intro s hs hloop hmode hce
  obtain ⟨_, hall⟩ := (busDisciplined_iff s).mp hs
  simp only [List.contains_eq_mem, decide_eq_true_eq, decide_eq_false_iff_not] at hloop hmode hce
  exact vpp_ce_of_whileWrite_ahead hall hloop hmode hce

end Sys2Proof.Claims
end

section
/-! SUPPORT. Reset: the values it gives, what it leaves of the link and the trace, and the one cell it may leave open (spec
70_reset_and_hazards R260 to R262). -/

namespace Sys2Proof.Claims

open Sys2Proof.Machine

/-- Settles O12: the values of R261 as the reset state has them. -/
theorem resetValues : Obligations.ResetValues :=
  ⟨rfl, rfl, rfl, rfl, rfl, rfl, rfl, rfl, rfl, rfl, rfl, rfl, rfl, rfl⟩

/-- Settles O51: the reset state is in `IDLE` on idle lines, and no cell of its chip is listed. -/
theorem resetMeetsInvariants : Obligations.ResetMeetsInvariants :=
  ⟨soundState_of_idle rfl Memory.wf_nil, busDisciplined_of_idle rfl rfl⟩

/-- Reset gives the values of R261, whatever the reset input is afterwards. -/
theorem resetFrom_assertReset (s : State) (on : Bool) : resetFrom s { s.assertReset with resetIn := on } :=
  ⟨rfl, rfl, rfl, rfl, rfl, rfl, rfl, rfl, rfl⟩

/-- Settles O13: under reset a step and a tick are the reset itself, and so is the event that asserts the input. -/
theorem assertedResetWins : Obligations.AssertedResetWins := by
  intro s
  refine ⟨fun hr => ⟨s.assertReset, step_asserted hr, tick_asserted hr, hr, resetFrom_assertReset s s.resetIn⟩, ?_⟩
  rw [resetInput_pulse, resetInput_on]
  exact ⟨rfl, resetFrom_assertReset s true, rfl, resetFrom_assertReset s false⟩

/-- Reset leaves open the cell on the lines if a Write-one-byte is under way, and no other (entry U13). -/
theorem assertReset_unsettled {s : State} (hm : s.chip.model = .ideal) (a : Nat) :
    a ∈ s.assertReset.chip.unsettled ↔
      a ∈ s.chip.unsettled ∨ byteWriteUnderWay s.todo = true ∧ a = (Bus.chipAddr s.bus).toNat := by
  rw [assertReset_chip]
  cases hw : byteWriteUnderWay s.todo
  case false => simp
  case true => simpa using Chip.spoil_ideal s.chip _ a hm

/-- Settles O14: a step under reset and the event that asserts reset leave the chip that reset leaves. -/
theorem resetSpoilsAtMostOneCell : Obligations.ResetSpoilsAtMostOneCell := by
  intro s t h
  have hchip : t.chip = s.assertReset.chip := by
    rcases h with ⟨hr, h⟩ | rfl
    · rw [step_asserted hr, Host.Outcome.next.injEq] at h
      rw [h]
    · rw [resetInput_on]
  obtain ⟨hcells, hmodel, _, _⟩ := assertReset_cells s
  rw [hchip]
  exact ⟨hmodel, hcells, assertReset_unsettled⟩

end Sys2Proof.Claims
end
